-- ==== Sys2Proof/Word.lean ====
section
/-! DEFINITION. The word types of NAMI-CORE (00_scope.md R9, 10_state.md R24, 00_scope.md R12). -/

namespace Sys2Proof

/-- One byte of DMEM (20_memory.md R50). -/
abbrev Byte := BitVec 8

/-- A 64-bit register or command word (10_state.md R24, 30_encoding.md R70). -/
abbrev Word := BitVec 64

/-- The 64-bit IEEE-754 encoding of a binary64 value (00_scope.md R12). A value is held as its
encoding, because DMEM and COEF keep it bit for bit (40_filter_bank.md R87). -/
abbrev F64 := BitVec 64

end Sys2Proof
end

