-- ==== Sys2Proof/Config.lean ====
section
/-! DEFINITION. What an implementation fixes (00_scope.md R7) and the values the spec leaves free.

The parameters are plain data, carried by `State.params`, so that a statement about every state
quantifies over them (log entry 3). The free values are opaque: nothing in Lean can evaluate
them, and a claim holds for every choice of them. -/

namespace Sys2Proof

/-- The implementation parameters of 00_scope.md R7. -/
structure Params where
  /-- MEM_BYTES, the size of DMEM in bytes. -/
  memBytes : Nat
  /-- MAX_TAPS, the largest Filter Bank size. -/
  maxTaps : Nat
  /-- MAX_N, the largest transform length. -/
  maxN : Nat
  /-- REG_BASE, the host address of the register block. -/
  regBase : Nat
  deriving DecidableEq, Repr

/-- The reference values of 00_scope.md R7 (92_eei_decisions.md, OPEN parameters). -/
def Params.reference : Params :=
  { memBytes := 1048576, maxTaps := 16, maxN := 4096, regBase := 0 }

/-- VAL_W, the width of a variable-length value, fixed at 64 (00_scope.md R7). -/
def Config.valW : Nat := 64

/-- The free value NaNDraw (00_scope.md R7, R12; 93_implementation_defined.md U12): sign (bit 51)
and payload (bits 50 to 0) of the NaN that one floating-point operation produces. The first
argument is the command's draw number (`State.draws`), the second numbers the operation within
that command, so that every operation has a draw of its own (log entry 8). -/
opaque Config.nanDraw : Nat → Nat → BitVec 52

/-- The free value of 10_state.md R42 (b): whether the host's read of an engine-written register
while BUSY = 1 sees the value after the pending command's completion (log entry 10). -/
opaque Config.busyReadSeesNew : Nat → Bool

/-- The free content of the scratch buffer between commands (10_state.md R39), by draw number and
index (log entry 9). -/
opaque Config.scratchResidue : Nat → Nat → F64

end Sys2Proof
end

