-- ==== Sys2Proof/Syntax.lean ====
section
/-! DEFINITION. The commands of NAMI-CORE (30_encoding.md R73), the names of its registers
(10_state.md R24), and the host side's own language (30_encoding.md R77, R78). -/

namespace Sys2Proof

/-- The 15 commands of 30_encoding.md R73. A command word holds no operand: the operands are the
latched ARG registers (30_encoding.md R71). -/
inductive Instr where
  /-- NOP (R85). -/
  | nop
  /-- FB_LOAD (R87). -/
  | fbLoad
  /-- XF_SELECT (R89). -/
  | xfSelect
  /-- XF_FWD (R98). -/
  | xfFwd
  /-- XF_INV (R99). -/
  | xfInv
  /-- BS_INIT (R121). -/
  | bsInit
  /-- BS_READBIT (R122). -/
  | bsReadbit
  /-- BS_GOOD (R123). -/
  | bsGood
  /-- BS_INBYTES (R124). -/
  | bsInbytes
  /-- BS_NEXTBYTE (R125). -/
  | bsNextbyte
  /-- WS_INIT (R127). -/
  | wsInit
  /-- WS_PUTBIT (R128). -/
  | wsPutbit
  /-- WS_ALIGN (R130). -/
  | wsAlign
  /-- VENC (R142). -/
  | venc
  /-- VDEC (R143). -/
  | vdec
  deriving DecidableEq, Repr

/-- The registers of the map in 10_state.md R24. -/
inductive Reg where
  | id | param0 | param1 | param2 | ctrl | cmd | status
  | arg0 | arg1 | arg2 | result | strat | fbInfo
  | bsBase | bsPos | bsEnd | bsMask | bsTotal
  | wsBase | wsPos | wsEnd | wsMask | wsTotal
  deriving DecidableEq, Repr

/-- What a host branch tests of the register value it reads (30_encoding.md R77). -/
inductive BranchTest where
  /-- BRZ: the value is 0. -/
  | zero
  /-- BRNZ: the value is not 0. -/
  | notZero
  /-- BRBS: this bit of the value is 1. -/
  | bitSet (bit : Nat)
  /-- BRBC: this bit of the value is 0. -/
  | bitClear (bit : Nat)
  deriving DecidableEq, Repr

/-- A statement of the host-side assembly language (30_encoding.md R77), with the two shorthands
of 30_encoding.md R78. An immediate is a number the assembler checks to fit 64 bits. -/
inductive Stmt where
  | label (name : String)
  | cmd (i : Instr) (operands : List Nat)
  | xfFwd1 (base n : Nat)
  | xfInv1 (base n : Nat)
  | wr (r : Reg) (imm : Nat)
  | rd (r : Reg)
  | wait
  | clr
  | memw (addr : Nat) (bytes : List Byte)
  | memw64 (addr imm : Nat)
  | branch (test : BranchTest) (r : Reg) (target : String)
  | jmp (target : String)
  | halt
  deriving DecidableEq, Repr

/-- One action of the host agent (00_scope.md R8): a register access at a host address with its
width in bits, a DMEM access, or control flow of its own, its labels resolved to positions. -/
inductive HostOp where
  | regRead (addr width : Nat)
  | regWrite (addr width : Nat) (w : Word)
  | memWrite (addr : Nat) (bytes : List Byte)
  | memRead (addr len : Nat)
  | branch (test : BranchTest) (addr target : Nat)
  | jmp (target : Nat)
  | halt
  deriving DecidableEq, Repr

/-- Which agent takes the next step (00_scope.md R8, 60_exceptions.md R160), or the reset input
(70_reset_and_hazards.md R170). -/
inductive Turn where
  | engine
  | host
  | rst
  deriving DecidableEq, Repr

end Sys2Proof
end

