-- ==== Sys2Proof/WellFormed.lean ====
section
/-! DEFINITION. Which terms are well formed: the parameters (00_scope.md R7), the commands, and the
statements of the host side's assembly language (30_encoding.md R71, R77). -/

namespace Sys2Proof

/-- The constraints of 00_scope.md R7, with MAX_TAPS below 2^32 so that FB_INFO.SIZE, 32 bits
wide (10_state.md R32), can hold every legal size (DEDUCED, log entry 4). -/
abbrev Params.wf (p : Params) : Prop :=
  (8 ≤ p.memBytes ∧ p.memBytes ≤ 2 ^ 64 ∧ p.memBytes % 8 = 0) ∧
  (p.maxTaps % 2 = 0 ∧ 10 ≤ p.maxTaps ∧ p.maxTaps < 2 ^ 32) ∧
  (p.maxN % 2 = 0 ∧ p.maxTaps ≤ p.maxN) ∧
  p.regBase % 4096 = 0

/-- A command is well formed: a command word has no operand field (30_encoding.md R71), so each of
the 15 is. -/
def Instr.wellFormed : Instr → Bool
  | .nop | .fbLoad | .xfSelect | .xfFwd | .xfInv => true
  | .bsInit | .bsReadbit | .bsGood | .bsInbytes | .bsNextbyte => true
  | .wsInit | .wsPutbit | .wsAlign => true
  | .venc | .vdec => true

/-- How many ARG columns a command uses (30_encoding.md R71). -/
def Instr.operandCount : Instr → Nat
  | .nop => 0
  | .fbLoad => 1
  | .xfSelect => 1
  | .xfFwd => 3
  | .xfInv => 3
  | .bsInit => 2
  | .bsReadbit => 0
  | .bsGood => 0
  | .bsInbytes => 0
  | .bsNextbyte => 0
  | .wsInit => 2
  | .wsPutbit => 1
  | .wsAlign => 0
  | .venc => 1
  | .vdec => 0

/-- `imm` is an unsigned 64-bit value (30_encoding.md R77). -/
def immOk (imm : Nat) : Bool := decide (imm < 2 ^ 64)

/-- A label: a letter, then letters, digits and underscores (30_encoding.md R77). -/
def labelOk (name : String) : Bool :=
  match name.toList with
  | [] => false
  | c :: cs => c.isAlpha && cs.all fun d => d.isAlphanum || d == '_'

/-- The bit a BRBS or BRBC tests is 0 to 63 (30_encoding.md R77). -/
def BranchTest.wellFormed : BranchTest → Bool
  | .zero => true
  | .notZero => true
  | .bitSet b => decide (b < 64)
  | .bitClear b => decide (b < 64)

/-- A statement the assembler of 30_encoding.md R77 accepts. -/
def Stmt.wellFormed : Stmt → Bool
  | .label name => labelOk name
  | .cmd i operands => operands.length == i.operandCount && operands.all immOk
  | .xfFwd1 base n => immOk base && immOk n
  | .xfInv1 base n => immOk base && immOk n
  | .wr _ imm => immOk imm
  | .rd _ => true
  | .wait => true
  | .clr => true
  | .memw addr bytes => immOk addr && !bytes.isEmpty
  | .memw64 addr imm => immOk addr && immOk imm
  | .branch test _ target => test.wellFormed && labelOk target
  | .jmp target => labelOk target
  | .halt => true

end Sys2Proof
end

