-- ==== Sys2Proof/Decode.lean ====
section
/-! DEFINITION. The command word (30_encoding.md R70): its decoder, total, refusing by name every
illegal word (30_encoding.md R74), and its encoder (30_encoding.md R73). -/

namespace Sys2Proof

/-- Why a command word is illegal (30_encoding.md R74). -/
inductive DecodeError where
  /-- RSV, bits 63 to 8, is not zero. -/
  | reservedNonzero (rsv : BitVec 56)
  /-- OPC is not in the table of 30_encoding.md R73. -/
  | unassignedOpcode (opc : BitVec 8)
  deriving DecidableEq, Repr

/-- OPC = w[7:0] (30_encoding.md R70). -/
def opcOf (w : Word) : BitVec 8 := w.extractLsb' 0 8

/-- RSV = w[63:8] (30_encoding.md R70). -/
def rsvOf (w : Word) : BitVec 56 := w.extractLsb' 8 56

/-- The opcode map of 30_encoding.md R73, from opcode to command. -/
def instrOfOpc (opc : BitVec 8) : Option Instr :=
  match opc.toNat with
  | 0x00 => some .nop
  | 0x01 => some .fbLoad
  | 0x02 => some .xfSelect
  | 0x03 => some .xfFwd
  | 0x04 => some .xfInv
  | 0x10 => some .bsInit
  | 0x11 => some .bsReadbit
  | 0x12 => some .bsGood
  | 0x13 => some .bsInbytes
  | 0x14 => some .bsNextbyte
  | 0x18 => some .wsInit
  | 0x19 => some .wsPutbit
  | 0x1A => some .wsAlign
  | 0x20 => some .venc
  | 0x21 => some .vdec
  | _ => none

/-- The decoder of command words (30_encoding.md R70, R73, R74). -/
def decode (w : Word) : Except DecodeError Instr :=
  if rsvOf w = 0 then
    match instrOfOpc (opcOf w) with
    | some i => .ok i
    | none => .error (.unassignedOpcode (opcOf w))
  else .error (.reservedNonzero (rsvOf w))

/-- The opcode of a command (30_encoding.md R73). -/
def Instr.opc : Instr → BitVec 8
  | .nop => 0x00
  | .fbLoad => 0x01
  | .xfSelect => 0x02
  | .xfFwd => 0x03
  | .xfInv => 0x04
  | .bsInit => 0x10
  | .bsReadbit => 0x11
  | .bsGood => 0x12
  | .bsInbytes => 0x13
  | .bsNextbyte => 0x14
  | .wsInit => 0x18
  | .wsPutbit => 0x19
  | .wsAlign => 0x1A
  | .venc => 0x20
  | .vdec => 0x21

/-- The command word of a command: RSV = 0 above its opcode (30_encoding.md R70, R73). -/
def encode (i : Instr) : Word := (0 : BitVec 56) ++ i.opc

/-- The command word that `nbits` bits of `w` are, the bits above them zero. A command is one
64-bit word written by one 64-bit access (30_encoding.md R76), so there is no byte order. -/
def tableWord (nbits w : Nat) : Word := BitVec.ofNat 64 (w % 2 ^ nbits)

/-- The instruction the decoder reads from an opcode-table word. -/
def decodeTableWord (nbits w : Nat) : Option Instr :=
  match decode (tableWord nbits w) with
  | .ok i => some i
  | .error _ => none

end Sys2Proof
end

