-- ==== Sys2Proof/Machine/State.lean ====
section
/-! DEFINITION. The state of one NAMI-CORE block (10_state.md R20), the errors a command raises
(60_exceptions.md R150), the reasons a step can stop, and the state after reset
(70_reset_and_hazards.md R171). -/

namespace Sys2Proof.Machine

/-- The errors of 60_exceptions.md R150. They are recorded in STATUS (R153): a command that raises
one still takes the engine to a next state. -/
inductive CmdError where
  | illegalCmd | badArg | align | range | fbInvalid | noFb | incompatible
  | oddLength | shortLength | tooLong | streamExhausted | varintOverflow | writeOverflow
  deriving DecidableEq, Repr

/-- The fields of STATUS (10_state.md R27). The reserved bits hold nothing: they read 0. -/
structure Status where
  /-- BUSY, the same bit as PENDING (10_state.md R40). -/
  busy : Bool
  done : Bool
  err : Bool
  overrun : Bool
  errcode : BitVec 8
  lastOpc : BitVec 8
  deriving DecidableEq, Repr

/-- STRAT (10_state.md R31): 0 is Direct, 1 is Lifting. -/
inductive Strategy where
  | direct
  | lifting
  deriving DecidableEq, Repr

/-- The fields of FB_INFO (10_state.md R32). -/
structure FbInfo where
  valid : Bool
  family : BitVec 8
  size : BitVec 32
  deriving DecidableEq, Repr

/-- The Filter Bank store COEF (10_state.md R33): four arrays of MAX_TAPS binary64 entries. -/
structure FilterBank where
  lpf : List F64
  hpf : List F64
  ilpf : List F64
  ihpf : List F64
  deriving DecidableEq, Repr

/-- A bit cursor: the reader's BS_BASE, BS_POS, BS_END, BS_MASK and BS_TOTAL (10_state.md R34), or
the writer's WS_ registers (10_state.md R36). -/
structure Cursor where
  base : Word
  pos : Word
  limit : Word
  mask : BitVec 8
  total : Word
  deriving DecidableEq, Repr

/-- DMEM (20_memory.md R50) as the list of the bytes that are not 0, by strictly rising address.
An unlisted byte reads 0 (DESIGN CHOICE, unsafe, log entry 6). -/
abbrev Memory := List Host.Cell

/-- The host agent (00_scope.md R8): its program, its position in it, and what it last read. -/
structure HostAgent where
  prog : List HostOp
  pc : Nat
  /-- The last register value read. -/
  rdata : Word
  /-- The last DMEM bytes read. -/
  rbytes : List Byte
  deriving DecidableEq, Repr

/-- The state of one NAMI-CORE block and its DMEM (10_state.md R20), with the model's own fields
`params`, `draws`, `host` and `turns` (INVENTORY.md, State). -/
structure State where
  /-- The implementation parameters (00_scope.md R7). No step changes them. -/
  params : Params
  /-- CTRL.IRQ_EN (10_state.md R25). -/
  irqEn : Bool
  status : Status
  arg0 : Word
  arg1 : Word
  arg2 : Word
  result : Word
  strat : Strategy
  fbInfo : FbInfo
  coef : FilterBank
  /-- The bit reader (10_state.md R34). -/
  bs : Cursor
  /-- The bit writer (10_state.md R36). -/
  ws : Cursor
  /-- The scratch buffer T (10_state.md R39): its content between commands is unspecified, so the
  state holds the number of the draw that gives it (`scratchEntry`, log entry 9). -/
  scratch : Nat
  /-- CMD_LATCH (10_state.md R40). -/
  cmdLatch : Word
  argLatch0 : Word
  argLatch1 : Word
  argLatch2 : Word
  dmem : Memory
  /-- How many free values have been taken so far. -/
  draws : Nat
  host : HostAgent
  /-- Which agent moves next, oldest first; empty means the default order (log entry 1). -/
  turns : List Turn
  deriving DecidableEq, Repr

/-- Why a step stops with a fault. -/
inductive Fault where
  /-- Raised by the byte primitives of DMEM when a stream command's cursor leads outside
  [0, MEM_BYTES). 00_scope.md R11 says no command does that; only states that break the cursor
  invariants of 10_state.md R35 reach it. Safe (log entry 13). -/
  | dmemOutOfRange
  deriving DecidableEq, Repr

/-- Why a step has no meaning. -/
inductive Refusal where
  /-- Raised by an arm of `exec` for an instruction without a meaning. No arm does. Safe. -/
  | notModelled (mnemonic : String)
  /-- Raised by the host's access to the register block that is not a 64-bit access at an
  8-byte-aligned offset: 10_state.md R44 refuses it, and the host agent is stuck. Safe. -/
  | malformedRegisterAccess
  /-- Raised by a host register access outside the 4096-byte block at REG_BASE (10_state.md R24):
  it does not reach NAMI-CORE. Safe (log entry 14). -/
  | outsideRegisterBlock
  /-- Raised by a host DMEM access outside [0, MEM_BYTES): a platform bus error, outside the model
  (93_implementation_defined.md U19). Safe (log entry 14). -/
  | hostDmemOutOfRange
  deriving DecidableEq, Repr

/-- STATUS after reset (70_reset_and_hazards.md R171). -/
def Status.reset : Status :=
  { busy := false, done := false, err := false, overrun := false, errcode := 0, lastOpc := 0 }

/-- FB_INFO after reset (70_reset_and_hazards.md R171). -/
def FbInfo.reset : FbInfo := { valid := false, family := 0, size := 0 }

/-- A cursor after reset: an empty stream (70_reset_and_hazards.md R171). -/
def Cursor.reset : Cursor := { base := 0, pos := 0, limit := 0, mask := 0x80, total := 0 }

/-- COEF after reset: unspecified and unreadable (10_state.md R33); 0 is the model's choice
(DESIGN CHOICE, log entry 7). -/
def FilterBank.reset (maxTaps : Nat) : FilterBank :=
  { lpf := List.replicate maxTaps 0, hpf := List.replicate maxTaps 0,
    ilpf := List.replicate maxTaps 0, ihpf := List.replicate maxTaps 0 }

/-- The host agent with no program (log entry 2). -/
def HostAgent.none : HostAgent := { prog := [], pc := 0, rdata := 0, rbytes := [] }

/-- The reset values of 70_reset_and_hazards.md R171 for every register of a block with parameters
`p`, over the memory, draw counter, host agent and turns that reset does not touch
(70_reset_and_hazards.md R173). The unspecified items COEF, CMD_LATCH and ARG_LATCH are 0
(DESIGN CHOICE, log entry 7); the content of T is a new draw (log entry 9). -/
def State.afterReset (p : Params) (dmem : Memory) (draws : Nat) (host : HostAgent)
    (turns : List Turn) : State :=
  { params := p, irqEn := false, status := Status.reset,
    arg0 := 0, arg1 := 0, arg2 := 0, result := 0,
    strat := .direct, fbInfo := FbInfo.reset, coef := FilterBank.reset p.maxTaps,
    bs := Cursor.reset, ws := Cursor.reset,
    scratch := draws,
    cmdLatch := 0, argLatch0 := 0, argLatch1 := 0, argLatch2 := 0,
    dmem := dmem, draws := draws + 1, host := host, turns := turns }

/-- The machine right after power-on reset: the values of 70_reset_and_hazards.md R171, the
reference parameters (DESIGN CHOICE, log entry 3), memory with nothing listed, no host program. -/
def State.reset : State := State.afterReset Params.reference [] 0 HostAgent.none []

end Sys2Proof.Machine
end

