-- ==== Sys2Proof/Machine/Memory.lean ====
section
/-! DEFINITION. DMEM (20_memory.md R50) and its access primitives (00_scope.md R11). The primitives
here are total; the commands check their footprints before they use them (20_memory.md R55). -/

namespace Sys2Proof.Machine

/-- What an unlisted byte of DMEM reads as (DESIGN CHOICE, log entry 6). -/
def unlistedByte : Byte := 0

/-- The canonical form: addresses strictly rise, and no entry is what an unlisted byte reads as.
Equal memories are then equal lists. -/
abbrev Memory.wf (m : Memory) : Prop :=
  m.Pairwise (fun c d => c.1 < d.1) ∧ ∀ c ∈ m, c.2 ≠ unlistedByte

/-- Every listed byte lies in [0, MEM_BYTES) (20_memory.md R50). -/
abbrev Memory.within (m : Memory) (memBytes : Nat) : Prop := ∀ c ∈ m, c.1 < memBytes

/-- `MemRead(addr, 1)` (00_scope.md R11). -/
def memRead : Memory → Nat → Byte
  | [], _ => unlistedByte
  | (k, b) :: rest, a => if k = a then b else memRead rest a

/-- `MemWrite(addr, 1, b)` (00_scope.md R11), keeping the canonical form. -/
def memWrite : Memory → Nat → Byte → Memory
  | [], a, b => if b = unlistedByte then [] else [(a, b)]
  | (k, c) :: rest, a, b =>
    if k < a then (k, c) :: memWrite rest a b
    else if k = a then (if b = unlistedByte then rest else (a, b) :: rest)
    else (if b = unlistedByte then (k, c) :: rest else (a, b) :: (k, c) :: rest)

/-- Bytes written one after another from `a` up. -/
def memWriteBytes : Memory → Nat → List Byte → Memory
  | m, _, [] => m
  | m, a, b :: bs => memWriteBytes (memWrite m a b) (a + 1) bs

/-- `len` bytes read from `a` up. -/
def memReadBytes (m : Memory) (a len : Nat) : List Byte :=
  (List.range len).map fun k => memRead m (a + k)

/-- `MemRead(addr, 8)` (00_scope.md R11): byte `addr + k` holds bits 8k+7 to 8k
(20_memory.md R52). -/
def memRead64 (m : Memory) (a : Nat) : Word :=
  memRead m (a + 7) ++ memRead m (a + 6) ++ memRead m (a + 5) ++ memRead m (a + 4) ++
    memRead m (a + 3) ++ memRead m (a + 2) ++ memRead m (a + 1) ++ memRead m a

/-- The eight bytes of a word in little-endian order (20_memory.md R52). -/
def wordBytes (w : Word) : List Byte :=
  [w.extractLsb' 0 8, w.extractLsb' 8 8, w.extractLsb' 16 8, w.extractLsb' 24 8,
    w.extractLsb' 32 8, w.extractLsb' 40 8, w.extractLsb' 48 8, w.extractLsb' 56 8]

/-- `MemWrite(addr, 8, w)` (00_scope.md R11). -/
def memWrite64 (m : Memory) (a : Nat) (w : Word) : Memory := memWriteBytes m a (wordBytes w)

/-- `LoadF64(addr)` (00_scope.md R11): a binary64 value is held as its encoding. -/
def loadF64 (m : Memory) (a : Nat) : F64 := memRead64 m a

/-- `StoreF64(addr, v)` (00_scope.md R11). -/
def storeF64 (m : Memory) (a : Nat) (v : F64) : Memory := memWrite64 m a v

/-- `count` binary64 values from `a` up, `step` bytes apart. -/
def loadArray (m : Memory) (a step count : Nat) : List F64 :=
  (List.range count).map fun k => loadF64 m (a + step * k)

/-- Binary64 values stored from `a` up, `step` bytes apart. -/
def storeArray : Memory → Nat → Nat → List F64 → Memory
  | m, _, _, [] => m
  | m, a, step, v :: vs => storeArray (storeF64 m a v) (a + step) step vs

end Sys2Proof.Machine
end

