-- ==== Sys2Proof/Machine/Ops.lean ====
section
/-! DEFINITION. The operations every command shares: raising an error and completing
(60_exceptions.md R153, R160), issue and overrun (R159, R161), reset
(70_reset_and_hazards.md R170), and the engine's one-bit and one-byte primitives
(43_bitstream.md R120, R129). -/

namespace Sys2Proof.Machine

/-- The error codes of 60_exceptions.md R150. -/
def CmdError.code : CmdError → BitVec 8
  | .illegalCmd => 0x01
  | .badArg => 0x02
  | .align => 0x03
  | .range => 0x04
  | .fbInvalid => 0x05
  | .noFb => 0x06
  | .incompatible => 0x07
  | .oddLength => 0x08
  | .shortLength => 0x09
  | .tooLong => 0x0A
  | .streamExhausted => 0x0B
  | .varintOverflow => 0x0C
  | .writeOverflow => 0x0D

/-- What ends a command rule early: `raise E` (00_scope.md R13), or the model's fault. -/
inductive Stop where
  | error (e : CmdError)
  | fault (f : Fault)
  deriving DecidableEq, Repr

/-- A command rule under way: what it has computed, or why it ended. -/
abbrev Cmd (α : Type) := Except Stop α

/-- `if bad: raise e` (00_scope.md R13). -/
def check (bad : Prop) [Decidable bad] (e : CmdError) : Cmd Unit :=
  if bad then .error (.error e) else .ok ()

/-- Error recording, the trap entry of NAMI-CORE (60_exceptions.md R153): there is no vector, no
saved pc and no mode; LAST_OPC was set at issue and nothing else changes. -/
def raiseError (e : CmdError) (s : State) : State :=
  { s with status :=
    { s.status with busy := false, done := true, err := true, errcode := e.code } }

/-- The error return (60_exceptions.md R154): clearing STATUS.ERR clears ERRCODE with it
(10_state.md R28). There is nothing to restore. -/
def clearError (s : State) : State :=
  { s with status := { s.status with err := false, errcode := 0 } }

/-- Successful completion (60_exceptions.md R160). -/
def complete (s : State) : State :=
  { s with status := { s.status with busy := false, done := true } }

/-- The engine's step on a command rule's answer (60_exceptions.md R160): its changes and
completion, or, the changes discarded (00_scope.md R13), the error. -/
def finish (s : State) : Cmd State → Host.Outcome State Fault Refusal
  | .ok t => .next (complete t)
  | .error (.error e) => .next (raiseError e s)
  | .error (.fault f) => .fault f

/-- Issue (60_exceptions.md R159). OVERRUN is kept. -/
def issue (w : Word) (s : State) : State :=
  { s with
    cmdLatch := w, argLatch0 := s.arg0, argLatch1 := s.arg1, argLatch2 := s.arg2,
    status := { s.status with
      busy := true, done := false, err := false, errcode := 0, lastOpc := opcOf w } }

/-- Overrun (60_exceptions.md R161): the word is dropped. -/
def overrun (s : State) : State :=
  { s with status := { s.status with overrun := true } }

/-- The reset input (70_reset_and_hazards.md R170, R171, R173): every register at its reset value;
DMEM, the parameters and the host side are not the block's and stay. -/
def applyReset (s : State) : State :=
  State.afterReset s.params s.dmem s.draws s.host s.turns

/-- The number of entries of the scratch buffer T (10_state.md R39). -/
def scratchSize (p : Params) : Nat := p.maxN + p.maxTaps + 1

/-- The content of the scratch buffer T between commands, entry by entry: unspecified, so a free
value (10_state.md R39, log entry 9). No rule reads it. -/
def scratchEntry (s : State) (i : Fin (scratchSize s.params)) : F64 :=
  Config.scratchResidue s.scratch i.val

/-- The engine's read of one byte of DMEM (00_scope.md R11). -/
def readByte (p : Params) (m : Memory) (a : Nat) : Cmd Byte :=
  if a < p.memBytes then .ok (memRead m a) else .error (.fault .dmemOutOfRange)

/-- The engine's write of one byte of DMEM (00_scope.md R11). -/
def writeByte (p : Params) (m : Memory) (a : Nat) (b : Byte) : Cmd Memory :=
  if a < p.memBytes then .ok (memWrite m a b) else .error (.fault .dmemOutOfRange)

/-- `log2m(m)` (10_state.md R37), the k with m = 2^k. -/
def log2m (mask : BitVec 8) : Nat := Nat.log2 mask.toNat

/-- BS_BITS_LEFT and WS_ROOM (10_state.md R37), as a signed integer. -/
def bitsLeft (c : Cursor) : Int :=
  8 * ((c.limit.toNat : Int) - c.pos.toNat) - (7 - log2m c.mask)

/-- `good()` (10_state.md R37). -/
def cursorGood (c : Cursor) : Bool := decide (c.pos < c.limit)

/-- A cursor over `len` bytes from `base`, at its first bit (43_bitstream.md R121, R127). -/
def cursorInit (base len : Nat) : Cursor :=
  { base := BitVec.ofNat 64 base, pos := BitVec.ofNat 64 base,
    limit := BitVec.ofNat 64 (base + len), mask := 128, total := 0 }

/-- `BS_POS - BS_BASE`, the offset of the byte that holds the next bit (43_bitstream.md R124). -/
def cursorOffset (c : Cursor) : Word := c.pos - c.base

/-- One bit on, with the count, as in ReadBitPrim and PutBitPrim (43_bitstream.md R120, R129). -/
def cursorAdvance (c : Cursor) : Cursor :=
  if c.mask = 1 then { c with mask := 128, pos := c.pos + 1, total := c.total + 1 }
  else { c with mask := c.mask >>> 1, total := c.total + 1 }

/-- To the next byte boundary, the count unchanged (43_bitstream.md R125, R130). -/
def cursorAlign (c : Cursor) : Cursor :=
  if c.mask = 128 then c else { c with pos := c.pos + 1, mask := 128 }

/-- `ReadBitPrim()` (43_bitstream.md R120) on the cursor `c`. -/
def readBitPrim (p : Params) (m : Memory) (c : Cursor) : Cmd (Bool × Cursor) := do
  let byte ← readByte p m c.pos.toNat
  return (decide (byte &&& c.mask ≠ 0), cursorAdvance c)

/-- The byte PutBitPrim writes over `old` (43_bitstream.md R129). -/
def putBitByte (old mask : Byte) (b : Bool) : Byte :=
  if b then old ||| mask else old &&& (0xFF ^^^ mask)

/-- `PutBitPrim(b)` (43_bitstream.md R129) on the cursor `c`: the first bit of a byte clears the
other seven. -/
def putBitPrim (p : Params) (m : Memory) (c : Cursor) (b : Bool) : Cmd (Memory × Cursor) := do
  let old ← if c.mask = 128 then pure 0 else readByte p m c.pos.toNat
  let m' ← writeByte p m c.pos.toNat (putBitByte old c.mask b)
  return (m', cursorAdvance c)

end Sys2Proof.Machine
end

