-- ==== Sys2Proof/Machine/Flags.lean ====
section
/-! DEFINITION. NAMI-CORE has no flags or condition codes (10_state.md R38): the only status bits
are those of STATUS and FB_INFO.VALID. This file is the register view of the status and control
bits: their words (10_state.md R25, R27, R31, R32), the write-1-to-clear bits (R28) and the
output `irq` (R41). -/

namespace Sys2Proof.Machine

/-- A bit as a 64-bit number. -/
def bitWord (b : Bool) : Word := (BitVec.ofBool b).setWidth 64

/-- STATUS as the host reads it (10_state.md R27). -/
def statusWord (t : Status) : Word :=
  (0 : BitVec 40) ++ t.lastOpc ++ t.errcode ++ (0 : BitVec 4) ++
    BitVec.ofBool t.overrun ++ BitVec.ofBool t.err ++ BitVec.ofBool t.done ++ BitVec.ofBool t.busy

/-- CTRL as the host reads it (10_state.md R25). -/
def ctrlWord (irqEn : Bool) : Word := bitWord irqEn

/-- STRAT as the host reads it (10_state.md R31). -/
def stratWord : Strategy → Word
  | .direct => 0
  | .lifting => 1

/-- FB_INFO as the host reads it (10_state.md R32). -/
def fbInfoWord (f : FbInfo) : Word :=
  (0 : BitVec 16) ++ f.size ++ f.family ++ (0 : BitVec 7) ++ BitVec.ofBool f.valid

/-- BS_MASK and WS_MASK as the host reads them: bits 63 to 8 read 0 (10_state.md R34). -/
def maskWord (mask : BitVec 8) : Word := mask.setWidth 64

/-- A host write to STATUS (10_state.md R28), its three parts in order. -/
def writeStatus (w : Word) (s : State) : State :=
  let s := if w.getLsbD 1 then { s with status := { s.status with done := false } } else s
  let s := if w.getLsbD 2 then clearError s else s
  if w.getLsbD 3 then { s with status := { s.status with overrun := false } } else s

/-- The output `irq` (10_state.md R41, 60_exceptions.md R156). -/
def irq (s : State) : Bool := s.irqEn && s.status.done

end Sys2Proof.Machine
end

