-- ==== Sys2Proof/Machine/Operands.lean ====
section
/-! DEFINITION. The operands of a command (30_encoding.md R71): the latched ARG values, read as
unsigned integers, unscaled (R72). Addresses are unbounded integers (20_memory.md R55). -/

namespace Sys2Proof.Machine

/-- ARG_LATCH[0] as an unsigned integer: `desc`, `strat`, `base`, `bit`, `value`. -/
def operand0 (s : State) : Nat := s.argLatch0.toNat

/-- ARG_LATCH[1] as an unsigned integer: `n`, `len`. -/
def operand1 (s : State) : Nat := s.argLatch1.toNat

/-- ARG_LATCH[2] as an unsigned integer: `stride`, in elements. -/
def operand2 (s : State) : Nat := s.argLatch2.toNat

/-- `elem(k) = base + 8 * stride * k` (41_transform_direct.md R95). -/
def elemAddr (base stride k : Nat) : Nat := base + 8 * stride * k

/-- One past the last byte of a transform's footprint, in unbounded arithmetic
(41_transform_direct.md R96, check 8). -/
def transformEnd (base n stride : Nat) : Int := base + 8 * stride * ((n : Int) - 1) + 8

/-- The size of the Filter Bank descriptor's header (40_filter_bank.md R86). -/
def headerBytes : Nat := 48

/-- Header word `k` of the descriptor at `a` (40_filter_bank.md R86). -/
def headerWord (m : Memory) (a k : Nat) : Nat := (memRead64 m (a + 8 * k)).toNat

/-- Coefficient array `k` (0 to 3: lpf, hpf, ilpf, ihpf) of the descriptor at `a`
(40_filter_bank.md R86). -/
def descriptorArray (m : Memory) (a size k : Nat) : List F64 :=
  loadArray m (a + headerBytes + 8 * k * size) 8 size

/-- The size of a descriptor (40_filter_bank.md R86). -/
def descriptorBytes (size : Nat) : Nat := headerBytes + 32 * size

/-- A stream buffer is out of range (43_bitstream.md R121, R127), in unbounded arithmetic: it leaves
DMEM, or its end would wrap the 64-bit BS_END or WS_END, which 20_memory.md R55 calls out of range,
not wrapped. The second matters only when MEM_BYTES = 2^64 (DEDUCED, log entry 5). -/
abbrev bufferOutside (p : Params) (base len : Nat) : Prop :=
  base + len > p.memBytes ∨ 2 ^ 64 ≤ base + len

end Sys2Proof.Machine
end

