-- ==== Sys2Proof/Machine/BitStream.lean ====
section
/-! DEFINITION. The bit-stream reader's and writer's commands (43_bitstream.md R121 to R130). -/

namespace Sys2Proof.Machine

/-- BS_INIT's check, then the cursor (43_bitstream.md R121). -/
def bsInit (s : State) : Cmd State := do
  check (bufferOutside s.params (operand0 s) (operand1 s)) .range
  return { s with bs := cursorInit (operand0 s) (operand1 s) }

/-- BS_INIT (43_bitstream.md R121). -/
def execBsInit (s : State) : Host.Outcome State Fault Refusal := finish s (bsInit s)

/-- BS_READBIT's check, then one bit (43_bitstream.md R122). -/
def bsReadbit (s : State) : Cmd State := do
  check (cursorGood s.bs = false) .streamExhausted
  let (b, c) ← readBitPrim s.params s.dmem s.bs
  return { s with result := bitWord b, bs := c }

/-- BS_READBIT (43_bitstream.md R122). -/
def execBsReadbit (s : State) : Host.Outcome State Fault Refusal := finish s (bsReadbit s)

/-- BS_GOOD (43_bitstream.md R123). -/
def execBsGood (s : State) : Host.Outcome State Fault Refusal :=
  finish s (.ok { s with result := bitWord (cursorGood s.bs) })

/-- BS_INBYTES (43_bitstream.md R124). -/
def execBsInbytes (s : State) : Host.Outcome State Fault Refusal :=
  finish s (.ok { s with result := cursorOffset s.bs })

/-- BS_NEXTBYTE (43_bitstream.md R125). -/
def execBsNextbyte (s : State) : Host.Outcome State Fault Refusal :=
  finish s (.ok { s with bs := cursorAlign s.bs })

/-- WS_INIT's check, then the cursor (43_bitstream.md R127). -/
def wsInit (s : State) : Cmd State := do
  check (bufferOutside s.params (operand0 s) (operand1 s)) .range
  return { s with ws := cursorInit (operand0 s) (operand1 s) }

/-- WS_INIT (43_bitstream.md R127). -/
def execWsInit (s : State) : Host.Outcome State Fault Refusal := finish s (wsInit s)

/-- WS_PUTBIT's checks in their order, then one bit (43_bitstream.md R128). PutBitPrim runs only
when WS_ROOM >= 1 (R129), so the check is for room below 1 (log entry 13). -/
def wsPutbit (s : State) : Cmd State := do
  check (operand0 s > 1) .badArg
  check (bitsLeft s.ws < 1) .writeOverflow
  let (m, c) ← putBitPrim s.params s.dmem s.ws (decide (operand0 s = 1))
  return { s with dmem := m, ws := c }

/-- WS_PUTBIT (43_bitstream.md R128). -/
def execWsPutbit (s : State) : Host.Outcome State Fault Refusal := finish s (wsPutbit s)

/-- WS_ALIGN (43_bitstream.md R130): DMEM is not written. -/
def execWsAlign (s : State) : Host.Outcome State Fault Refusal :=
  finish s (.ok { s with ws := cursorAlign s.ws })

end Sys2Proof.Machine
end

