-- ==== Sys2Proof/Machine/FilterBank.lean ====
section
/-! DEFINITION. NOP, FB_LOAD and XF_SELECT (40_filter_bank.md R85, R87, R89). -/

namespace Sys2Proof.Machine

/-- NOP (40_filter_bank.md R85): it completes and changes nothing else. -/
def execNop (s : State) : Host.Outcome State Fault Refusal := finish s (.ok s)

/-- Entries 0 to size-1 of a coefficient array replaced, the others kept
(40_filter_bank.md R87). -/
def overlay (new old : List F64) : List F64 := new ++ old.drop new.length

/-- The commit of FB_LOAD, all at once (40_filter_bank.md R87). -/
def commitBank (a size fam : Nat) (s : State) : State :=
  { s with
    coef :=
      { lpf := overlay (descriptorArray s.dmem a size 0) s.coef.lpf,
        hpf := overlay (descriptorArray s.dmem a size 1) s.coef.hpf,
        ilpf := overlay (descriptorArray s.dmem a size 2) s.coef.ilpf,
        ihpf := overlay (descriptorArray s.dmem a size 3) s.coef.ihpf },
    fbInfo := { valid := true, family := BitVec.ofNat 8 fam, size := BitVec.ofNat 32 size } }

/-- FB_LOAD's checks in their order, then its commit (40_filter_bank.md R87). -/
def fbLoad (s : State) : Cmd State := do
  let a := operand0 s
  check (a % 8 ≠ 0) .align
  check (a + headerBytes > s.params.memBytes) .range
  let size := headerWord s.dmem a 0
  let fam := headerWord s.dmem a 5
  check (size = 0 ∨ size % 2 ≠ 0 ∨ size > s.params.maxTaps) .fbInvalid
  check (headerWord s.dmem a 1 ≠ size ∨ headerWord s.dmem a 2 ≠ size ∨
    headerWord s.dmem a 3 ≠ size ∨ headerWord s.dmem a 4 ≠ size) .fbInvalid
  check (fam ≠ 0 ∧ fam ≠ 1) .fbInvalid
  check (a + descriptorBytes size > s.params.memBytes) .range
  return commitBank a size fam s

/-- FB_LOAD (40_filter_bank.md R87). -/
def execFbLoad (s : State) : Host.Outcome State Fault Refusal := finish s (fbLoad s)

/-- `LiftCompatible()` (40_filter_bank.md R90). -/
def liftCompatible (s : State) : Bool := s.fbInfo.valid && s.fbInfo.family == 1

/-- XF_SELECT's checks in their order, then STRAT (40_filter_bank.md R89). -/
def xfSelect (s : State) : Cmd State := do
  let sel := operand0 s
  check (sel > 1) .badArg
  check (sel = 1 ∧ s.fbInfo.valid = false) .noFb
  check (sel = 1 ∧ liftCompatible s = false) .incompatible
  return { s with strat := if sel = 1 then .lifting else .direct }

/-- XF_SELECT (40_filter_bank.md R89). -/
def execXfSelect (s : State) : Host.Outcome State Fault Refusal := finish s (xfSelect s)

end Sys2Proof.Machine
end

