-- ==== Sys2Proof/Machine/Float64.lean ====
section
/-! DEFINITION. IEEE-754 binary64 under roundTiesToEven, each operation rounded separately, no
fused multiply-add, no flush-to-zero, no flags (00_scope.md R12). The encoding and the exact
results are those of IEEE 754 (PRESUMED, log entry 11).

Every finite binary64 value is an integer multiple of 2^-1074. An operand becomes its sign and its
magnitude in those units, the exact result is computed in unbounded integers, and one function
rounds it back. -/

namespace Sys2Proof.Machine

/-- What a binary64 encoding stands for: a finite value is a sign and a magnitude in units of
2^-1074. -/
inductive FloatClass where
  | nan
  | inf (neg : Bool)
  | finite (neg : Bool) (mag : Nat)
  deriving DecidableEq, Repr

/-- The sign bit. -/
def f64Sign (x : F64) : Bool := x.getLsbD 63

/-- The biased exponent, bits 62 to 52. -/
def f64Exp (x : F64) : Nat := (x.extractLsb' 52 11).toNat

/-- The fraction, bits 51 to 0. -/
def f64Frac (x : F64) : Nat := (x.extractLsb' 0 52).toNat

/-- The magnitude of a finite encoding in units of 2^-1074: a subnormal is its fraction, a normal
has the hidden bit and is scaled by its exponent. -/
def f64Mag (x : F64) : Nat :=
  if f64Exp x = 0 then f64Frac x else (2 ^ 52 + f64Frac x) * 2 ^ (f64Exp x - 1)

/-- The value a binary64 encoding stands for. -/
def f64Class (x : F64) : FloatClass :=
  if f64Exp x = 2047 then
    if f64Frac x = 0 then .inf (f64Sign x) else .nan
  else .finite (f64Sign x) (f64Mag x)

/-- The encoding with this sign and these low 63 bits. -/
def f64Pack (neg : Bool) (low : Nat) : F64 := BitVec.ofBool neg ++ BitVec.ofNat 63 low

/-- The infinity of this sign. -/
def f64Inf (neg : Bool) : F64 := f64Pack neg (2047 * 2 ^ 52)

/-- The zero of this sign; `f64Zero false` is +0.0. -/
def f64Zero (neg : Bool) : F64 := f64Pack neg 0

/-- The quiet NaN with this sign (bit 51) and payload (bits 50 to 0) (00_scope.md R12). -/
def f64QuietNaN (draw : BitVec 52) : F64 :=
  f64Pack (draw.getLsbD 51) (2047 * 2 ^ 52 + 2 ^ 51 + draw.toNat % 2 ^ 51)

/-- The integer nearest to `num / den`, a tie going to the even one. -/
def roundDivEven (num den : Nat) : Nat :=
  let q := num / den
  let r := num % den
  if 2 * r > den ∨ (2 * r = den ∧ q % 2 = 1) then q + 1 else q

/-- The exponent a positive magnitude of `num / den` units is rounded at: its last kept bit has
weight 2^s units, with 53 significant bits, or all of them below the normal range. -/
def roundShift (num den : Nat) : Nat := Nat.log2 (num / den) - 52

/-- The binary64 value nearest to `num / den` units of 2^-1074 with this sign, under
roundTiesToEven; from the halfway point above the largest finite value on, infinity. -/
def f64Round (neg : Bool) (num den : Nat) : F64 :=
  let s := roundShift num den
  let low := s * 2 ^ 52 + roundDivEven num (den * 2 ^ s)
  if low ≥ 2047 * 2 ^ 52 then f64Inf neg else f64Pack neg low

/-- The magnitude with its sign as an integer. -/
def signedMag (neg : Bool) (mag : Nat) : Int := if neg then -(mag : Int) else mag

/-- `fadd(a, b)` (00_scope.md R12); `nan` is the NaN it gives where the result is one. An exact
zero sum is +0.0, but for the sum of two negative zeros. -/
def f64Add (nan a b : F64) : F64 :=
  match f64Class a, f64Class b with
  | .nan, _ => nan
  | _, .nan => nan
  | .inf na, .inf nb => if na = nb then f64Inf na else nan
  | .inf na, .finite _ _ => f64Inf na
  | .finite _ _, .inf nb => f64Inf nb
  | .finite na ma, .finite nb mb =>
    let sum := signedMag na ma + signedMag nb mb
    if sum = 0 then f64Zero (na && nb)
    else f64Round (decide (sum < 0)) sum.natAbs 1

/-- The exact negation: the sign bit flipped (42_transform_lifting.md R113). -/
def f64Neg (x : F64) : F64 := x ^^^ f64Pack true 0

/-- `fsub(a, b)` (00_scope.md R12): addition of the negation. No command rule uses it. -/
def f64Sub (nan a b : F64) : F64 := f64Add nan a (f64Neg b)

/-- `fmul(a, b)` (00_scope.md R12). The product of two magnitudes in units of 2^-1074 counts units
of 2^-2148. -/
def f64Mul (nan a b : F64) : F64 :=
  match f64Class a, f64Class b with
  | .nan, _ => nan
  | _, .nan => nan
  | .inf na, .inf nb => f64Inf (na ^^ nb)
  | .inf na, .finite nb mb => if mb = 0 then nan else f64Inf (na ^^ nb)
  | .finite na ma, .inf nb => if ma = 0 then nan else f64Inf (na ^^ nb)
  | .finite na ma, .finite nb mb => f64Round (na ^^ nb) (ma * mb) (2 ^ 1074)

/-- `fdiv(a, b)` (00_scope.md R12). Division of a non-zero value by zero is infinity. -/
def f64Div (nan a b : F64) : F64 :=
  match f64Class a, f64Class b with
  | .nan, _ => nan
  | _, .nan => nan
  | .inf _, .inf _ => nan
  | .inf na, .finite nb _ => f64Inf (na ^^ nb)
  | .finite na _, .inf nb => f64Zero (na ^^ nb)
  | .finite na ma, .finite nb mb =>
    if mb = 0 then (if ma = 0 then nan else f64Inf (na ^^ nb))
    else f64Round (na ^^ nb) (ma * 2 ^ 1074) mb

/-- The NaN that operation number `site` of the command with draw number `epoch` produces:
NaNDraw (00_scope.md R7, R12). -/
def drawnNaN (epoch site : Nat) : F64 := f64QuietNaN (Config.nanDraw epoch site)

end Sys2Proof.Machine
end

