-- ==== Sys2Proof/Machine/Transform.lean ====
section
/-! DEFINITION. The one-dimensional single-level wavelet transform as functions of its input: the
symmetric extension and the Direct strategy (41_transform_direct.md R100 to R104), and the
Lifting strategy (42_transform_lifting.md R110 to R113). Loops run in increasing order
(00_scope.md R14). `epoch` is the command's draw number; each floating-point operation of a
command has a NaN draw of its own, `drawnNaN epoch site` (log entry 8). -/

namespace Sys2Proof.Machine

/-- Element `i` of an array (00_scope.md R10); no rule reads past its end. -/
def elem (x : List F64) (i : Nat) : F64 := x.getD i 0

/-- The two ways SymExtend copies its input (41_transform_direct.md R100). -/
inductive ExtendMode where
  | plain
  | interleaved
  deriving DecidableEq, Repr

/-- SymExtend, step 1: the copy (41_transform_direct.md R100). -/
def extendCopy (mode : ExtendMode) (x : List F64) (n h : Nat) (t : List F64) : List F64 :=
  match mode with
  | .plain => (List.range n).foldl (fun t i => t.set (h + i) (elem x i)) t
  | .interleaved => (List.range (n / 2)).foldl
      (fun t i => (t.set (h + 2 * i) (elem x i)).set (h + 2 * i + 1) (elem x (n / 2 + i))) t

/-- SymExtend, step 2: the left border, i = j + 1 from 1 to h, l = h - i
(41_transform_direct.md R100). -/
def extendLeft (h : Nat) (t : List F64) : List F64 :=
  (List.range h).foldl
    (fun t j => t.set (h - (j + 1)) (elem t (h - (j + 1) + 2 * (j + 1)))) t

/-- SymExtend, step 3: the right border, i = j + 1 from 1 to h + 1, r = n + h - 1 + i, and the
index read is l + n - 1 with l = h - i, which the last iteration takes to -1
(41_transform_direct.md R100). -/
def extendRight (n h : Nat) (t : List F64) : List F64 :=
  (List.range (h + 1)).foldl
    (fun t j => t.set (n + h - 1 + (j + 1)) (elem t (h + n - 1 - (j + 1)))) t

/-- `SymExtend(x, n, h, mode)` (41_transform_direct.md R100): the scratch array of n + 2h + 1
entries. Every entry is written before it is read. -/
def symExtend (mode : ExtendMode) (x : List F64) (n h : Nat) : List F64 :=
  extendRight n h (extendLeft h (extendCopy mode x n h (List.replicate (n + 2 * h + 1) 0)))

/-- The sum over the taps d in increasing order, from +0.0, each product and each sum rounded
(41_transform_direct.md R102, R103). `k` numbers the output the sum is for. -/
def tapSum (epoch k size : Nat) (c t : Nat → F64) : F64 :=
  (List.range size).foldl
    (fun acc d =>
      f64Add (drawnNaN epoch (2 * (k * size + d) + 1)) acc
        (f64Mul (drawnNaN epoch (2 * (k * size + d))) (c d) (t d)))
    (f64Zero false)

/-- `DirectForward(x, n)` (41_transform_direct.md R102). -/
def directForward (epoch : Nat) (bank : FilterBank) (size : Nat) (x : List F64) (n : Nat) :
    List F64 :=
  let t := symExtend .plain x n (size / 2)
  (List.range (n / 2)).map
      (fun i => tapSum epoch i size (elem bank.lpf) (fun d => elem t (2 * i + d))) ++
    (List.range (n / 2)).map
      (fun i => tapSum epoch (n / 2 + i) size (elem bank.hpf) (fun d => elem t (2 * i + d + 1)))

/-- `DirectInverse(x, n)` (41_transform_direct.md R103): the array is chosen by the parity of the
scratch index (R104). -/
def directInverse (epoch : Nat) (bank : FilterBank) (size : Nat) (x : List F64) (n : Nat) :
    List F64 :=
  let t := symExtend .interleaved x n (size / 2)
  (List.range n).map fun i =>
    tapSum epoch i size
      (fun d => if (i + d) % 2 = 1 then elem bank.ihpf d else elem bank.ilpf d)
      (fun d => elem t (i + d))

/-- ALPHA, predict 1 (42_transform_lifting.md R110). -/
def liftAlpha : F64 := 0xBFF960CE67635B8D

/-- BETA, update 1 (42_transform_lifting.md R110). -/
def liftBeta : F64 := 0xBFAB2035C937D7FB

/-- GAMMA, predict 2 (42_transform_lifting.md R110). -/
def liftGamma : F64 := 0x3FEC40CEBA55CF3C

/-- DELTA, update 2 (42_transform_lifting.md R110). -/
def liftDelta : F64 := 0x3FDC626A90452B46

/-- ZETA, scale (42_transform_lifting.md R110). -/
def liftZeta : F64 := 0x3FF264C795071460

/-- The first of the three operation numbers of element `i` in stage `stage` of a lifting
command. -/
def liftSite (stage n i : Nat) : Nat := 3 * (stage * n + i)

/-- The updated value of element `i` in a lifting pass (42_transform_lifting.md R111), its missing
neighbour mirrored at either edge. -/
def liftUpdate (epoch stage n : Nat) (c : F64) (s : List F64) (i : Nat) : F64 :=
  let left := if 1 ≤ i then elem s (i - 1) else elem s (i + 1)
  let right := if i + 1 < n then elem s (i + 1) else elem s (i - 1)
  f64Add (drawnNaN epoch (liftSite stage n i + 2)) (elem s i)
    (f64Mul (drawnNaN epoch (liftSite stage n i + 1)) c
      (f64Add (drawnNaN epoch (liftSite stage n i)) left right))

/-- `LiftPass(s, n, p, c)` (42_transform_lifting.md R111), in place. -/
def liftPass (epoch stage n p : Nat) (c : F64) (s : List F64) : List F64 :=
  (List.range n).foldl
    (fun s i => if i % 2 = p then s.set i (liftUpdate epoch stage n c s i) else s) s

/-- The scale of LiftForward (42_transform_lifting.md R112), stage 4. -/
def liftScale (epoch n : Nat) (s : List F64) : List F64 :=
  (List.range n).map fun i =>
    if i % 2 = 0 then f64Mul (drawnNaN epoch (liftSite 4 n i)) (elem s i) liftZeta
    else f64Div (drawnNaN epoch (liftSite 4 n i)) (elem s i) liftZeta

/-- The unscale of LiftInverse (42_transform_lifting.md R113), stage 4. -/
def liftUnscale (epoch n : Nat) (s : List F64) : List F64 :=
  (List.range n).map fun i =>
    if i % 2 = 0 then f64Div (drawnNaN epoch (liftSite 4 n i)) (elem s i) liftZeta
    else f64Mul (drawnNaN epoch (liftSite 4 n i)) (elem s i) liftZeta

/-- The pack of LiftForward: even elements, then odd ones (42_transform_lifting.md R112). -/
def liftPack (n : Nat) (s : List F64) : List F64 :=
  (List.range (n / 2)).map (fun k => elem s (2 * k)) ++
    (List.range (n / 2)).map (fun k => elem s (2 * k + 1))

/-- The unpack of LiftInverse: the halves interleaved (42_transform_lifting.md R113). -/
def liftUnpack (n : Nat) (x : List F64) : List F64 :=
  (List.range n).map fun i => if i % 2 = 0 then elem x (i / 2) else elem x (n / 2 + i / 2)

/-- `LiftForward(x, n)` (42_transform_lifting.md R112). -/
def liftForward (epoch : Nat) (x : List F64) (n : Nat) : List F64 :=
  let s := liftPass epoch 0 n 1 liftAlpha x
  let s := liftPass epoch 1 n 0 liftBeta s
  let s := liftPass epoch 2 n 1 liftGamma s
  let s := liftPass epoch 3 n 0 liftDelta s
  liftPack n (liftScale epoch n s)

/-- `LiftInverse(x, n)` (42_transform_lifting.md R113). -/
def liftInverse (epoch : Nat) (x : List F64) (n : Nat) : List F64 :=
  let s := liftUnscale epoch n (liftUnpack n x)
  let s := liftPass epoch 0 n 0 (f64Neg liftDelta) s
  let s := liftPass epoch 1 n 1 (f64Neg liftGamma) s
  let s := liftPass epoch 2 n 0 (f64Neg liftBeta) s
  liftPass epoch 3 n 1 (f64Neg liftAlpha) s

/-- Forward or inverse (41_transform_direct.md R98, R99). -/
inductive Direction where
  | forward
  | inverse
  deriving DecidableEq, Repr

/-- The computation F of a transform (41_transform_direct.md R98, R99). -/
def transformValues (dir : Direction) (strat : Strategy) (epoch : Nat) (bank : FilterBank)
    (size : Nat) (x : List F64) (n : Nat) : List F64 :=
  match dir, strat with
  | .forward, .direct => directForward epoch bank size x n
  | .forward, .lifting => liftForward epoch x n
  | .inverse, .direct => directInverse epoch bank size x n
  | .inverse, .lifting => liftInverse epoch x n

end Sys2Proof.Machine
end

