-- ==== Sys2Proof/Machine/TransformCommands.lean ====
section
/-! DEFINITION. XF_FWD and XF_INV (41_transform_direct.md R95 to R99). -/

namespace Sys2Proof.Machine

/-- The precondition checks of both transforms, in their order (41_transform_direct.md R96). -/
def transformChecks (s : State) : Cmd Unit := do
  let base := operand0 s
  let n := operand1 s
  let stride := operand2 s
  check (s.fbInfo.valid = false) .noFb
  check (s.strat = .lifting ∧ liftCompatible s = false) .incompatible
  check (n % 2 ≠ 0) .oddLength
  check (n < s.fbInfo.size.toNat) .shortLength
  check (n > s.params.maxN) .tooLong
  check (stride = 0) .badArg
  check (base % 8 ≠ 0) .align
  check (transformEnd base n stride > s.params.memBytes) .range

/-- The n elements a transform reads (41_transform_direct.md R97). -/
def transformInput (s : State) : List F64 :=
  loadArray s.dmem (operand0 s) (8 * operand2 s) (operand1 s)

/-- The n elements a transform writes (41_transform_direct.md R97). -/
def transformOutput (dir : Direction) (s : State) : List F64 :=
  transformValues dir s.strat s.draws s.coef s.fbInfo.size.toNat (transformInput s) (operand1 s)

/-- Gather, compute, scatter (41_transform_direct.md R97). What is left in the scratch buffer is
unspecified (10_state.md R39): a new draw (log entry 9). -/
def applyTransform (dir : Direction) (s : State) : State :=
  { s with
    dmem := storeArray s.dmem (operand0 s) (8 * operand2 s) (transformOutput dir s),
    scratch := s.draws,
    draws := s.draws + 1 }

/-- A transform command: the checks, then gather, compute, scatter. -/
def transform (dir : Direction) (s : State) : Cmd State := do
  transformChecks s
  return applyTransform dir s

/-- XF_FWD (41_transform_direct.md R98). -/
def execXfFwd (s : State) : Host.Outcome State Fault Refusal := finish s (transform .forward s)

/-- XF_INV (41_transform_direct.md R99). -/
def execXfInv (s : State) : Host.Outcome State Fault Refusal := finish s (transform .inverse s)

end Sys2Proof.Machine
end

