-- ==== Sys2Proof/Machine/Varint.lean ====
section
/-! DEFINITION. The variable-length integer codec: its wire format (44_varint.md R140) and the
commands VENC and VDEC (R142, R143). -/

namespace Sys2Proof.Machine

/-- `bitlen(v)` (44_varint.md R140). -/
def bitLen (v : Nat) : Nat := if v = 0 then 0 else Nat.log2 v + 1

/-- The number m of units of v (44_varint.md R140). -/
def unitCount (v : Nat) : Nat := max 1 ((bitLen v + 6) / 7)

/-- Value group k, the least significant first (44_varint.md R140). -/
def unitGroup (v k : Nat) : Nat := (v >>> (7 * k)) &&& 0x7F

/-- Unit k of v: the continuation flag, clear on the last unit, above the group
(44_varint.md R140). -/
def varintUnit (v k : Nat) : Nat :=
  ((if k + 1 < unitCount v then 1 else 0) <<< 7) ||| unitGroup v k

/-- The eight bits of a unit, bit 7 first (44_varint.md R140, R142). -/
def unitBits (u : Nat) : List Bool := [7, 6, 5, 4, 3, 2, 1, 0].map u.testBit

/-- The bits of v on the stream, unit 0 first (44_varint.md R140). -/
def encodeBits (v : Nat) : List Bool :=
  (List.range (unitCount v)).flatMap fun k => unitBits (varintUnit v k)

/-- PutBitPrim on each bit in order (44_varint.md R142). -/
def putBits (p : Params) : Memory → Cursor → List Bool → Cmd (Memory × Cursor)
  | m, c, [] => .ok (m, c)
  | m, c, b :: bs => do
    let (m, c) ← putBitPrim p m c b
    putBits p m c bs

/-- VENC's check, then the units' bits (44_varint.md R142). -/
def encodeValue (s : State) : Cmd State := do
  let v := operand0 s
  check (bitsLeft s.ws < 8 * unitCount v) .writeOverflow
  let (m, c) ← putBits s.params s.dmem s.ws (encodeBits v)
  return { s with dmem := m, ws := c }

/-- VENC (44_varint.md R142). -/
def execVenc (s : State) : Host.Outcome State Fault Refusal := finish s (encodeValue s)

/-- `count` bits read on a copy of the cursor, shifted into `u` from the right
(44_varint.md R143). -/
def readBits (p : Params) (m : Memory) : Nat → Nat → Cursor → Cmd (Nat × Cursor)
  | 0, u, c => .ok (u, c)
  | count + 1, u, c => do
    let (b, c) ← readBitPrim p m c
    readBits p m count (2 * u + b.toNat) c

/-- One unit read on a copy of the cursor: exhausted when fewer than 8 bits are left
(44_varint.md R143). -/
def readUnit (p : Params) (m : Memory) (c : Cursor) : Cmd (Nat × Cursor) := do
  check (bitsLeft c < 8) .streamExhausted
  readBits p m 8 0 c

/-- The loop of VDEC from unit k on, with the value v of the units before it
(44_varint.md R143). `fuel` counts the units left of 10; at k = 9 the loop ends or raises
VARINT_OVERFLOW, so with fuel 10 - k it never runs out. -/
def decodeUnits (p : Params) (m : Memory) : (fuel k v : Nat) → Cursor → Cmd (Nat × Cursor)
  | 0, _, _, _ => .error (.error .varintOverflow)
  | fuel + 1, k, v, c => do
    let (u, c) ← readUnit p m c
    let g := u &&& 0x7F
    let cont := u >>> 7
    check (k = 9 ∧ (g > 1 ∨ cont = 1)) .varintOverflow
    let v := v ||| (g <<< (7 * k))
    if cont = 0 then .ok (v, c) else decodeUnits p m fuel (k + 1) v c

/-- VDEC works on a copy of the reader cursor and commits it on success (44_varint.md R143). -/
def decodeValue (s : State) : Cmd State := do
  let (v, c) ← decodeUnits s.params s.dmem 10 0 0 s.bs
  return { s with bs := c, result := BitVec.ofNat 64 v }

/-- VDEC (44_varint.md R143). -/
def execVdec (s : State) : Host.Outcome State Fault Refusal := finish s (decodeValue s)

end Sys2Proof.Machine
end

