-- ==== Sys2Proof/Machine/Dispatch.lean ====
section
/-! DEFINITION. The engine's step on a decoded command (60_exceptions.md R160): one arm per
constructor of Instr. -/

namespace Sys2Proof.Machine

def exec (i : Instr) (s : State) : Host.Outcome State Fault Refusal :=
  match i with
  | .nop => Sys2Proof.Machine.execNop s
  | .fbLoad => Sys2Proof.Machine.execFbLoad s
  | .xfSelect => Sys2Proof.Machine.execXfSelect s
  | .xfFwd => Sys2Proof.Machine.execXfFwd s
  | .xfInv => Sys2Proof.Machine.execXfInv s
  | .bsInit => Sys2Proof.Machine.execBsInit s
  | .bsReadbit => Sys2Proof.Machine.execBsReadbit s
  | .bsGood => Sys2Proof.Machine.execBsGood s
  | .bsInbytes => Sys2Proof.Machine.execBsInbytes s
  | .bsNextbyte => Sys2Proof.Machine.execBsNextbyte s
  | .wsInit => Sys2Proof.Machine.execWsInit s
  | .wsPutbit => Sys2Proof.Machine.execWsPutbit s
  | .wsAlign => Sys2Proof.Machine.execWsAlign s
  | .venc => Sys2Proof.Machine.execVenc s
  | .vdec => Sys2Proof.Machine.execVdec s

end Sys2Proof.Machine
end

