-- ==== Sys2Proof/Machine/Engine.lean ====
section
/-! DEFINITION. The engine agent (60_exceptions.md R160), and the command word placed for its next
step (R159). -/

namespace Sys2Proof.Machine

/-- The engine's step (60_exceptions.md R160): decode the latched word, and run it or raise
ILLEGAL_CMD (30_encoding.md R74). While BUSY = 0 the engine is idle, not stuck: nothing changes. -/
def engineStep (s : State) : Host.Outcome State Fault Refusal :=
  if s.status.busy then
    match decode s.cmdLatch with
    | .ok i => exec i s
    | .error _ => .next (raiseError .illegalCmd s)
  else .next s

/-- The command word `w` issued (60_exceptions.md R159), and the engine next to move
(log entry 2). -/
def placeCommand (w : Word) (s : State) : State := { issue w s with turns := [] }

end Sys2Proof.Machine
end

