-- ==== Sys2Proof/Machine/RegisterMap.lean ====
section
/-! DEFINITION. The register block as the host sees it (10_state.md R22 to R44): offsets, names,
values and writes. -/

namespace Sys2Proof.Machine

/-- The offset of a register (10_state.md R24). -/
def regOffset : Reg → Nat
  | .id => 0x000
  | .param0 => 0x008
  | .param1 => 0x010
  | .param2 => 0x018
  | .ctrl => 0x020
  | .cmd => 0x028
  | .status => 0x030
  | .arg0 => 0x040
  | .arg1 => 0x048
  | .arg2 => 0x050
  | .result => 0x058
  | .strat => 0x060
  | .fbInfo => 0x068
  | .bsBase => 0x080
  | .bsPos => 0x088
  | .bsEnd => 0x090
  | .bsMask => 0x098
  | .bsTotal => 0x0A0
  | .wsBase => 0x0C0
  | .wsPos => 0x0C8
  | .wsEnd => 0x0D0
  | .wsMask => 0x0D8
  | .wsTotal => 0x0E0

/-- The register at an offset; the others are reserved (10_state.md R24, R44). -/
def regAt (off : Nat) : Option Reg :=
  match off with
  | 0x000 => some .id
  | 0x008 => some .param0
  | 0x010 => some .param1
  | 0x018 => some .param2
  | 0x020 => some .ctrl
  | 0x028 => some .cmd
  | 0x030 => some .status
  | 0x040 => some .arg0
  | 0x048 => some .arg1
  | 0x050 => some .arg2
  | 0x058 => some .result
  | 0x060 => some .strat
  | 0x068 => some .fbInfo
  | 0x080 => some .bsBase
  | 0x088 => some .bsPos
  | 0x090 => some .bsEnd
  | 0x098 => some .bsMask
  | 0x0A0 => some .bsTotal
  | 0x0C0 => some .wsBase
  | 0x0C8 => some .wsPos
  | 0x0D0 => some .wsEnd
  | 0x0D8 => some .wsMask
  | 0x0E0 => some .wsTotal
  | _ => none

/-- The constant ID reads (10_state.md R22). -/
def idWord : Word := 0x00000001494D414E

/-- The value a register holds for the host (10_state.md R22 to R36). CMD reads 0 (R26); PARAM2 is
MEM_BYTES mod 2^64 (R23). -/
def regValue (s : State) : Reg → Word
  | .id => idWord
  | .param0 => BitVec.ofNat 64 s.params.maxTaps
  | .param1 => BitVec.ofNat 64 s.params.maxN
  | .param2 => BitVec.ofNat 64 s.params.memBytes
  | .ctrl => ctrlWord s.irqEn
  | .cmd => 0
  | .status => statusWord s.status
  | .arg0 => s.arg0
  | .arg1 => s.arg1
  | .arg2 => s.arg2
  | .result => s.result
  | .strat => stratWord s.strat
  | .fbInfo => fbInfoWord s.fbInfo
  | .bsBase => s.bs.base
  | .bsPos => s.bs.pos
  | .bsEnd => s.bs.limit
  | .bsMask => maskWord s.bs.mask
  | .bsTotal => s.bs.total
  | .wsBase => s.ws.base
  | .wsPos => s.ws.pos
  | .wsEnd => s.ws.limit
  | .wsMask => maskWord s.ws.mask
  | .wsTotal => s.ws.total

/-- The registers whose read while BUSY = 1 is a draw (10_state.md R42 (b)). -/
def engineWritten : Reg → Bool
  | .id | .param0 | .param1 | .param2 | .ctrl | .cmd | .status | .arg0 | .arg1 | .arg2 => false
  | .result | .strat | .fbInfo => true
  | .bsBase | .bsPos | .bsEnd | .bsMask | .bsTotal => true
  | .wsBase | .wsPos | .wsEnd | .wsMask | .wsTotal => true

/-- A host write of `w` to CMD: issue, or overrun while busy (10_state.md R26). -/
def writeCmd (w : Word) (s : State) : State := if s.status.busy then overrun s else issue w s

/-- A host write of `w` to a register (10_state.md R24 to R29, R43): a read-only register ignores
it. -/
def writeReg (r : Reg) (w : Word) (s : State) : State :=
  match r with
  | .ctrl => { s with irqEn := w.getLsbD 0 }
  | .cmd => writeCmd w s
  | .status => writeStatus w s
  | .arg0 => { s with arg0 := w }
  | .arg1 => { s with arg1 := w }
  | .arg2 => { s with arg2 := w }
  | .id | .param0 | .param1 | .param2 | .result | .strat | .fbInfo => s
  | .bsBase | .bsPos | .bsEnd | .bsMask | .bsTotal => s
  | .wsBase | .wsPos | .wsEnd | .wsMask | .wsTotal => s

end Sys2Proof.Machine
end

