-- ==== Sys2Proof/Machine/HostPort.lean ====
section
/-! DEFINITION. The host agent (00_scope.md R8): its accesses to the register block (10_state.md
R24, R42 to R44) and to DMEM (20_memory.md R50, R62), and its own control flow
(30_encoding.md R77, R78). -/

namespace Sys2Proof.Machine

/-- What a host access of `width` bits at host address `addr` reaches: a register, or a reserved
offset (`none`), or nothing of NAMI-CORE's (10_state.md R24, R44; log entry 14). -/
def hostTarget (p : Params) (addr width : Nat) : Except Refusal (Option Reg) :=
  if addr < p.regBase ∨ p.regBase + 4096 ≤ addr then .error .outsideRegisterBlock
  else if width ≠ 64 ∨ (addr - p.regBase) % 8 ≠ 0 then .error .malformedRegisterAccess
  else .ok (regAt (addr - p.regBase))

/-- The value of a register after the pending command's completion (10_state.md R42 (b)). -/
def regValueAfter (s : State) (r : Reg) : Word :=
  match engineStep s with
  | .next t => regValue t r
  | .fault _ => regValue s r
  | .refused _ => regValue s r

/-- Whether the host's read of a register is a draw (10_state.md R42). -/
def readIsDraw (s : State) (r : Reg) : Bool := s.status.busy && engineWritten r

/-- The value a host read of a register returns (10_state.md R42, log entry 10). -/
def readReg (s : State) (r : Reg) : Word :=
  if readIsDraw s r && Config.busyReadSeesNew s.draws then regValueAfter s r else regValue s r

/-- The value a host read returns; a reserved offset reads 0 (10_state.md R44). -/
def readTarget (s : State) : Option Reg → Word
  | some r => readReg s r
  | none => 0

/-- A read has no side effect (10_state.md R43); a draw taken is counted. -/
def countDraw (s : State) : Option Reg → State
  | some r => if readIsDraw s r then { s with draws := s.draws + 1 } else s
  | none => s

/-- A host write; a reserved offset ignores it (10_state.md R44). -/
def writeTarget (w : Word) (s : State) : Option Reg → State
  | some r => writeReg r w s
  | none => s

/-- The host agent at position `pc` of its program. -/
def hostAt (pc : Nat) (s : State) : State := { s with host := { s.host with pc := pc } }

/-- The host agent on to its next action. -/
def hostNext (s : State) : State := hostAt (s.host.pc + 1) s

/-- What a host branch tests (30_encoding.md R77). -/
def branchTaken : BranchTest → Word → Bool
  | .zero, v => v == 0
  | .notZero, v => v != 0
  | .bitSet b, v => v.getLsbD b
  | .bitClear b, v => !v.getLsbD b

/-- A host register read: the value is the host's, and `k` says where the host goes on. -/
def hostRead (addr width : Nat) (k : Word → State → State) (s : State) :
    Host.Outcome State Fault Refusal :=
  match hostTarget s.params addr width with
  | .error r => .refused r
  | .ok t =>
    let v := readTarget s t
    let s := countDraw s t
    .next (k v { s with host := { s.host with rdata := v } })

/-- One action of the host agent, one atomic step (20_memory.md R57, log entry 15). -/
def hostAct (op : HostOp) (s : State) : Host.Outcome State Fault Refusal :=
  match op with
  | .regRead addr width => hostRead addr width (fun _ s => hostNext s) s
  | .regWrite addr width w =>
    match hostTarget s.params addr width with
    | .error r => .refused r
    | .ok t => .next (hostNext (writeTarget w s t))
  | .memWrite addr bytes =>
    if addr + bytes.length > s.params.memBytes then .refused .hostDmemOutOfRange
    else .next (hostNext { s with dmem := memWriteBytes s.dmem addr bytes })
  | .memRead addr len =>
    if addr + len > s.params.memBytes then .refused .hostDmemOutOfRange
    else .next (hostNext
      { s with host := { s.host with rbytes := memReadBytes s.dmem addr len } })
  | .branch test addr target =>
    hostRead addr 64
      (fun v s => if branchTaken test v then hostAt target s else hostNext s) s
  | .jmp target => .next (hostAt target s)
  | .halt => .next s

/-- The host agent's step. At the end of its program it has halted and nothing changes. -/
def hostStep (s : State) : Host.Outcome State Fault Refusal :=
  match s.host.prog[s.host.pc]? with
  | some op => hostAct op s
  | none => .next s

/-- One step of the machine: the agent whose turn it is, or the reset input. With no turn given,
the engine completes a pending command, else the host moves (log entry 1). -/
def takeTurn (s : State) : Host.Outcome State Fault Refusal :=
  match s.turns with
  | [] => if s.status.busy then engineStep s else hostStep s
  | .engine :: ts => engineStep { s with turns := ts }
  | .host :: ts => hostStep { s with turns := ts }
  | .rst :: ts => .next (applyReset { s with turns := ts })

end Sys2Proof.Machine
end

