-- ==== Sys2Proof/Machine/Step.lean ====
section
/-! DEFINITION. The machine's step, and a command word placed where it runs next. -/

namespace Sys2Proof.Machine

/-- One step: the agent whose turn it is (00_scope.md R8, 60_exceptions.md R160). -/
def step (s : State) : Host.Outcome State Fault Refusal := takeTurn s

/-- The command word `w` issued by the host, so that the next step is the engine's on it. NAMI-CORE
fetches nothing (10_state.md R21): a command comes from a CMD write (log entry 2). -/
def State.withFetchWord (s : State) (nbits w : Nat) : State := placeCommand (tableWord nbits w) s

end Sys2Proof.Machine
end

