-- ==== Sys2Proof/Machine/HostAsm.lean ====
section
/-! DEFINITION. The host-side assembler: every statement of 30_encoding.md R77 expanded into host
actions as R78 says, labels resolved to positions; and the statements' text. -/

namespace Sys2Proof.Machine

/-- Why the assembler refuses a program (30_encoding.md R77). -/
inductive AsmError where
  /-- A wrong operand count, an immediate over 64 bits, a bit over 63, a bad label, no bytes. -/
  | illFormed (st : Stmt)
  /-- A branch to a label that no statement defines. -/
  | undefinedLabel (name : String)
  /-- A line that is no statement. -/
  | badLine (line : String)
  deriving DecidableEq, Repr

/-- The host address of a register (10_state.md R24). -/
def regAddr (p : Params) (r : Reg) : Nat := p.regBase + regOffset r

/-- `WR REG, imm` (30_encoding.md R77). -/
def wrOp (p : Params) (r : Reg) (imm : Nat) : HostOp :=
  .regWrite (regAddr p r) 64 (BitVec.ofNat 64 imm)

/-- The writes of the operands into ARG0, ARG1 and ARG2 in order (30_encoding.md R77, R78). -/
def operandWrites (p : Params) : List Nat → List HostOp
  | [] => []
  | [a] => [wrOp p .arg0 a]
  | [a, b] => [wrOp p .arg0 a, wrOp p .arg1 b]
  | a :: b :: c :: _ => [wrOp p .arg0 a, wrOp p .arg1 b, wrOp p .arg2 c]

/-- `WAIT` at position `pos`: read STATUS until bit 1 (DONE) reads 1 (30_encoding.md R78). -/
def waitOp (p : Params) (pos : Nat) : HostOp := .branch (.bitClear 1) (regAddr p .status) pos

/-- A command statement at position `pos`: the operands, the command word, WAIT
(30_encoding.md R78). -/
def commandOps (p : Params) (pos : Nat) (i : Instr) (operands : List Nat) : List HostOp :=
  let ws := operandWrites p operands
  ws ++ [.regWrite (regAddr p .cmd) 64 (encode i), waitOp p (pos + ws.length + 1)]

/-- How many host actions a statement expands to. -/
def stmtSize : Stmt → Nat
  | .label _ => 0
  | .cmd _ operands => operands.length + 2
  | .xfFwd1 _ _ => 5
  | .xfInv1 _ _ => 5
  | .wr _ _ | .rd _ | .wait | .clr | .memw _ _ | .memw64 _ _ => 1
  | .branch _ _ _ | .jmp _ | .halt => 1

/-- The position of a label in a program whose first statement is at `pos`. -/
def labelPos (name : String) : Nat → List Stmt → Option Nat
  | _, [] => none
  | pos, .label l :: rest => if l = name then some pos else labelPos name pos rest
  | pos, st :: rest => labelPos name (pos + stmtSize st) rest

/-- The position a branch goes to. -/
def resolve (prog : List Stmt) (name : String) : Except AsmError Nat :=
  match labelPos name 0 prog with
  | some pos => .ok pos
  | none => .error (.undefinedLabel name)

/-- The expansion of a well-formed statement at position `pos` (30_encoding.md R78). -/
def expandStmt (p : Params) (prog : List Stmt) (pos : Nat) :
    Stmt → Except AsmError (List HostOp)
  | .label _ => .ok []
  | .cmd i operands => .ok (commandOps p pos i operands)
  | .xfFwd1 base n => .ok (commandOps p pos .xfFwd [base, n, 1])
  | .xfInv1 base n => .ok (commandOps p pos .xfInv [base, n, 1])
  | .wr r imm => .ok [wrOp p r imm]
  | .rd r => .ok [.regRead (regAddr p r) 64]
  | .wait => .ok [waitOp p pos]
  | .clr => .ok [wrOp p .status 0xE]
  | .memw addr bytes => .ok [.memWrite addr bytes]
  | .memw64 addr imm => .ok [.memWrite addr (wordBytes (BitVec.ofNat 64 imm))]
  | .branch test r target => do
    let t ← resolve prog target
    return [.branch test (regAddr p r) t]
  | .jmp target => do
    let t ← resolve prog target
    return [.jmp t]
  | .halt => .ok [.halt]

/-- The rest of a program, its first statement at position `pos`. -/
def assembleFrom (p : Params) (prog : List Stmt) : Nat → List Stmt → Except AsmError (List HostOp)
  | _, [] => .ok []
  | pos, st :: rest => do
    if st.wellFormed then
      let ops ← expandStmt p prog pos st
      let more ← assembleFrom p prog (pos + ops.length) rest
      return ops ++ more
    else .error (.illFormed st)

/-- The assembler of 30_encoding.md R77: the host actions of a program, or why it is refused. -/
def assemble (p : Params) (prog : List Stmt) : Except AsmError (List HostOp) :=
  assembleFrom p prog 0 prog

/-- The mnemonic of a command (30_encoding.md R73). -/
def mnemonic : Instr → String
  | .nop => "NOP"
  | .fbLoad => "FB_LOAD"
  | .xfSelect => "XF_SELECT"
  | .xfFwd => "XF_FWD"
  | .xfInv => "XF_INV"
  | .bsInit => "BS_INIT"
  | .bsReadbit => "BS_READBIT"
  | .bsGood => "BS_GOOD"
  | .bsInbytes => "BS_INBYTES"
  | .bsNextbyte => "BS_NEXTBYTE"
  | .wsInit => "WS_INIT"
  | .wsPutbit => "WS_PUTBIT"
  | .wsAlign => "WS_ALIGN"
  | .venc => "VENC"
  | .vdec => "VDEC"

/-- The name of a register (10_state.md R24). -/
def regName : Reg → String
  | .id => "ID"
  | .param0 => "PARAM0"
  | .param1 => "PARAM1"
  | .param2 => "PARAM2"
  | .ctrl => "CTRL"
  | .cmd => "CMD"
  | .status => "STATUS"
  | .arg0 => "ARG0"
  | .arg1 => "ARG1"
  | .arg2 => "ARG2"
  | .result => "RESULT"
  | .strat => "STRAT"
  | .fbInfo => "FB_INFO"
  | .bsBase => "BS_BASE"
  | .bsPos => "BS_POS"
  | .bsEnd => "BS_END"
  | .bsMask => "BS_MASK"
  | .bsTotal => "BS_TOTAL"
  | .wsBase => "WS_BASE"
  | .wsPos => "WS_POS"
  | .wsEnd => "WS_END"
  | .wsMask => "WS_MASK"
  | .wsTotal => "WS_TOTAL"

/-- A byte as two hexadecimal digits (30_encoding.md R77). -/
def hexByte (b : Byte) : String :=
  String.ofList [Nat.digitChar (b.toNat / 16), Nat.digitChar (b.toNat % 16)]

/-- A mnemonic and its operands, separated by commas (30_encoding.md R77). -/
def renderOperands (head : String) (operands : List String) : String :=
  match operands with
  | [] => head
  | _ => head ++ " " ++ String.intercalate ", " operands

/-- A branch statement's text (30_encoding.md R77). -/
def renderBranch (r : Reg) (target : String) : BranchTest → String
  | .zero => renderOperands "BRZ" [regName r, target]
  | .notZero => renderOperands "BRNZ" [regName r, target]
  | .bitSet b => renderOperands "BRBS" [regName r, Nat.repr b, target]
  | .bitClear b => renderOperands "BRBC" [regName r, Nat.repr b, target]

/-- A statement in the concrete syntax of 30_encoding.md R77, its immediates in decimal. -/
def renderStmt : Stmt → String
  | .label name => name ++ ":"
  | .cmd i operands => renderOperands (mnemonic i) (operands.map Nat.repr)
  | .xfFwd1 base n => renderOperands "XF_FWD1" [Nat.repr base, Nat.repr n]
  | .xfInv1 base n => renderOperands "XF_INV1" [Nat.repr base, Nat.repr n]
  | .wr r imm => renderOperands "WR" [regName r, Nat.repr imm]
  | .rd r => renderOperands "RD" [regName r]
  | .wait => "WAIT"
  | .clr => "CLR"
  | .memw addr bytes =>
    renderOperands "MEMW" [Nat.repr addr, String.intercalate " " (bytes.map hexByte)]
  | .memw64 addr imm => renderOperands "MEMW64" [Nat.repr addr, Nat.repr imm]
  | .branch test r target => renderBranch r target test
  | .jmp target => renderOperands "JMP" [target]
  | .halt => "HALT"

end Sys2Proof.Machine
end

