-- ==== Sys2Proof/Safety.lean ====
section
/-! DEFINITION. What a sound state is, in the terms the claims use: the invariants of 10_state.md
R35 for both cursors, the bank's (10_state.md R32), STATUS's (10_state.md R27), DMEM's canonical
form; the stream position of a cursor and the bits of DMEM in stream order (20_memory.md R53); the
mirror of 41_transform_direct.md R101; and the cross-strategy property of
42_transform_lifting.md R114. -/

namespace Sys2Proof.Machine

/-- The cursor invariants (a), (b) and (c) of 10_state.md R35. -/
structure CursorOk (p : Params) (c : Cursor) : Prop where
  base_le_pos : c.base.toNat ≤ c.pos.toNat
  pos_le_limit : c.pos.toNat ≤ c.limit.toNat
  limit_le_mem : c.limit.toNat ≤ p.memBytes
  mask_power : c.mask ∈ [1, 2, 4, 8, 16, 32, 64, 128]
  mask_at_limit : c.pos = c.limit → c.mask = 128

/-- What FB_INFO and COEF always satisfy (10_state.md R32, R33): each array has MAX_TAPS entries; a
loaded bank has an even size from 2 to MAX_TAPS and family 0 or 1; FB_INFO reads 0 before the
first load. -/
structure BankOk (s : State) : Prop where
  lpf_length : s.coef.lpf.length = s.params.maxTaps
  hpf_length : s.coef.hpf.length = s.params.maxTaps
  ilpf_length : s.coef.ilpf.length = s.params.maxTaps
  ihpf_length : s.coef.ihpf.length = s.params.maxTaps
  size_loaded : s.fbInfo.valid = true →
    s.fbInfo.size.toNat % 2 = 0 ∧ 2 ≤ s.fbInfo.size.toNat ∧
      s.fbInfo.size.toNat ≤ s.params.maxTaps ∧ (s.fbInfo.family = 0 ∨ s.fbInfo.family = 1)
  unloaded : s.fbInfo.valid = false → s.fbInfo.size = 0 ∧ s.fbInfo.family = 0

/-- What STATUS always satisfies (10_state.md R27, 60_exceptions.md R150, R153, R159): ERRCODE is
a listed code, not 0 exactly when ERR = 1; while a command is pending DONE and ERR are 0 and
LAST_OPC is the latched word's OPC. -/
structure StatusOk (s : State) : Prop where
  code_listed : s.status.errcode.toNat ≤ 0x0D
  err_iff_code : s.status.err = true ↔ s.status.errcode ≠ 0
  busy_not_done : s.status.busy = true → s.status.done = false
  busy_not_err : s.status.busy = true → s.status.err = false
  busy_opcode : s.status.busy = true → s.status.lastOpc = opcOf s.cmdLatch

/-- A sound state, for all parameters of 00_scope.md R7. -/
structure Sound (s : State) : Prop where
  params : s.params.wf
  memory : Memory.wf s.dmem
  inside : Memory.within s.dmem s.params.memBytes
  reader : CursorOk s.params s.bs
  writer : CursorOk s.params s.ws
  bank : BankOk s
  status : StatusOk s

/-- A run of `k` steps that meets no fault: a refused host access is the host's affair
(10_state.md R44). -/
def safeRun (k : Nat) (s : State) : Prop :=
  ∀ f : Fault, Host.Core.run Sys2Proof.core k s ≠ Host.Outcome.fault f

/-- The stream position of a cursor: the number of stream bits below its next bit, the bits of a
byte taken most significant first (20_memory.md R53). -/
def bitPos (c : Cursor) : Nat := 8 * c.pos.toNat + (7 - log2m c.mask)

/-- Bit `q` of DMEM in stream order (20_memory.md R53). -/
def streamBit (m : Memory) (q : Nat) : Bool := (memRead m (q / 8)).getLsbD (7 - q % 8)

/-- `count` bits of DMEM in stream order from `q` on. -/
def streamBits (m : Memory) (q count : Nat) : List Bool :=
  (List.range count).map fun j => streamBit m (q + j)

/-- The cursor `count` bits further on (43_bitstream.md R126 (b)). -/
def cursorForward (c : Cursor) (count : Nat) : Cursor :=
  { c with
    pos := BitVec.ofNat 64 ((bitPos c + count) / 8)
    mask := (128 : BitVec 8) >>> ((bitPos c + count) % 8)
    total := c.total + BitVec.ofNat 64 count }

/-- One reflection of `fold(k)` (41_transform_direct.md R101): at 0 or at n - 1, or none when k is
already an index of the signal. -/
def foldStep (n : Nat) (k : Int) : Int :=
  if k < 0 then -k else if k > (n : Int) - 1 then 2 * ((n : Int) - 1) - k else k

/-- `fold(k)` of 41_transform_direct.md R101 in closed form: the distance from k to the nearest
multiple of 2(n-1). -/
def mirrorIndex (n : Nat) (k : Int) : Nat :=
  let m := k.natAbs % (2 * (n - 1))
  if m ≤ n - 1 then m else 2 * (n - 1) - m

/-- The interleaved sequence v of 41_transform_direct.md R101, or the plain one. -/
def extendSource (mode : ExtendMode) (x : List F64) (n k : Nat) : F64 :=
  match mode with
  | .plain => elem x k
  | .interleaved => if k % 2 = 0 then elem x (k / 2) else elem x (n / 2 + k / 2)

/-- The same command executed `k` times, each time on the state before it. -/
def execTimes (i : Instr) : Nat → State → Host.Outcome State Fault Refusal
  | 0, s => .next s
  | k + 1, s =>
    match exec i s with
    | .next t => execTimes i k t
    | .fault f => .fault f
    | .refused r => .refused r

/-- A step's answer with its next state changed. -/
def mapNext (f : State → State) :
    Host.Outcome State Fault Refusal → Host.Outcome State Fault Refusal
  | .next t => .next (f t)
  | .fault r => .fault r
  | .refused r => .refused r

/-- STATUS at a successful completion (60_exceptions.md R160). -/
def statusDone (t : Status) : Status := { t with busy := false, done := true }

/-- STATUS at the completion of a command that raised the error with this code
(60_exceptions.md R153). -/
def statusError (t : Status) (code : BitVec 8) : Status :=
  { t with busy := false, done := true, err := true, errcode := code }

/-- The code of the first check that fails, in a rule's order (60_exceptions.md R152): each entry is
a failure's condition and the code it raises. -/
def firstFailure : List (Bool × BitVec 8) → Option (BitVec 8)
  | [] => none
  | (bad, code) :: rest => if bad then some code else firstFailure rest

/-- The check table of FB_LOAD (40_filter_bank.md R87): the header's five sizes and its family are
the words at offsets 0 to 40. -/
def bankFailures (s : State) : List (Bool × BitVec 8) :=
  let a := s.argLatch0.toNat
  let word := fun k : Nat => (memRead64 s.dmem (a + 8 * k)).toNat
  let size := word 0
  [(decide (a % 8 ≠ 0), 0x03),
    (decide (s.params.memBytes < a + 48), 0x04),
    (decide (size = 0), 0x05),
    (decide (size % 2 ≠ 0), 0x05),
    (decide (s.params.maxTaps < size), 0x05),
    (decide (word 1 ≠ size), 0x05),
    (decide (word 2 ≠ size), 0x05),
    (decide (word 3 ≠ size), 0x05),
    (decide (word 4 ≠ size), 0x05),
    (decide (word 5 ≠ 0 ∧ word 5 ≠ 1), 0x05),
    (decide (s.params.memBytes < a + 48 + 32 * size), 0x04)]

/-- The check table of XF_SELECT (40_filter_bank.md R89). -/
def selectFailures (s : State) : List (Bool × BitVec 8) :=
  let sel := s.argLatch0.toNat
  [(decide (1 < sel), 0x02),
    (decide (sel = 1) && !s.fbInfo.valid, 0x06),
    (decide (sel = 1) && decide (s.fbInfo.family ≠ 1), 0x07)]

/-- The check table of XF_FWD and XF_INV (41_transform_direct.md R96), in unbounded arithmetic. -/
def transformFailures (s : State) : List (Bool × BitVec 8) :=
  let base := s.argLatch0.toNat
  let n := s.argLatch1.toNat
  let stride := s.argLatch2.toNat
  [(!s.fbInfo.valid, 0x06),
    (decide (s.strat = .lifting ∧ s.fbInfo.family ≠ 1), 0x07),
    (decide (n % 2 ≠ 0), 0x08),
    (decide (n < s.fbInfo.size.toNat), 0x09),
    (decide (s.params.maxN < n), 0x0A),
    (decide (stride = 0), 0x02),
    (decide (base % 8 ≠ 0), 0x03),
    (decide ((s.params.memBytes : Int) < base + 8 * stride * ((n : Int) - 1) + 8), 0x04)]

/-- The bits of stream units, bit 7 of each first (44_varint.md R140). -/
def unitStream (us : List Byte) : List Bool :=
  us.flatMap fun u => [7, 6, 5, 4, 3, 2, 1, 0].map u.getLsbD

/-- The value of stream units, the least significant group first (44_varint.md R140). -/
def unitsValue : List Byte → Nat
  | [] => 0
  | u :: us => u.toNat % 128 + 128 * unitsValue us

/-- Units that end with the first clear continuation flag (44_varint.md R140). -/
def terminated : List Byte → Bool
  | [] => false
  | [u] => !u.getLsbD 7
  | u :: us => u.getLsbD 7 && terminated us

/-- Units whose continuation flag is set, every one. -/
def continuing (us : List Byte) : Bool := us.all fun u => u.getLsbD 7

/-- The signed value of a finite binary64 encoding, in units of 2^-1074. -/
def f64Value (x : F64) : Int := signedMag (f64Sign x) (f64Mag x)

/-- A binary64 encoding is finite. -/
def f64Finite (x : F64) : Bool := decide (f64Exp x ≠ 2047)

/-- The halfway point above the largest finite binary64 value, in units of 2^-1074. -/
def f64Overflow : Nat := (2 ^ 54 - 1) * 2 ^ 2044

/-- `r` is `num / den` units of 2^-1074 rounded once under roundTiesToEven (00_scope.md R12), with
the sign `neg`: infinite from the halfway point on; else a finite value as near as any, and its last
bit is 0 where another value is as near. -/
def correctlyRounded (num den : Int) (neg : Bool) (r : F64) : Prop :=
  (r = f64Inf neg ↔ den.natAbs * f64Overflow ≤ num.natAbs) ∧
  (num.natAbs < den.natAbs * f64Overflow →
    f64Finite r = true ∧ f64Sign r = neg ∧
    ∀ y : F64, f64Finite y = true →
      (num - den * f64Value r).natAbs ≤ (num - den * f64Value y).natAbs ∧
      (f64Value y ≠ f64Value r →
        (num - den * f64Value r).natAbs = (num - den * f64Value y).natAbs →
        r.getLsbD 0 = false))

/-- The largest magnitude among finite values, in units of 2^-1074. -/
def peakMag (xs : List F64) : Nat := (xs.map f64Mag).foldl max 0

/-- "Numerically equivalent bands" (42_transform_lifting.md R114): two outputs of one length, every
value finite, that differ nowhere by as much as 1/den of the largest magnitude of the second. -/
def bandsAgree (den : Nat) (xs ys : List F64) : Bool :=
  decide (xs.length = ys.length) && xs.all f64Finite && ys.all f64Finite &&
    (xs.zip ys).all fun v => decide (den * (f64Value v.1 - f64Value v.2).natAbs < peakMag ys)

/-- The cross-strategy property of 42_transform_lifting.md R114 on one input: Direct with the bank
and Lifting, each forward and inverse, agree within 1/den. No rule of the engine uses it. -/
def strategiesAgree (den : Nat) (bank : FilterBank) (size : Nat) (x : List F64) (n : Nat) : Bool :=
  bandsAgree den (transformValues .forward .direct 0 bank size x n)
      (transformValues .forward .lifting 0 bank size x n) &&
    bandsAgree den (transformValues .inverse .direct 0 bank size x n)
      (transformValues .inverse .lifting 0 bank size x n)

/-- The 10-tap bank that the spec derives from its lifting rules (95_test_vectors.md section 4.2),
for which 42_transform_lifting.md R114 states the agreement. -/
def cdf97Bank : FilterBank :=
  { lpf := [0x0000000000000000, 0x3FA35E4056857F1D, 0xBF986BFE81242E28, 0xBFBC51E1871DDA5A,
      0x3FD8275E4E917EC0, 0x3FEB494EBD760247, 0x3FD8275E4E917EC0, 0xBFBC51E1871DDA5A,
      0xBF986BFE81242E28, 0x3FA35E4056857F1D]
    hpf := [0x0000000000000000, 0x0000000000000000, 0x3FB0859EC6363017, 0xBFA4D53E4BDA4914,
      0xBFDAC206180CC7F0, 0x3FE93B462FFA84FB, 0xBFDAC206180CC7F0, 0xBFA4D53E4BDA4914,
      0x3FB0859EC6363017, 0x0000000000000000]
    ilpf := [0x0000000000000000, 0x3FA35E4056857F1C, 0x3F986BFE81242E28, 0xBFBC51E1871DDA58,
      0xBFD8275E4E917EBF, 0x3FEB494EBD760246, 0xBFD8275E4E917EBF, 0xBFBC51E1871DDA58,
      0x3F986BFE81242E28, 0x3FA35E4056857F1C]
    ihpf := [0x0000000000000000, 0x0000000000000000, 0xBFB0859EC6363016, 0xBFA4D53E4BDA4913,
      0x3FDAC206180CC7F4, 0x3FE93B462FFA84FB, 0x3FDAC206180CC7F4, 0xBFA4D53E4BDA4913,
      0xBFB0859EC6363016, 0x0000000000000000] }

/-- 1.0, 2.0, up to 10.0, the signal that 95_test_vectors.md section 4.3 compares the strategies
on. -/
def crossSignal : List F64 :=
  [0x3FF0000000000000, 0x4000000000000000, 0x4008000000000000, 0x4010000000000000,
    0x4014000000000000, 0x4018000000000000, 0x401C000000000000, 0x4020000000000000,
    0x4022000000000000, 0x4024000000000000]

/-- The signal of length n that is 1.0 at j and +0.0 elsewhere. -/
def unitImpulse (n j : Nat) : List F64 :=
  (List.range n).map fun i => if i = j then 0x3FF0000000000000 else 0x0000000000000000

end Sys2Proof.Machine
end

