-- ==== Sys2Proof/Certificates/Slice0/Obligations.lean ====
section
/-! DEFINITION. The statements about the model, one `Obligations.<Name>` each. A statement's next
state is written out as a record update, so it says the result and the frame at once: every field
it does not name is unchanged. -/

open Sys2Proof Sys2Proof.Machine

/-! ### Command words -/

/-- 30_encoding.md R73: the legal words are those with RSV = 0 and an OPC of the table, each its
row's command. -/
def Obligations.LegalWordsAreTheTable : Prop :=
  (∀ w : Word, (∃ i, decode w = .ok i) ↔
    w.extractLsb' 8 56 = 0 ∧
      (w.extractLsb' 0 8).toNat ∈
        [0x00, 0x01, 0x02, 0x03, 0x04, 0x10, 0x11, 0x12, 0x13, 0x14, 0x18, 0x19, 0x1A,
          0x20, 0x21]) ∧
  decode 0x0000000000000000 = .ok .nop ∧
  decode 0x0000000000000001 = .ok .fbLoad ∧
  decode 0x0000000000000002 = .ok .xfSelect ∧
  decode 0x0000000000000003 = .ok .xfFwd ∧
  decode 0x0000000000000004 = .ok .xfInv ∧
  decode 0x0000000000000010 = .ok .bsInit ∧
  decode 0x0000000000000011 = .ok .bsReadbit ∧
  decode 0x0000000000000012 = .ok .bsGood ∧
  decode 0x0000000000000013 = .ok .bsInbytes ∧
  decode 0x0000000000000014 = .ok .bsNextbyte ∧
  decode 0x0000000000000018 = .ok .wsInit ∧
  decode 0x0000000000000019 = .ok .wsPutbit ∧
  decode 0x000000000000001A = .ok .wsAlign ∧
  decode 0x0000000000000020 = .ok .venc ∧
  decode 0x0000000000000021 = .ok .vdec

/-- A few words of the table, one per family, and three illegal ones, decode as 30_encoding.md R73
and R74 say. -/
def Obligations.SampleWordsDecode : Prop :=
  decodeTableWord 64 0x01 = some .fbLoad ∧ decodeTableWord 64 0x03 = some .xfFwd ∧
  decodeTableWord 64 0x11 = some .bsReadbit ∧ decodeTableWord 64 0x19 = some .wsPutbit ∧
  decodeTableWord 64 0x20 = some .venc ∧
  decode 0x0000000000000005 = .error (.unassignedOpcode 0x05) ∧
  decode 0x0000000000000100 = .error (.reservedNonzero 1) ∧
  decode 0x8000000000000012 = .error (.reservedNonzero 0x80000000000000)

/-- Decode and encode agree, both ways: every command's word decodes to it, and a word that decodes
to a command is that command's word (30_encoding.md R70, R73). -/
def Obligations.DecodeEncodeAgree : Prop :=
  (∀ i : Instr, i.wellFormed = true → decode (encode i) = .ok i) ∧
  ∀ (w : Word) (i : Instr), decode w = .ok i → i.wellFormed = true ∧ encode i = w

/-- Any word with RSV not 0 or an unassigned OPC is issued and at completion raises ILLEGAL_CMD
(code 0x01) with no other effect (30_encoding.md R74). -/
def Obligations.IllegalWordRaisesIllegalCmd : Prop :=
  ∀ (s : State) (w : Word), s.status.busy = false →
    (w.extractLsb' 8 56 ≠ 0 ∨
      (0x05 ≤ (w.extractLsb' 0 8).toNat ∧ (w.extractLsb' 0 8).toNat ≤ 0x0F) ∨
      (0x15 ≤ (w.extractLsb' 0 8).toNat ∧ (w.extractLsb' 0 8).toNat ≤ 0x17) ∨
      (0x1B ≤ (w.extractLsb' 0 8).toNat ∧ (w.extractLsb' 0 8).toNat ≤ 0x1F) ∨
      0x22 ≤ (w.extractLsb' 0 8).toNat) →
    (writeReg .cmd w s).status.busy = true ∧
    (writeReg .cmd w s).status.lastOpc = w.extractLsb' 0 8 ∧
    engineStep (writeReg .cmd w s) =
      .next { writeReg .cmd w s with status := statusError (writeReg .cmd w s).status 0x01 }

/-! ### The step -/

/-- A step is the move of one agent (00_scope.md R8). On the engine's turn, while BUSY = 1, it is
`exec` of the command the latched word decodes to, or, when the word is illegal, the completion with
ILLEGAL_CMD; while BUSY = 0 nothing changes but the turns (60_exceptions.md R160, R167; log entry
20). On the host's turn it is the action at the host's position in its program, and past the
program's end nothing changes but the turns (log entry 19). That a list says which agent moves, and
that with an empty one a pending command goes first, is the model's choice (log entry 1). -/
def Obligations.StepRunsDecodedCommandOrHostAction : Prop :=
  (∀ (s : State) (i : Instr), s.status.busy = true → decode s.cmdLatch = .ok i →
    i.wellFormed = true →
    (s.turns = [] → step s = exec i s) ∧
    ∀ ts, s.turns = .engine :: ts → step s = exec i { s with turns := ts }) ∧
  (∀ s : State, s.status.busy = true → (∀ i, decode s.cmdLatch ≠ .ok i) →
    (s.turns = [] → step s = .next { s with status := statusError s.status 0x01 }) ∧
    ∀ ts, s.turns = .engine :: ts →
      step s = .next { s with turns := ts, status := statusError s.status 0x01 }) ∧
  (∀ (s : State) (ts : List Turn), s.status.busy = false → s.turns = .engine :: ts →
    step s = .next { s with turns := ts }) ∧
  (∀ (s : State) (op : HostOp), s.host.prog[s.host.pc]? = some op →
    (s.turns = [] → s.status.busy = false → step s = hostAct op s) ∧
    ∀ ts, s.turns = .host :: ts → step s = hostAct op { s with turns := ts }) ∧
  ∀ s : State, s.host.prog.length ≤ s.host.pc →
    (s.turns = [] → s.status.busy = false → step s = .next s) ∧
    ∀ ts, s.turns = .host :: ts → step s = .next { s with turns := ts }

/-- A command word placed by `withFetchWord` is issued (60_exceptions.md R159) and the very next
step runs it. The placing is the model's (log entry 2). -/
def Obligations.PlacedWordRunsNext : Prop :=
  ∀ (s : State) (i : Instr),
    s.withFetchWord 64 (encode i).toNat =
      { s with
        cmdLatch := encode i, argLatch0 := s.arg0, argLatch1 := s.arg1, argLatch2 := s.arg2,
        status := { s.status with
          busy := true, done := false, err := false, errcode := 0, lastOpc := i.opc },
        turns := [] } ∧
    step (s.withFetchWord 64 (encode i).toNat) =
      exec i (s.withFetchWord 64 (encode i).toNat)

/-- In a sound state a pending command completes: the engine's step answers a next state, in which
BUSY is 0 and DONE is 1 and OVERRUN, LAST_OPC, CMD_LATCH and ARG_LATCH are as before
(60_exceptions.md R160). -/
def Obligations.PendingCommandCompletes : Prop :=
  ∀ s : State, Sound s → s.status.busy = true →
    ∃ t, engineStep s = .next t ∧ t.status.busy = false ∧ t.status.done = true ∧
      t.status.overrun = s.status.overrun ∧ t.status.lastOpc = s.status.lastOpc ∧
      t.cmdLatch = s.cmdLatch ∧ t.argLatch0 = s.argLatch0 ∧ t.argLatch1 = s.argLatch1 ∧
      t.argLatch2 = s.argLatch2

/-- The invariant holds right after reset; of what it rests on, the parameters and COEF are the
model's choice (log entries 3 and 7). -/
def Obligations.ResetStateIsSound : Prop := Sound State.reset

/-- Every step keeps the invariant: DMEM's canonical form and extent, both cursors' invariants
(10_state.md R35, R36), the bank's, STATUS's, the parameters' constraints, for every MEM_BYTES up to
2^64. That a buffer whose end would wrap BS_END or WS_END is out of range is log entry 5
(DEDUCED). -/
def Obligations.StepKeepsSoundness : Prop :=
  ∀ s t : State, Sound s → step s = .next t → Sound t

/-- A run of any length from a sound state meets no fault: no command gives DMEM a bad address
(00_scope.md R11, 20_memory.md R55). -/
def Obligations.SoundRunIsSafe : Prop :=
  ∀ (s : State) (k : Nat), Sound s → safeRun k s

/-! ### Issue, completion, errors -/

/-- 60_exceptions.md R159: a write of w to CMD while BUSY = 0 latches the word and the operands and
sets STATUS; an illegal word is issued too, and fails at completion. -/
def Obligations.CmdWriteIssues : Prop :=
  ∀ (s : State) (w : Word), s.status.busy = false →
    writeReg .cmd w s =
      { s with
        cmdLatch := w, argLatch0 := s.arg0, argLatch1 := s.arg1, argLatch2 := s.arg2,
        status :=
          { busy := true, done := false, err := false, overrun := s.status.overrun,
            errcode := 0, lastOpc := w.extractLsb' 0 8 } } ∧
    ((∀ i, decode w ≠ .ok i) →
      engineStep (writeReg .cmd w s) =
        .next { writeReg .cmd w s with
          status := statusError (writeReg .cmd w s).status 0x01 })

/-- 60_exceptions.md R161: a write of w to CMD while BUSY = 1 sets OVERRUN and changes nothing
else; w is nowhere kept. -/
def Obligations.CmdWriteWhileBusyIsDropped : Prop :=
  ∀ (s : State) (w : Word), s.status.busy = true →
    writeReg .cmd w s = { s with status := { s.status with overrun := true } }

/-- A command that raises an error changes STATUS only: BUSY 0, DONE 1, ERR 1 and ERRCODE, a listed
code; LAST_OPC and OVERRUN and every other part of the state are as before the command
(60_exceptions.md R153). Before it, ERR is 0: issue clears it. -/
def Obligations.ErrorChangesStatusOnly : Prop :=
  ∀ (i : Instr) (s t : State), s.status.err = false → exec i s = .next t →
    t.status.err = true →
    ∃ e : CmdError, t = { s with status := statusError s.status e.code }

/-- Every command either completes, setting BUSY 0 and DONE 1 and nothing else of STATUS, or
records an error (60_exceptions.md R153, R160); none is refused. -/
def Obligations.CommandCompletesOrRaises : Prop :=
  ∀ (i : Instr) (s : State),
    (∀ t, exec i s = .next t →
      t.status = statusDone s.status ∨
      ∃ e : CmdError, t = { s with status := statusError s.status e.code }) ∧
    ∀ r, exec i s ≠ .refused r

/-! ### The register block -/

/-- 10_state.md R28: what a host write to STATUS does; while a command is pending it may clear
DONE, and the completion sets DONE again. -/
def Obligations.StatusWriteClearsNamedBits : Prop :=
  ∀ (s : State) (w : Word),
    writeReg .status w s =
      { s with status :=
        { busy := s.status.busy
          done := s.status.done && !w.getLsbD 1
          err := s.status.err && !w.getLsbD 2
          errcode := if w.getLsbD 2 then 0 else s.status.errcode
          overrun := s.status.overrun && !w.getLsbD 3
          lastOpc := s.status.lastOpc } } ∧
    ∀ t, engineStep (writeReg .status w s) = .next t → s.status.busy = true →
      t.status.done = true

/-- 10_state.md R25: CTRL is at 0x020; bit 0 is IRQ_EN and enables `irq`, the others are ignored
and read 0; its reset value is 0; no command changes it; and a host write to any register but CTRL,
ARG0 to ARG2, CMD and STATUS changes nothing. -/
def Obligations.CtrlHoldsOnlyIrqEnable : Prop :=
  regOffset .ctrl = 0x020 ∧
  (∀ s : State, irq s = (s.irqEn && s.status.done)) ∧
  (∀ (s : State) (w : Word),
    writeReg .ctrl w s = { s with irqEn := w.getLsbD 0 } ∧
    regValue (writeReg .ctrl w s) .ctrl = (if w.getLsbD 0 then 1 else 0)) ∧
  regValue State.reset .ctrl = 0 ∧
  (∀ (i : Instr) (s t : State), exec i s = .next t → t.irqEn = s.irqEn) ∧
  ∀ (r : Reg) (w : Word) (s : State),
    r ∉ [Reg.ctrl, .arg0, .arg1, .arg2, .cmd, .status] → writeReg r w s = s

/-- ARG0 to ARG2 (10_state.md R29) are three separate 64-bit registers, reset 0, that only the host
writes; a command's effect does not depend on them, so a write while BUSY = 1 affects only the next
command. -/
def Obligations.ArgsAreOnlyTheHosts : Prop :=
  (∀ (s : State) (w : Word),
    writeReg .arg0 w s = { s with arg0 := w } ∧ writeReg .arg1 w s = { s with arg1 := w } ∧
    writeReg .arg2 w s = { s with arg2 := w } ∧
    regValue (writeReg .arg0 w s) .arg0 = w ∧ regValue (writeReg .arg1 w s) .arg1 = w ∧
    regValue (writeReg .arg2 w s) .arg2 = w) ∧
  (State.reset.arg0 = 0 ∧ State.reset.arg1 = 0 ∧ State.reset.arg2 = 0) ∧
  (∀ (i : Instr) (s t : State), exec i s = .next t →
    t.arg0 = s.arg0 ∧ t.arg1 = s.arg1 ∧ t.arg2 = s.arg2) ∧
  ∀ (i : Instr) (s : State) (a b c : Word),
    exec i { s with arg0 := a, arg1 := b, arg2 := c } =
      mapNext (fun t => { t with arg0 := a, arg1 := b, arg2 := c }) (exec i s)

/-- 10_state.md R30: RESULT is at 0x058, 0 at reset; no host write to any register changes it, and
a command changes it only as a BS_READBIT, BS_GOOD, BS_INBYTES or VDEC that raises no error. -/
def Obligations.ResultWrittenByFourCommands : Prop :=
  regOffset .result = 0x058 ∧ State.reset.result = 0 ∧
  (∀ s : State, regValue s .result = s.result) ∧
  (∀ (w : Word) (s : State), writeReg .result w s = s) ∧
  (∀ (r : Reg) (w : Word) (s : State), (writeReg r w s).result = s.result) ∧
  ∀ (i : Instr) (s t : State), exec i s = .next t →
    (i ∉ [Instr.bsReadbit, .bsGood, .bsInbytes, .vdec] ∨
      (s.status.err = false ∧ t.status.err = true)) →
    t.result = s.result

/-- STRAT reads 0 (Direct) or 1 (Lifting), is 0 at reset, no host write to any register changes it,
and a command changes it only as a successful XF_SELECT (10_state.md R31). -/
def Obligations.StratWrittenBySelectOnly : Prop :=
  (∀ s : State, regValue s .strat = (if s.strat = .lifting then 1 else 0)) ∧
  regValue State.reset .strat = 0 ∧
  (∀ (r : Reg) (w : Word) (s : State), (writeReg r w s).strat = s.strat) ∧
  ∀ (i : Instr) (s t : State), exec i s = .next t →
    (i ≠ .xfSelect ∨ (s.status.err = false ∧ t.status.err = true)) → t.strat = s.strat

/-- The bank lives in the engine: COEF or FB_INFO changes in a step only if that step is the reset
or the engine's, on FB_LOAD, and that FB_LOAD raised no error; so no host write changes it
(40_filter_bank.md R88, 10_state.md R32). -/
def Obligations.BankChangesByLoadOrReset : Prop :=
  ∀ s t : State, step s = .next t → t.coef ≠ s.coef ∨ t.fbInfo ≠ s.fbInfo →
    s.turns.head? = some .rst ∨
    (s.status.busy = true ∧ decode s.cmdLatch = .ok .fbLoad ∧ s.turns.head? ≠ some .host ∧
      (s.status.err = false → t.status.err = false))

/-- What each command leaves alone, when it gives a next state: the parameters, CTRL, the ARGs, the
latch, the host side always; DMEM, the reader, the writer, the bank, STRAT, RESULT and the scratch
unless the command writes that part. -/
def Obligations.CommandsWriteOnlyTheirParts : Prop :=
  ∀ (i : Instr) (s t : State), exec i s = .next t →
    (t.params = s.params ∧ t.irqEn = s.irqEn ∧ t.arg0 = s.arg0 ∧ t.arg1 = s.arg1 ∧
      t.arg2 = s.arg2 ∧ t.cmdLatch = s.cmdLatch ∧ t.argLatch0 = s.argLatch0 ∧
      t.argLatch1 = s.argLatch1 ∧ t.argLatch2 = s.argLatch2 ∧ t.host = s.host ∧
      t.turns = s.turns) ∧
    (i ∉ [Instr.xfFwd, .xfInv, .wsPutbit, .venc] → t.dmem = s.dmem) ∧
    (i ∉ [Instr.xfFwd, .xfInv] → t.scratch = s.scratch) ∧
    (i ∉ [Instr.bsInit, .bsReadbit, .bsNextbyte, .vdec] → t.bs = s.bs) ∧
    (i ∉ [Instr.wsInit, .wsPutbit, .wsAlign, .venc] → t.ws = s.ws) ∧
    (i ≠ .fbLoad → t.coef = s.coef ∧ t.fbInfo = s.fbInfo) ∧
    (i ≠ .xfSelect → t.strat = s.strat) ∧
    (i ∉ [Instr.bsReadbit, .bsGood, .bsInbytes, .vdec] → t.result = s.result)

/-- 10_state.md R22 and R23: ID (at 0x000) and PARAM0 to PARAM2 (at 0x008 to 0x018) read constants,
the same after every step, and ignore writes; ID is "NAMI" and the version 1. -/
def Obligations.IdentificationIsConstant : Prop :=
  (regOffset .id = 0x000 ∧ regOffset .param0 = 0x008 ∧ regOffset .param1 = 0x010 ∧
    regOffset .param2 = 0x018) ∧
  (∀ s : State, regValue s .id = 0x00000001494D414E ∧
    (regValue s .param0).toNat = s.params.maxTaps % 2 ^ 64 ∧
    (regValue s .param1).toNat = s.params.maxN % 2 ^ 64 ∧
    (regValue s .param2).toNat = s.params.memBytes % 2 ^ 64) ∧
  (∀ (r : Reg) (w : Word) (s : State), r ∈ [Reg.id, .param0, .param1, .param2] →
    writeReg r w s = s) ∧
  ∀ (s t : State) (r : Reg), r ∈ [Reg.id, .param0, .param1, .param2] → step s = .next t →
    regValue t r = regValue s r

/-- What the host reads of STATUS, FB_INFO and the ten cursor registers (10_state.md R27, R32, R34,
R36): each field of STATUS and FB_INFO and each mask at its place, every reserved bit 0; BASE, POS,
END and TOTAL of the reader and of the writer as they are. -/
def Obligations.RegisterContentsAsRead : Prop :=
  ∀ s : State,
    (regValue s .status).toNat =
      s.status.busy.toNat + 2 * s.status.done.toNat + 4 * s.status.err.toNat +
        8 * s.status.overrun.toNat + 2 ^ 8 * s.status.errcode.toNat +
        2 ^ 16 * s.status.lastOpc.toNat ∧
    (regValue s .fbInfo).toNat =
      s.fbInfo.valid.toNat + 2 ^ 8 * s.fbInfo.family.toNat + 2 ^ 16 * s.fbInfo.size.toNat ∧
    (regValue s .bsMask).toNat = s.bs.mask.toNat ∧ (regValue s .wsMask).toNat = s.ws.mask.toNat ∧
    regValue s .bsBase = s.bs.base ∧ regValue s .bsPos = s.bs.pos ∧
    regValue s .bsEnd = s.bs.limit ∧ regValue s .bsTotal = s.bs.total ∧
    regValue s .wsBase = s.ws.base ∧ regValue s .wsPos = s.ws.pos ∧
    regValue s .wsEnd = s.ws.limit ∧ regValue s .wsTotal = s.ws.total

/-- 10_state.md R43: a host read changes nothing of the block (only the host's own fields and the
count of draws), and only writes to CMD, CTRL, ARG0 to ARG2 and of 1 bits to STATUS[3:1] change
state. -/
def Obligations.OnlyNamedWritesHaveEffect : Prop :=
  (∀ (s t : State) (addr width : Nat), hostAct (.regRead addr width) s = .next t →
    t = { s with host := t.host, draws := t.draws }) ∧
  (∀ (r : Reg) (w : Word) (s : State),
    r ∉ [Reg.cmd, .ctrl, .arg0, .arg1, .arg2, .status] → writeReg r w s = s) ∧
  ∀ (w : Word) (s : State), w.getLsbD 1 = false → w.getLsbD 2 = false → w.getLsbD 3 = false →
    writeReg .status w s = s

/-- 10_state.md R44: in the 4096-byte block a reserved offset reads 0 and ignores a write, and an
access that is not 64 bits at an 8-byte-aligned offset is refused. -/
def Obligations.ReservedReadsZeroMalformedRefused : Prop :=
  ∀ (s : State) (off : Nat) (w : Word),
    (off % 8 = 0 →
      off = 0x038 ∨ (0x070 ≤ off ∧ off ≤ 0x07F) ∨ (0x0A8 ≤ off ∧ off ≤ 0x0BF) ∨
        (0x0E8 ≤ off ∧ off ≤ 0xFFF) →
      hostAct (.regRead (s.params.regBase + off) 64) s =
        .next { s with host := { s.host with rdata := 0, pc := s.host.pc + 1 } } ∧
      hostAct (.regWrite (s.params.regBase + off) 64 w) s =
        .next { s with host := { s.host with pc := s.host.pc + 1 } }) ∧
    ∀ width : Nat, off < 4096 → width ≠ 64 ∨ off % 8 ≠ 0 →
      hostAct (.regRead (s.params.regBase + off) width) s = .refused .malformedRegisterAccess ∧
      hostAct (.regWrite (s.params.regBase + off) width w) s = .refused .malformedRegisterAccess

/-- The register map (10_state.md R24): each register, and no other, is reached at the offset of the
table by a 64-bit access. A read gives the host its value (while BUSY = 1 that of 10_state.md R42)
and changes nothing of the block, a write is done by the register's rule, both whether or not a
command is pending. That a read of an engine-written register while BUSY = 1 takes a draw is the
model's form (log entry 10). -/
def Obligations.EveryRegisterIsReachedAtItsOffset : Prop :=
  let map : List (Nat × Reg) :=
    [(0x000, .id), (0x008, .param0), (0x010, .param1), (0x018, .param2), (0x020, .ctrl),
      (0x028, .cmd), (0x030, .status), (0x040, .arg0), (0x048, .arg1), (0x050, .arg2),
      (0x058, .result), (0x060, .strat), (0x068, .fbInfo), (0x080, .bsBase), (0x088, .bsPos),
      (0x090, .bsEnd), (0x098, .bsMask), (0x0A0, .bsTotal), (0x0C0, .wsBase), (0x0C8, .wsPos),
      (0x0D0, .wsEnd), (0x0D8, .wsMask), (0x0E0, .wsTotal)]
  (∀ r : Reg, (regOffset r, r) ∈ map) ∧
  ∀ (s : State) (off : Nat) (r : Reg) (w : Word), (off, r) ∈ map →
    hostAct (.regRead (s.params.regBase + off) 64) s =
      .next { s with
        draws :=
          if s.status.busy = true ∧
              r ∈ [Reg.result, .strat, .fbInfo, .bsBase, .bsPos, .bsEnd, .bsMask, .bsTotal,
                .wsBase, .wsPos, .wsEnd, .wsMask, .wsTotal]
          then s.draws + 1 else s.draws
        host := { s.host with rdata := readReg s r, pc := s.host.pc + 1 } } ∧
    (s.status.busy = false → readReg s r = regValue s r) ∧
    hostAct (.regWrite (s.params.regBase + off) 64 w) s =
      .next (hostAt (s.host.pc + 1) (writeReg r w s)) ∧
    (writeReg r w s).host = s.host

/-- 10_state.md R42: a read while BUSY = 1 returns the current value of ID, PARAM0-2, CTRL, STATUS,
ARG0-2 and CMD, and of an engine-written register either the value before the pending command or
the value after its completion. Which is free: the statement holds for every draw. -/
def Obligations.BusyReadIsOldOrNew : Prop :=
  ∀ (s : State) (r : Reg), s.status.busy = true →
    (r ∈ [Reg.id, .param0, .param1, .param2, .ctrl, .status, .arg0, .arg1, .arg2, .cmd] →
      readReg s r = regValue s r) ∧
    (readReg s r = regValue s r ∨ ∃ t, engineStep s = .next t ∧ readReg s r = regValue t r)

/-- 10_state.md R41: `irq` is IRQ_EN and DONE, and 0 at reset. -/
def Obligations.IrqIsEnableAndDone : Prop :=
  (∀ s : State, irq s = (s.irqEn && s.status.done)) ∧ (∀ s : State, irq (applyReset s) = false) ∧
    irq State.reset = false

/-- The completion of any command raises `irq` when it is enabled, the next issue and a write of 1
to STATUS.DONE drop it, and enabling it while DONE = 1 raises it at once
(60_exceptions.md R156). -/
def Obligations.IrqFollowsCompletion : Prop :=
  (∀ (i : Instr) (s t : State), exec i s = .next t → irq t = s.irqEn) ∧
  (∀ (s : State) (w : Word), s.status.busy = false → irq (writeReg .cmd w s) = false) ∧
  (∀ (s : State) (w : Word), w.getLsbD 1 = true → irq (writeReg .status w s) = false) ∧
  ∀ (s : State) (w : Word), w.getLsbD 0 = true → s.status.done = true →
    irq (writeReg .ctrl w s) = true

/-! ### Reset -/

/-- The reset values that 70_reset_and_hazards.md R171 gives, from every state and so whether or not
a command is pending: what the host reads of each register, and `irq`. What that rule leaves
unspecified is not stated. A step in which the reset input comes is this reset; that a turn says
when it comes is the model's choice (log entry 1). -/
def Obligations.ResetGivesTheListedValues : Prop :=
  ∀ s : State,
    (∀ r : Reg, r ∈ [Reg.ctrl, .cmd, .status, .arg0, .arg1, .arg2, .result, .strat, .fbInfo,
        .bsBase, .bsPos, .bsEnd, .bsTotal, .wsBase, .wsPos, .wsEnd, .wsTotal] →
      regValue (applyReset s) r = 0) ∧
    (∀ r : Reg, r ∈ [Reg.bsMask, .wsMask] → regValue (applyReset s) r = 0x80) ∧
    (∀ r : Reg, r ∈ [Reg.id, .param0, .param1, .param2] →
      regValue (applyReset s) r = regValue s r) ∧
    irq (applyReset s) = false ∧
    ∀ ts, s.turns = .rst :: ts → step s = .next (applyReset { s with turns := ts })

/-- 70_reset_and_hazards.md R173: reset leaves DMEM alone and starts no command, and it is the only
step that clears FB_INFO.VALID. -/
def Obligations.ResetKeepsMemoryAndAloneUnloads : Prop :=
  (∀ (s : State) (ts : List Turn), s.turns = .rst :: ts →
    ∃ t, step s = .next t ∧ t.dmem = s.dmem ∧ t.status.busy = false ∧ t.fbInfo.valid = false ∧
      engineStep t = .next t) ∧
  ∀ s t : State, step s = .next t → s.fbInfo.valid = true → t.fbInfo.valid = false →
    s.turns.head? = some .rst

/-! ### NOP, FB_LOAD, XF_SELECT -/

/-- NOP completes and changes nothing else (40_filter_bank.md R85). -/
def Obligations.NopOnlyCompletes : Prop :=
  ∀ s : State, exec .nop s = .next { s with status := statusDone s.status }

/-- FB_LOAD of a valid descriptor completes: FB_INFO takes the header's size and family, entry d of
each array the d-th coefficient, bit for bit, for d below size, and nothing else changes
(40_filter_bank.md R86, R87). That the entries from size up, which the spec leaves at any value
(93_implementation_defined.md U10), keep theirs is the model's choice (log entry 7). -/
def Obligations.FbLoadStoresTheBank : Prop :=
  ∀ (s : State) (size fam : Nat), firstFailure (bankFailures s) = none →
    (memRead64 s.dmem s.argLatch0.toNat).toNat = size →
    (memRead64 s.dmem (s.argLatch0.toNat + 40)).toNat = fam →
    ∃ c : FilterBank,
      exec .fbLoad s =
        .next { s with
          coef := c
          fbInfo := { valid := true, family := BitVec.ofNat 8 fam, size := BitVec.ofNat 32 size }
          status := statusDone s.status } ∧
      ∀ d : Nat,
        c.lpf.getD d 0 = (if d < size then memRead64 s.dmem (s.argLatch0.toNat + 48 + 8 * d)
          else s.coef.lpf.getD d 0) ∧
        c.hpf.getD d 0 = (if d < size then
            memRead64 s.dmem (s.argLatch0.toNat + 48 + 8 * size + 8 * d)
          else s.coef.hpf.getD d 0) ∧
        c.ilpf.getD d 0 = (if d < size then
            memRead64 s.dmem (s.argLatch0.toNat + 48 + 16 * size + 8 * d)
          else s.coef.ilpf.getD d 0) ∧
        c.ihpf.getD d 0 = (if d < size then
            memRead64 s.dmem (s.argLatch0.toNat + 48 + 24 * size + 8 * d)
          else s.coef.ihpf.getD d 0)

/-- FB_LOAD raises the code of the first check of its rule that fails, and changes nothing else: a
loaded bank stays (40_filter_bank.md R87). -/
def Obligations.FbLoadRaisesFirstFailure : Prop :=
  ∀ (s : State) (code : BitVec 8), firstFailure (bankFailures s) = some code →
    exec .fbLoad s = .next { s with status := statusError s.status code }

/-- XF_SELECT sets STRAT when its checks pass, and raises the first failing check's code otherwise;
selecting Direct always succeeds (40_filter_bank.md R89). -/
def Obligations.XfSelectSetsStrategy : Prop :=
  (∀ s : State, firstFailure (selectFailures s) = none →
    exec .xfSelect s =
      .next { s with
        strat := if s.argLatch0.toNat = 1 then .lifting else .direct
        status := statusDone s.status }) ∧
  (∀ (s : State) (code : BitVec 8), firstFailure (selectFailures s) = some code →
    exec .xfSelect s = .next { s with status := statusError s.status code }) ∧
  ∀ s : State, s.argLatch0 = 0 →
    exec .xfSelect s = .next { s with strat := .direct, status := statusDone s.status }

/-! ### XF_FWD, XF_INV -/

/-- XF_FWD and XF_INV raise the code of the first check of 41_transform_direct.md R96 that fails and
change nothing else; when none fails, n is even with 2 <= FB_INFO.SIZE <= n <= MAX_N and the
footprint lies in DMEM. -/
def Obligations.TransformsRaiseFirstFailure : Prop :=
  (∀ (s : State) (code : BitVec 8), firstFailure (transformFailures s) = some code →
    exec .xfFwd s = .next { s with status := statusError s.status code } ∧
    exec .xfInv s = .next { s with status := statusError s.status code }) ∧
  ∀ s : State, Sound s → firstFailure (transformFailures s) = none →
    s.argLatch1.toNat % 2 = 0 ∧ 2 ≤ s.fbInfo.size.toNat ∧
    s.fbInfo.size.toNat ≤ s.argLatch1.toNat ∧ s.argLatch1.toNat ≤ s.params.maxN ∧
    ∀ k < s.argLatch1.toNat,
      s.argLatch0.toNat + 8 * s.argLatch2.toNat * k + 8 ≤ s.params.memBytes

/-- XF_FWD, its checks passed, completes: element k of the footprint becomes the k-th value of the
selected strategy's forward transform of the n elements read, every byte outside the elements is
unchanged, and no register but STATUS changes (41_transform_direct.md R97, R98). The scratch
buffer's content and the count of draws are left open; how a NaN's draw is numbered is the model's
choice (log entry 8). -/
def Obligations.XfFwdTransformsInPlace : Prop :=
  ∀ s : State, Sound s → firstFailure (transformFailures s) = none →
    ∃ (t : State) (x y : List F64),
      exec .xfFwd s = .next t ∧
      t = { s with dmem := t.dmem, scratch := t.scratch, draws := t.draws,
                   status := statusDone s.status } ∧
      x.length = s.argLatch1.toNat ∧ y.length = s.argLatch1.toNat ∧
      (∀ k < s.argLatch1.toNat,
        elem x k = loadF64 s.dmem (s.argLatch0.toNat + 8 * s.argLatch2.toNat * k) ∧
        loadF64 t.dmem (s.argLatch0.toNat + 8 * s.argLatch2.toNat * k) = elem y k) ∧
      (s.strat = .direct →
        y = directForward s.draws s.coef s.fbInfo.size.toNat x s.argLatch1.toNat) ∧
      (s.strat = .lifting → y = liftForward s.draws x s.argLatch1.toNat) ∧
      ∀ a : Nat,
        (∀ k < s.argLatch1.toNat,
          a < s.argLatch0.toNat + 8 * s.argLatch2.toNat * k ∨
          s.argLatch0.toNat + 8 * s.argLatch2.toNat * k + 8 ≤ a) →
        memRead t.dmem a = memRead s.dmem a

/-- XF_INV, its checks passed, completes: as XF_FWD with the inverse transform
(41_transform_direct.md R97, R99). -/
def Obligations.XfInvTransformsInPlace : Prop :=
  ∀ s : State, Sound s → firstFailure (transformFailures s) = none →
    ∃ (t : State) (x y : List F64),
      exec .xfInv s = .next t ∧
      t = { s with dmem := t.dmem, scratch := t.scratch, draws := t.draws,
                   status := statusDone s.status } ∧
      x.length = s.argLatch1.toNat ∧ y.length = s.argLatch1.toNat ∧
      (∀ k < s.argLatch1.toNat,
        elem x k = loadF64 s.dmem (s.argLatch0.toNat + 8 * s.argLatch2.toNat * k) ∧
        loadF64 t.dmem (s.argLatch0.toNat + 8 * s.argLatch2.toNat * k) = elem y k) ∧
      (s.strat = .direct →
        y = directInverse s.draws s.coef s.fbInfo.size.toNat x s.argLatch1.toNat) ∧
      (s.strat = .lifting → y = liftInverse s.draws x s.argLatch1.toNat) ∧
      ∀ a : Nat,
        (∀ k < s.argLatch1.toNat,
          a < s.argLatch0.toNat + 8 * s.argLatch2.toNat * k ∨
          s.argLatch0.toNat + 8 * s.argLatch2.toNat * k + 8 ≤ a) →
        memRead t.dmem a = memRead s.dmem a

/-- The closed form of SymExtend, which the spec derives from its steps (41_transform_direct.md
R100, "Closed form of SymExtend"). Entry j is the element of the plain
or interleaved sequence that repeated reflection takes j - h to; in mode interleaved an entry holds
an approximation sample exactly when its index has the parity of h. -/
def Obligations.SymExtendMirrorsTheSignal : Prop :=
  ∀ (mode : ExtendMode) (x : List F64) (n h j : Nat),
    1 ≤ h → n % 2 = 0 → 2 * h ≤ n → x.length = n → j ≤ n + 2 * h →
    (symExtend mode x n h).length = n + 2 * h + 1 ∧
    mirrorIndex n ((j : Int) - h) ≤ n - 1 ∧
    (∃ r : Nat, (foldStep n)^[r] ((j : Int) - h) = (mirrorIndex n ((j : Int) - h) : Int)) ∧
    elem (symExtend mode x n h) j = extendSource mode x n (mirrorIndex n ((j : Int) - h)) ∧
    (mirrorIndex n ((j : Int) - h) % 2 = 0 ↔ j % 2 = h % 2)

/-- DirectForward in closed form, an inference from 41_transform_direct.md R100 and R102 by the
spec's own "Closed form of SymExtend": approximation value i is the sum over the taps of lpf[d]
times the mirrored sample at 2i + d - h, detail value i that of hpf[d] times the one at
2i + d + 1 - h. Each sum starts at +0.0 and takes d from 0 up to size - 1, and each product and each
addition is rounded on its own (R102). How a NaN's draw is numbered is the model's choice (log
entry 8). -/
def Obligations.DirectForwardIsMirroredConvolution : Prop :=
  ∀ (epoch : Nat) (bank : FilterBank) (size n i : Nat) (x : List F64),
    2 ≤ size → size % 2 = 0 → n % 2 = 0 → size ≤ n → x.length = n → i < n / 2 →
    (directForward epoch bank size x n).length = n ∧
    elem (directForward epoch bank size x n) i =
      (List.range size).foldl
        (fun acc d =>
          f64Add (drawnNaN epoch (2 * (i * size + d) + 1)) acc
            (f64Mul (drawnNaN epoch (2 * (i * size + d))) (elem bank.lpf d)
              (elem x (mirrorIndex n ((2 * i + d : Nat) - ((size / 2 : Nat) : Int))))))
        0x0000000000000000 ∧
    elem (directForward epoch bank size x n) (n / 2 + i) =
      (List.range size).foldl
        (fun acc d =>
          f64Add (drawnNaN epoch (2 * ((n / 2 + i) * size + d) + 1)) acc
            (f64Mul (drawnNaN epoch (2 * ((n / 2 + i) * size + d))) (elem bank.hpf d)
              (elem x (mirrorIndex n ((2 * i + d + 1 : Nat) - ((size / 2 : Nat) : Int))))))
        0x0000000000000000

/-- DirectInverse in closed form, an inference from 41_transform_direct.md R100 and R103 by the
spec's own "Closed form of SymExtend": value i is the sum over d of the coefficient that the parity
of i + d selects times the mirrored element of the interleaved halves at i + d - h. The sum starts
at +0.0 and takes d from 0 up to size - 1, and each product and each addition is rounded on its own
(R103). How a NaN's draw is numbered is the model's choice (log entry 8). -/
def Obligations.DirectInverseIsMirroredConvolution : Prop :=
  ∀ (epoch : Nat) (bank : FilterBank) (size n i : Nat) (x : List F64),
    2 ≤ size → size % 2 = 0 → n % 2 = 0 → size ≤ n → x.length = n → i < n →
    (directInverse epoch bank size x n).length = n ∧
    elem (directInverse epoch bank size x n) i =
      (List.range size).foldl
        (fun acc d =>
          f64Add (drawnNaN epoch (2 * (i * size + d) + 1)) acc
            (f64Mul (drawnNaN epoch (2 * (i * size + d)))
              (if (i + d) % 2 = 1 then elem bank.ihpf d else elem bank.ilpf d)
              (extendSource .interleaved x n
                (mirrorIndex n ((i + d : Nat) - ((size / 2 : Nat) : Int))))))
        0x0000000000000000

/-- The lifting strategy (42_transform_lifting.md R110 to R114). In a pass each element of parity p
becomes its update from the neighbours as they were before the pass, so the order within a pass does
not matter; the others are unchanged. The forward transform is the four passes with ALPHA, BETA,
GAMMA and DELTA, the even elements times ZETA as the first half and the odd ones over ZETA as the
second. The inverse interleaves the halves, divides and multiplies them by ZETA, and makes the four
passes in reverse with the negated constants. The constants and the direction of the scale are the
spec's own passages from general knowledge, followed as they stand (log entry 12, PRESUMED). How a
NaN's draw is numbered is the model's choice (log entry 8). With the derived 10-tap bank Direct and
Lifting, forward and inverse, agree to below 1e-15 of the largest output magnitude on the signal 1.0
to 10.0 and on the length-10 impulse at index 5; the forward outputs on 1.0 to 10.0 are not equal
bit for bit (R114). -/
def Obligations.LiftingFollowsItsPassesAndAgreesWithDirect : Prop :=
  (∀ (epoch stage n p i : Nat) (c : F64) (s : List F64),
    2 ≤ n → n % 2 = 0 → p < 2 → s.length = n → i < n →
    (liftPass epoch stage n p c s).length = n ∧
    elem (liftPass epoch stage n p c s) i =
      (if i % 2 = p then
        f64Add (drawnNaN epoch (liftSite stage n i + 2)) (elem s i)
          (f64Mul (drawnNaN epoch (liftSite stage n i + 1)) c
            (f64Add (drawnNaN epoch (liftSite stage n i))
              (elem s (if i = 0 then 1 else i - 1))
              (elem s (if i = n - 1 then n - 2 else i + 1))))
      else elem s i)) ∧
  (∀ (epoch n k : Nat) (x s : List F64),
    2 ≤ n → n % 2 = 0 → x.length = n → k < n / 2 →
    s = liftPass epoch 3 n 0 0x3FDC626A90452B46
        (liftPass epoch 2 n 1 0x3FEC40CEBA55CF3C
          (liftPass epoch 1 n 0 0xBFAB2035C937D7FB
            (liftPass epoch 0 n 1 0xBFF960CE67635B8D x))) →
    (liftForward epoch x n).length = n ∧
    elem (liftForward epoch x n) k =
      f64Mul (drawnNaN epoch (liftSite 4 n (2 * k))) (elem s (2 * k)) 0x3FF264C795071460 ∧
    elem (liftForward epoch x n) (n / 2 + k) =
      f64Div (drawnNaN epoch (liftSite 4 n (2 * k + 1))) (elem s (2 * k + 1))
        0x3FF264C795071460) ∧
  (∀ (epoch n : Nat) (x s : List F64),
    2 ≤ n → n % 2 = 0 → x.length = n → s.length = n →
    (∀ k < n / 2,
      elem s (2 * k) =
        f64Div (drawnNaN epoch (liftSite 4 n (2 * k))) (elem x k) 0x3FF264C795071460 ∧
      elem s (2 * k + 1) =
        f64Mul (drawnNaN epoch (liftSite 4 n (2 * k + 1))) (elem x (n / 2 + k))
          0x3FF264C795071460) →
    liftInverse epoch x n =
      liftPass epoch 3 n 1 0x3FF960CE67635B8D
        (liftPass epoch 2 n 0 0x3FAB2035C937D7FB
          (liftPass epoch 1 n 1 0xBFEC40CEBA55CF3C
            (liftPass epoch 0 n 0 0xBFDC626A90452B46 s)))) ∧
  (strategiesAgree (10 ^ 15) cdf97Bank 10 crossSignal 10 = true ∧
    directForward 0 cdf97Bank 10 crossSignal 10 ≠ liftForward 0 crossSignal 10) ∧
  strategiesAgree (10 ^ 15) cdf97Bank 10 (unitImpulse 10 5) 10 = true

/-! ### Arithmetic -/

/-- Rounding is to the nearest, ties to even (00_scope.md R12, the encoding after IEEE 754: log
entry 11): a finite result is at least as near to num / den units as every other finite value of its
sign, and when another is as near the result's last bit is 0; the result is the infinity of its sign
exactly from the halfway point above the largest finite value on, and finite below it. -/
def Obligations.RoundingIsNearestEven : Prop :=
  ∀ (neg : Bool) (num den : Nat), 0 < den →
    f64Sign (f64Round neg num den) = neg ∧
    (f64Round neg num den = f64Inf neg ↔ den * ((2 ^ 54 - 1) * 2 ^ 2044) ≤ num) ∧
    (f64Finite (f64Round neg num den) = true ↔ num < den * ((2 ^ 54 - 1) * 2 ^ 2044)) ∧
    (f64Finite (f64Round neg num den) = true →
      ∀ y : F64, f64Finite y = true → y ≠ f64Round neg num den → f64Sign y = neg →
        ((num : Int) - den * f64Mag (f64Round neg num den)).natAbs ≤
          ((num : Int) - den * f64Mag y).natAbs ∧
        (((num : Int) - den * f64Mag (f64Round neg num den)).natAbs =
            ((num : Int) - den * f64Mag y).natAbs →
          (f64Round neg num den).getLsbD 0 = false))

/-- The four operations of 00_scope.md R12 on binary64 values (IEEE 754, log entry 11). The sum, the
difference, the product and the quotient of finite values, the divisor not zero, are the exact
result rounded once, to the nearest, ties to even; an exact zero sum is +0.0 unless both addends are
-0.0, and the sign of a product or quotient is the exclusive or of the signs. A non-zero value over
zero is an infinity; an infinity stays one under the sums and products with no NaN result and over a
finite value, and a finite value over an infinity is a zero. -/
def Obligations.ArithmeticIsCorrectlyRounded : Prop :=
  (∀ nan a b : F64, f64Finite a = true → f64Finite b = true →
    correctlyRounded (f64Value a + f64Value b) 1
      (if f64Value a + f64Value b = 0 then f64Sign a && f64Sign b
        else decide (f64Value a + f64Value b < 0)) (f64Add nan a b) ∧
    correctlyRounded (f64Value a - f64Value b) 1
      (if f64Value a - f64Value b = 0 then f64Sign a && !f64Sign b
        else decide (f64Value a - f64Value b < 0)) (f64Sub nan a b) ∧
    correctlyRounded (f64Value a * f64Value b) (2 ^ 1074) (f64Sign a ^^ f64Sign b)
      (f64Mul nan a b) ∧
    (f64Value b ≠ 0 →
      correctlyRounded (f64Value a * 2 ^ 1074) (f64Value b) (f64Sign a ^^ f64Sign b)
        (f64Div nan a b)) ∧
    (f64Value a ≠ 0 → f64Value b = 0 →
      f64Div nan a b = f64Inf (f64Sign a ^^ f64Sign b))) ∧
  ∀ (nan x : F64) (n n' : Bool), f64Finite x = true →
    f64Add nan (f64Inf n) x = f64Inf n ∧ f64Add nan x (f64Inf n) = f64Inf n ∧
    f64Add nan (f64Inf n) (f64Inf n) = f64Inf n ∧
    (f64Value x ≠ 0 →
      f64Mul nan (f64Inf n) x = f64Inf (n ^^ f64Sign x) ∧
      f64Mul nan x (f64Inf n) = f64Inf (f64Sign x ^^ n)) ∧
    f64Mul nan (f64Inf n) (f64Inf n') = f64Inf (n ^^ n') ∧
    f64Div nan (f64Inf n) x = f64Inf (n ^^ f64Sign x) ∧
    f64Div nan x (f64Inf n) = f64Zero (f64Sign x ^^ n)

/-- Every NaN an operation produces is the quiet NaN of its draw, whatever the draw
(00_scope.md R12, log entries 8 and 11): a result that is a NaN is that one. A NaN operand gives it,
so do infinity minus infinity, zero times infinity, zero over zero and infinity over infinity, and
so a zero tap does not mask an infinity (41_transform_direct.md R98). -/
def Obligations.NaNsAreTheDrawnQuietNaN : Prop :=
  (∀ epoch site : Nat,
    f64Class (drawnNaN epoch site) = .nan ∧ (drawnNaN epoch site).getLsbD 51 = true) ∧
  (∀ nan a b : F64,
    (f64Class (f64Add nan a b) = .nan → f64Add nan a b = nan) ∧
    (f64Class (f64Sub nan a b) = .nan → f64Sub nan a b = nan) ∧
    (f64Class (f64Mul nan a b) = .nan → f64Mul nan a b = nan) ∧
    (f64Class (f64Div nan a b) = .nan → f64Div nan a b = nan)) ∧
  (∀ nan a b : F64, f64Class a = .nan ∨ f64Class b = .nan →
    f64Add nan a b = nan ∧ f64Sub nan a b = nan ∧ f64Mul nan a b = nan ∧ f64Div nan a b = nan) ∧
  ∀ (nan : F64) (n n' : Bool),
    f64Mul nan (f64Zero n) (f64Inf n') = nan ∧ f64Mul nan (f64Inf n') (f64Zero n) = nan ∧
    f64Add nan (f64Inf n) (f64Inf (!n)) = nan ∧ f64Sub nan (f64Inf n) (f64Inf n) = nan ∧
    f64Div nan (f64Zero n) (f64Zero n') = nan ∧ f64Div nan (f64Inf n) (f64Inf n') = nan

/-! ### The reader -/

/-- BS_INIT and WS_INIT over a buffer inside DMEM set their cursor to its first bit with count 0;
otherwise they raise RANGE and leave the cursor alone. DMEM is not touched
(43_bitstream.md R121, R127). That a buffer whose end would wrap the 64-bit BS_END or WS_END, which
a DMEM of 2^64 bytes alone admits, is out of range too is read from 20_memory.md R55 (log entry 5,
DEDUCED). -/
def Obligations.StreamInitSetsTheCursor : Prop :=
  ∀ s : State,
    (s.argLatch0.toNat + s.argLatch1.toNat ≤ s.params.memBytes →
      s.argLatch0.toNat + s.argLatch1.toNat < 2 ^ 64 →
      exec .bsInit s =
        .next { s with
          bs := { base := s.argLatch0, pos := s.argLatch0, limit := s.argLatch0 + s.argLatch1,
                  mask := 0x80, total := 0 }
          status := statusDone s.status } ∧
      exec .wsInit s =
        .next { s with
          ws := { base := s.argLatch0, pos := s.argLatch0, limit := s.argLatch0 + s.argLatch1,
                  mask := 0x80, total := 0 }
          status := statusDone s.status }) ∧
    (s.params.memBytes < s.argLatch0.toNat + s.argLatch1.toNat ∨
        2 ^ 64 ≤ s.argLatch0.toNat + s.argLatch1.toNat →
      exec .bsInit s = .next { s with status := statusError s.status 0x04 } ∧
      exec .wsInit s = .next { s with status := statusError s.status 0x04 })

/-- BS_READBIT on a sound reader with data left returns the next bit, most significant first within
each byte, and moves one bit on: past bit 0 the position advances and the mask returns to 128. With
no data left it raises STREAM_EXHAUSTED and changes nothing else (43_bitstream.md R120, R122). -/
def Obligations.BsReadbitReturnsNextBit : Prop :=
  (∀ (s : State) (k : Nat), CursorOk s.params s.bs → s.bs.pos < s.bs.limit → k < 8 →
    s.bs.mask = (1 : BitVec 8) <<< k →
    exec .bsReadbit s =
      .next { s with
        result := if (memRead s.dmem s.bs.pos.toNat).getLsbD k then 1 else 0
        bs := { s.bs with
          pos := if k = 0 then s.bs.pos + 1 else s.bs.pos
          mask := if k = 0 then 128 else (1 : BitVec 8) <<< (k - 1)
          total := s.bs.total + 1 }
        status := statusDone s.status }) ∧
  ∀ s : State, ¬ s.bs.pos < s.bs.limit →
    exec .bsReadbit s = .next { s with status := statusError s.status 0x0B }

/-- BS_GOOD returns 1 exactly when unread bytes remain, BS_INBYTES the offset of the byte with the
next unread bit; on a sound reader that offset is at most the buffer's length. Nothing else changes
(43_bitstream.md R123, R124). -/
def Obligations.BsQueriesReportTheCursor : Prop :=
  ∀ s : State,
    exec .bsGood s =
      .next { s with
        result := if s.bs.pos.toNat < s.bs.limit.toNat then 1 else 0
        status := statusDone s.status } ∧
    exec .bsInbytes s =
      .next { s with
        result := s.bs.pos - s.bs.base
        status := statusDone s.status } ∧
    (CursorOk s.params s.bs →
      (s.bs.pos - s.bs.base).toNat = s.bs.pos.toNat - s.bs.base.toNat ∧
      s.bs.pos.toNat - s.bs.base.toNat ≤ s.bs.limit.toNat - s.bs.base.toNat)

/-- BS_NEXTBYTE and WS_ALIGN do nothing on an aligned cursor, else move it to the next byte's first
bit, the count unchanged, and never past its end when the cursor is sound; neither touches DMEM
(43_bitstream.md R125, R130). -/
def Obligations.AlignMovesToByteBoundary : Prop :=
  ∀ s : State,
    exec .bsNextbyte s =
      .next { s with
        bs := { s.bs with
          pos := if s.bs.mask = 128 then s.bs.pos else s.bs.pos + 1
          mask := 128 }
        status := statusDone s.status } ∧
    exec .wsAlign s =
      .next { s with
        ws := { s.ws with
          pos := if s.ws.mask = 128 then s.ws.pos else s.ws.pos + 1
          mask := 128 }
        status := statusDone s.status } ∧
    (CursorOk s.params s.bs → ∀ t, exec .bsNextbyte s = .next t →
      t.bs.pos.toNat ≤ t.bs.limit.toNat) ∧
    (CursorOk s.params s.ws → ∀ t, exec .wsAlign s = .next t →
      t.ws.pos.toNat ≤ t.ws.limit.toNat)

/-- The reader properties that the spec derives (43_bitstream.md, "Reader properties"): after m
successful reads from a fresh BS_INIT, no BS_NEXTBYTE between, the position is base + m/8, the mask
128 >> (m mod 8) and the count m; for m up to 8L no read fails, read j returns bit 7 - (j mod 8) of
byte j/8 of the buffer, and BS_GOOD is 1 before each read and 0 after the last. -/
def Obligations.ReaderReturnsTheBufferBitByBit : Prop :=
  ∀ (s : State) (base len m : Nat),
    base + len ≤ s.params.memBytes → base + len < 2 ^ 64 → m ≤ 8 * len →
    s.bs = cursorInit base len →
    ∃ t, execTimes .bsReadbit m s = .next t ∧
      t.bs = { base := BitVec.ofNat 64 base, pos := BitVec.ofNat 64 (base + m / 8),
               limit := BitVec.ofNat 64 (base + len), mask := (128 : BitVec 8) >>> (m % 8),
               total := BitVec.ofNat 64 m } ∧
      t.dmem = s.dmem ∧
      (∀ j, m = j + 1 →
        t.result = if (memRead s.dmem (base + j / 8)).getLsbD (7 - j % 8) then 1 else 0) ∧
      ∃ u, exec .bsGood t = .next u ∧ u.result = if m < 8 * len then 1 else 0

/-! ### The writer -/

/-- WS_PUTBIT with bit 0 or 1 and room writes one byte at WS_POS: the bit at the mask's place, the
bits written before it kept, zeros below when it is the byte's first bit, and moves one bit on.
Every other byte is unchanged (43_bitstream.md R128, R129). A bit above 1 raises BAD_ARG, else no
room raises WRITE_OVERFLOW, with nothing changed. -/
def Obligations.WsPutbitWritesOneBit : Prop :=
  (∀ (s : State) (k : Nat), CursorOk s.params s.ws → Memory.wf s.dmem →
    s.argLatch0.toNat ≤ 1 → 1 ≤ bitsLeft s.ws → k < 8 → s.ws.mask = (1 : BitVec 8) <<< k →
    ∃ m : Memory,
      exec .wsPutbit s =
        .next { s with
          dmem := m
          ws := { s.ws with
            pos := if k = 0 then s.ws.pos + 1 else s.ws.pos
            mask := if k = 0 then 128 else (1 : BitVec 8) <<< (k - 1)
            total := s.ws.total + 1 }
          status := statusDone s.status } ∧
      (∀ a, a ≠ s.ws.pos.toNat → memRead m a = memRead s.dmem a) ∧
      ∀ j < 8, (memRead m s.ws.pos.toNat).getLsbD j =
        if j = k then decide (s.argLatch0.toNat = 1)
        else if k = 7 then false else (memRead s.dmem s.ws.pos.toNat).getLsbD j) ∧
  (∀ s : State, 1 < s.argLatch0.toNat →
    exec .wsPutbit s = .next { s with status := statusError s.status 0x02 }) ∧
  ∀ s : State, s.argLatch0.toNat ≤ 1 → CursorOk s.params s.ws → bitsLeft s.ws = 0 →
    exec .wsPutbit s = .next { s with status := statusError s.status 0x0D }

/-! ### The codec -/

/-- The unit counts that the spec derives from its wire format (44_varint.md, "Unit counts"). -/
def Obligations.UnitCountsByMagnitude : Prop :=
  (∀ v : Nat, v < 2 ^ 7 → unitCount v = 1) ∧
  (∀ v j : Nat, 2 ≤ j → j ≤ 9 → 2 ^ (7 * (j - 1)) ≤ v → v < 2 ^ (7 * j) → unitCount v = j) ∧
  (∀ v : Nat, 2 ^ 63 ≤ v → v < 2 ^ 64 → unitCount v = 10) ∧
  (∀ v w : Nat, v ≤ w → unitCount v ≤ unitCount w) ∧
  (∀ v : Nat, v < 2 ^ 64 → unitCount v ≤ 10) ∧
  unitCount 127 = 1 ∧ unitCount 128 = 2 ∧ unitCount 16383 = 2 ∧ unitCount 16384 = 3

/-- The wire format (44_varint.md R140): the stream bits of v are unitCount v units, each bit 7
first, the continuation flag set on every unit but the last, the 7-bit groups of v least
significant first; they add up to v. -/
def Obligations.EncodingIsTerminatedGroups : Prop :=
  ∀ v : Nat, v < 2 ^ 64 →
    ∃ us : List Byte,
      encodeBits v = unitStream us ∧ us.length = unitCount v ∧ terminated us = true ∧
      unitsValue us = v ∧ (∀ k < us.length, (us.getD k 0).toNat % 128 = v / 2 ^ (7 * k) % 128) ∧
      (us.length = 10 → (us.getD 9 0).toNat ≤ 1)

/-- VENC with room for the value's units completes: it writes exactly their bits at the writer's
cursor, keeps the bits before it, leaves zeros in the rest of the last byte, changes no byte it
writes no bit of, and moves the writer 8m bits on (44_varint.md R142). With less room it raises
WRITE_OVERFLOW and changes nothing else. -/
def Obligations.VencWritesTheUnits : Prop :=
  (∀ s : State, CursorOk s.params s.ws → Memory.wf s.dmem →
    8 * (unitCount s.argLatch0.toNat : Int) ≤ bitsLeft s.ws →
    ∃ m : Memory,
      exec .venc s =
        .next { s with
          dmem := m
          ws := cursorForward s.ws (8 * unitCount s.argLatch0.toNat)
          status := statusDone s.status } ∧
      streamBits m (bitPos s.ws) (8 * unitCount s.argLatch0.toNat) =
        encodeBits s.argLatch0.toNat ∧
      (∀ q < bitPos s.ws, streamBit m q = streamBit s.dmem q) ∧
      (∀ q, bitPos s.ws + 8 * unitCount s.argLatch0.toNat ≤ q →
        8 * (q / 8) < bitPos s.ws + 8 * unitCount s.argLatch0.toNat → streamBit m q = false) ∧
      ∀ a, a < s.ws.pos.toNat ∨ bitPos s.ws + 8 * unitCount s.argLatch0.toNat ≤ 8 * a →
        memRead m a = memRead s.dmem a) ∧
  ∀ s : State, bitsLeft s.ws < 8 * (unitCount s.argLatch0.toNat : Int) →
    exec .venc s = .next { s with status := statusError s.status 0x0D }

/-- VDEC on a stream that holds terminated units, canonical or not, at any bit alignment, completes:
RESULT is their value, the reader moves past exactly these units, nothing else changes
(44_varint.md R143). -/
def Obligations.VdecReturnsTheUnitsValue : Prop :=
  ∀ (s : State) (us : List Byte), CursorOk s.params s.bs → terminated us = true →
    us.length ≤ 10 → (us.length = 10 → (us.getD 9 0).toNat ≤ 1) →
    8 * (us.length : Int) ≤ bitsLeft s.bs →
    streamBits s.dmem (bitPos s.bs) (8 * us.length) = unitStream us →
    unitsValue us < 2 ^ 64 ∧
    exec .vdec s =
      .next { s with
        result := BitVec.ofNat 64 (unitsValue us)
        bs := cursorForward s.bs (8 * us.length)
        status := statusDone s.status }

/-- VDEC raises STREAM_EXHAUSTED when fewer than 8 bits are left where a unit must start before a
terminating unit is seen, and VARINT_OVERFLOW when the tenth unit has a group above 1 or its flag
set; the reader and RESULT are then unchanged (44_varint.md R143). -/
def Obligations.VdecRaisesOnMalformedStreams : Prop :=
  (∀ (s : State) (us : List Byte), CursorOk s.params s.bs → continuing us = true →
    us.length < 10 → 8 * (us.length : Int) ≤ bitsLeft s.bs →
    bitsLeft s.bs < 8 * (us.length : Int) + 8 →
    streamBits s.dmem (bitPos s.bs) (8 * us.length) = unitStream us →
    exec .vdec s = .next { s with status := statusError s.status 0x0B }) ∧
  ∀ (s : State) (us : List Byte) (u : Byte), CursorOk s.params s.bs → continuing us = true →
    us.length = 9 → 1 < u.toNat → 80 ≤ bitsLeft s.bs →
    streamBits s.dmem (bitPos s.bs) 80 = unitStream (us ++ [u]) →
    exec .vdec s = .next { s with status := statusError s.status 0x0C }

/-- The codec's round trip, which the spec derives (44_varint.md, "Codec round trip"): VENC v at an
aligned writer with room, WS_ALIGN, BS_INIT over the written bytes, VDEC: VDEC returns v, consumes
exactly 8m bits and leaves good() false. -/
def Obligations.EncodeThenDecodeReturnsTheValue : Prop :=
  ∀ (s : State), Sound s → s.ws.mask = 128 →
    8 * (unitCount s.argLatch0.toNat : Int) ≤ bitsLeft s.ws →
    ∃ s1 s2 s3 s4 s5 : State,
      exec .venc s = .next s1 ∧ exec .wsAlign s1 = .next s2 ∧
      s3 = { s2 with argLatch0 := s.ws.pos,
                     argLatch1 := BitVec.ofNat 64 (unitCount s.argLatch0.toNat) } ∧
      exec .bsInit s3 = .next s4 ∧ exec .vdec s4 = .next s5 ∧
      s5.result = s.argLatch0 ∧
      s5.bs.total = BitVec.ofNat 64 (8 * unitCount s.argLatch0.toNat) ∧
      cursorGood s5.bs = false ∧ s5.bs.pos = s2.ws.pos

/-! ### The host side -/

/-- A host DMEM write of bytes inside DMEM changes exactly these bytes, and a host DMEM read returns
the bytes and changes nothing of the block; an access that leaves DMEM is refused
(20_memory.md R50, R58). The refusal is the model's choice (log entry 14), and so is that an access
of any length is one atomic step (log entry 15). -/
def Obligations.HostMemoryAccess : Prop :=
  ∀ (s : State) (addr : Nat) (bytes : List Byte) (len : Nat),
    (Memory.wf s.dmem → addr + bytes.length ≤ s.params.memBytes →
      ∃ m : Memory,
        hostAct (.memWrite addr bytes) s =
          .next { s with dmem := m, host := { s.host with pc := s.host.pc + 1 } } ∧
        ∀ a, memRead m a =
          if addr ≤ a ∧ a < addr + bytes.length then bytes.getD (a - addr) 0
          else memRead s.dmem a) ∧
    (addr + len ≤ s.params.memBytes →
      hostAct (.memRead addr len) s =
        .next { s with host := { s.host with
          rbytes := (List.range len).map fun k => memRead s.dmem (addr + k)
          pc := s.host.pc + 1 } }) ∧
    (s.params.memBytes < addr + bytes.length →
      hostAct (.memWrite addr bytes) s = .refused .hostDmemOutOfRange) ∧
    (s.params.memBytes < addr + len →
      hostAct (.memRead addr len) s = .refused .hostDmemOutOfRange)

/-- WAIT polls STATUS until DONE reads 1: it stays where it is while DONE = 0 and goes on when
DONE = 1; the read changes nothing of the block (30_encoding.md R78). -/
def Obligations.WaitPollsUntilDone : Prop :=
  ∀ (s : State) (pos : Nat), s.host.pc = pos →
    hostAct (waitOp s.params pos) s =
      .next { s with host := { s.host with
        rdata := regValue s .status
        pc := if s.status.done then pos + 1 else pos } }

/-- A command statement assembles to the writes of its operands into ARG0 to ARG2 in order, the
write of its word to CMD, and WAIT, and is refused with any other number of operands
(30_encoding.md R77, R78). -/
def Obligations.CommandStatementExpands : Prop :=
  ∀ (p : Params) (i : Instr) (operands : List Nat), (∀ a ∈ operands, a < 2 ^ 64) →
    (operands.length = i.operandCount →
      assemble p [.cmd i operands] =
        .ok ((List.zipWith (fun off a => HostOp.regWrite (p.regBase + off) 64 (BitVec.ofNat 64 a))
            [0x040, 0x048, 0x050] operands) ++
          [.regWrite (p.regBase + 0x028) 64 (encode i),
            .branch (.bitClear 1) (p.regBase + 0x030) (operands.length + 1)])) ∧
    (operands.length ≠ i.operandCount →
      assemble p [.cmd i operands] = .error (.illFormed (.cmd i operands)))
end

