-- ==== Sys2Proof/Laws/Memory.lean ====
section
/-! SUPPORT. What the DMEM operations do: read after write, the canonical form, and the bytes of
words and of arrays. -/

namespace Sys2Proof.Machine

/-! ### One byte -/

theorem memRead_of_all_gt (m : Memory) (a : Nat) (h : ∀ c ∈ m, a < c.1) :
    memRead m a = unlistedByte := by
  induction m with
  | nil => rfl
  | cons c rest ih =>
    have h1 := h c (by simp)
    have hne : c.1 ≠ a := by omega
    obtain ⟨k, b⟩ := c
    simp only [memRead]
    rw [if_neg hne]
    exact ih fun d hd => h d (by simp [hd])

theorem memWrite_keys (m : Memory) (a : Nat) (b : Byte) :
    ∀ c ∈ memWrite m a b, c ∈ m ∨ c = (a, b) := by
  induction m with
  | nil => intro c hc; simp only [memWrite] at hc; split at hc <;> simp_all
  | cons d rest ih =>
    obtain ⟨k, x⟩ := d
    intro c hc
    simp only [memWrite] at hc
    split at hc
    · rcases List.mem_cons.mp hc with h | h
      · exact .inl (by simp [h])
      · rcases ih c h with h' | h' <;> simp [h']
    · split at hc
      · split at hc
        · exact .inl (by simp [hc])
        · rcases List.mem_cons.mp hc with h | h <;> simp [h]
      · split at hc
        · exact .inl hc
        · rcases List.mem_cons.mp hc with h | h
          · exact .inr h
          · exact .inl h

/-- A write keeps the canonical form. -/
theorem memWrite_wf {m : Memory} (a : Nat) (b : Byte) (h : Memory.wf m) :
    Memory.wf (memWrite m a b) := by
  obtain ⟨hs, hz⟩ := h
  refine ⟨?_, fun c hc => ?_⟩
  · induction m with
    | nil => simp only [memWrite]; split <;> simp
    | cons d rest ih =>
      obtain ⟨k, x⟩ := d
      have hs' := List.pairwise_cons.mp hs
      have ih' := ih hs'.2 fun c hc => hz c (by simp [hc])
      simp only [memWrite]
      split
      · refine List.pairwise_cons.mpr ⟨fun c hc => ?_, ih'⟩
        rcases memWrite_keys rest a b c hc with h | h
        · exact hs'.1 c h
        · subst h; assumption
      · split
        · split
          · exact hs'.2
          · refine List.pairwise_cons.mpr ⟨fun c hc => ?_, hs'.2⟩
            have := hs'.1 c hc; simp_all
        · split
          · exact hs
          · refine List.pairwise_cons.mpr ⟨fun c hc => ?_, hs⟩
            rcases List.mem_cons.mp hc with h | h
            · subst h; simp only; omega
            · have := hs'.1 c h; simp only at *; omega
  · have key : ∀ m : Memory, (∀ c ∈ m, c.2 ≠ unlistedByte) →
        ∀ c ∈ memWrite m a b, c.2 ≠ unlistedByte := by
      intro m
      induction m with
      | nil => intro _ c hc; simp only [memWrite] at hc; split at hc <;> simp_all
      | cons d rest ih =>
        obtain ⟨k, x⟩ := d
        intro hz c hc
        have ih' := ih fun c hc => hz c (by simp [hc])
        simp only [memWrite] at hc
        split at hc
        · rcases List.mem_cons.mp hc with h | h
          · exact hz c (by simp [h])
          · exact ih' c h
        · split at hc
          · split at hc
            · exact hz c (by simp [hc])
            · rcases List.mem_cons.mp hc with h | h
              · subst h; assumption
              · exact hz c (by simp [h])
          · split at hc
            · exact hz c hc
            · rcases List.mem_cons.mp hc with h | h
              · subst h; assumption
              · exact hz c h
    exact key m hz c hc

/-- A read after a write: the byte written at its address, what was there elsewhere. -/
theorem memRead_memWrite {m : Memory} (h : Memory.wf m) (a : Nat) (b : Byte) (x : Nat) :
    memRead (memWrite m a b) x = if x = a then b else memRead m x := by
  obtain ⟨hs, -⟩ := h
  induction m with
  | nil =>
    simp only [memWrite]
    split <;> rename_i hb <;> simp only [memRead]
    · split <;> simp [hb]
    · by_cases hx : a = x
      · simp [hx]
      · rw [if_neg hx, if_neg (Ne.symm hx)]
  | cons d rest ih =>
    obtain ⟨k, y⟩ := d
    have hs' := List.pairwise_cons.mp hs
    simp only [memWrite]
    split
    · simp only [memRead, ih hs'.2]
      by_cases hk : k = x
      · have : x ≠ a := by omega
        simp [hk, this]
      · simp [hk]
    · split
      · rename_i hka
        subst hka
        have hgt : memRead rest k = unlistedByte := memRead_of_all_gt rest k hs'.1
        split
        · rename_i hb
          by_cases hx : x = k
          · simp [hx, hgt, hb]
          · simp only [memRead, if_neg hx, if_neg (Ne.symm hx)]
        · by_cases hx : x = k
          · simp [memRead, hx]
          · simp only [memRead, if_neg hx, if_neg (Ne.symm hx)]
      · have hlt : a < k := by omega
        have hgt : memRead ((k, y) :: rest) a = unlistedByte := by
          refine memRead_of_all_gt _ a fun c hc => ?_
          rcases List.mem_cons.mp hc with h | h
          · subst h; exact hlt
          · have := hs'.1 c h; simp only at this; omega
        split
        · rename_i hb
          by_cases hx : x = a
          · subst hx; rw [if_pos rfl, hgt, hb]
          · rw [if_neg hx]
        · by_cases hx : x = a
          · simp [memRead, hx]
          · have hx' : a ≠ x := fun h => hx h.symm
            rw [if_neg hx]
            conv => lhs; unfold memRead
            rw [if_neg hx']

theorem memWrite_within {m : Memory} {n : Nat} (a : Nat) (b : Byte) (h : Memory.within m n)
    (ha : a < n) : Memory.within (memWrite m a b) n := by
  intro c hc
  rcases memWrite_keys m a b c hc with h' | h'
  · exact h c h'
  · subst h'; exact ha

/-- Canonical memories that read alike everywhere are equal. -/
theorem memory_ext {m m' : Memory} (h : Memory.wf m) (h' : Memory.wf m')
    (heq : ∀ a, memRead m a = memRead m' a) : m = m' := by
  induction m generalizing m' with
  | nil =>
    cases m' with
    | nil => rfl
    | cons d rest' =>
      have := heq d.1
      simp only [memRead, if_true] at this
      exact absurd this.symm (h'.2 d (by simp))
  | cons c rest ih =>
    cases m' with
    | nil =>
      have := heq c.1
      simp only [memRead, if_true] at this
      exact absurd this (h.2 c (by simp))
    | cons d rest' =>
      have hc := List.pairwise_cons.mp h.1
      have hd := List.pairwise_cons.mp h'.1
      have hkey : c.1 = d.1 := by
        rcases Nat.lt_trichotomy c.1 d.1 with hlt | heq' | hlt
        · have := heq c.1
          rw [memRead_of_all_gt (d :: rest') c.1 (by
            intro e he
            rcases List.mem_cons.mp he with h1 | h1
            · subst h1; exact hlt
            · exact Nat.lt_trans hlt (hd.1 e h1))] at this
          simp only [memRead, if_true] at this
          exact absurd this (h.2 c (by simp))
        · exact heq'
        · have := heq d.1
          rw [memRead_of_all_gt (c :: rest) d.1 (by
            intro e he
            rcases List.mem_cons.mp he with h1 | h1
            · subst h1; exact hlt
            · exact Nat.lt_trans hlt (hc.1 e h1))] at this
          simp only [memRead, if_true] at this
          exact absurd this.symm (h'.2 d (by simp))
      have hval : c.2 = d.2 := by
        have := heq c.1
        simpa only [memRead, hkey, if_true] using this
      have hcd : c = d := Prod.ext hkey hval
      subst hcd
      rw [ih ⟨hc.2, fun e he => h.2 e (by simp [he])⟩ ⟨hd.2, fun e he => h'.2 e (by simp [he])⟩]
      intro a
      by_cases ha : c.1 = a
      · rw [memRead_of_all_gt rest a (fun e he => ha ▸ hc.1 e he),
          memRead_of_all_gt rest' a (fun e he => ha ▸ hd.1 e he)]
      · have := heq a
        simpa only [memRead, if_neg ha] using this

/-! ### Several bytes -/

theorem memWriteBytes_wf {m : Memory} (a : Nat) (bs : List Byte) (h : Memory.wf m) :
    Memory.wf (memWriteBytes m a bs) := by
  induction bs generalizing m a with
  | nil => exact h
  | cons b bs ih => exact ih _ (memWrite_wf a b h)

theorem memWriteBytes_within {m : Memory} {n : Nat} (a : Nat) (bs : List Byte)
    (h : Memory.within m n) (ha : a + bs.length ≤ n) :
    Memory.within (memWriteBytes m a bs) n := by
  induction bs generalizing m a with
  | nil => exact h
  | cons b bs ih =>
    simp only [List.length_cons] at ha
    exact ih _ (memWrite_within a b h (by omega)) (by omega)

/-- A read after bytes were written from `a` up. -/
theorem memRead_memWriteBytes {m : Memory} (h : Memory.wf m) (a : Nat) (bs : List Byte) (x : Nat) :
    memRead (memWriteBytes m a bs) x =
      if a ≤ x ∧ x < a + bs.length then bs.getD (x - a) 0 else memRead m x := by
  induction bs generalizing m a with
  | nil =>
    rw [if_neg (by simp only [List.length_nil]; omega)]
    rfl
  | cons b bs ih =>
    rw [memWriteBytes, ih (memWrite_wf a b h), memRead_memWrite h]
    simp only [List.length_cons]
    by_cases hx : x = a
    · subst hx; simp
    · by_cases hin : a + 1 ≤ x ∧ x < a + 1 + bs.length
      · have h2 : a ≤ x ∧ x < a + (bs.length + 1) := by omega
        rw [if_pos hin, if_pos h2]
        obtain ⟨d, rfl⟩ : ∃ d, x = a + 1 + d := ⟨x - a - 1, by omega⟩
        have e1 : a + 1 + d - (a + 1) = d := by omega
        have e2 : a + 1 + d - a = d + 1 := by omega
        rw [e1, e2]; rfl
      · have h2 : ¬(a ≤ x ∧ x < a + (bs.length + 1)) := by omega
        rw [if_neg hin, if_neg h2, if_neg hx]

/-! ### Words and arrays of them -/

theorem wordBytes_length (w : Word) : (wordBytes w).length = 8 := rfl

theorem memWrite64_wf {m : Memory} (a : Nat) (w : Word) (h : Memory.wf m) :
    Memory.wf (memWrite64 m a w) := memWriteBytes_wf a _ h

/-- Bytes outside the eight of a stored word are unchanged. -/
theorem memRead_memWrite64_out {m : Memory} (h : Memory.wf m) (a : Nat) (w : Word) (x : Nat)
    (hx : x < a ∨ a + 8 ≤ x) : memRead (memWrite64 m a w) x = memRead m x := by
  rw [memWrite64, memRead_memWriteBytes h, wordBytes_length, if_neg (by omega)]

/-- Byte `k` of a stored word (20_memory.md R52). -/
theorem memRead_memWrite64_in {m : Memory} (h : Memory.wf m) (a : Nat) (w : Word) (k : Nat)
    (hk : k < 8) : memRead (memWrite64 m a w) (a + k) = w.extractLsb' (8 * k) 8 := by
  rw [memWrite64, memRead_memWriteBytes h, wordBytes_length, if_pos (by omega)]
  have : a + k - a = k := by omega
  rw [this]
  have hk' : k = 0 ∨ k = 1 ∨ k = 2 ∨ k = 3 ∨ k = 4 ∨ k = 5 ∨ k = 6 ∨ k = 7 := by omega
  rcases hk' with h | h | h | h | h | h | h | h <;> subst h <;> rfl

/-- Two memories that agree on the eight bytes read the same word. -/
theorem memRead64_congr {m m' : Memory} (a : Nat)
    (h : ∀ k < 8, memRead m (a + k) = memRead m' (a + k)) : memRead64 m a = memRead64 m' a := by
  have h0 := h 0 (by omega)
  simp only [Nat.add_zero] at h0
  simp only [memRead64, h0, h 1 (by omega), h 2 (by omega), h 3 (by omega), h 4 (by omega),
    h 5 (by omega), h 6 (by omega), h 7 (by omega)]

/-- A word reads back as it was written. -/
theorem memRead64_memWrite64 {m : Memory} (h : Memory.wf m) (a : Nat) (w : Word) :
    memRead64 (memWrite64 m a w) a = w := by
  have h0 := memRead_memWrite64_in h a w 0 (by omega)
  simp only [Nat.add_zero] at h0
  simp only [memRead64, h0, memRead_memWrite64_in h a w 1 (by omega),
    memRead_memWrite64_in h a w 2 (by omega), memRead_memWrite64_in h a w 3 (by omega),
    memRead_memWrite64_in h a w 4 (by omega), memRead_memWrite64_in h a w 5 (by omega),
    memRead_memWrite64_in h a w 6 (by omega), memRead_memWrite64_in h a w 7 (by omega)]
  apply BitVec.eq_of_getLsbD_eq
  intro i hi
  simp only [BitVec.getLsbD_append, BitVec.getLsbD_extractLsb']
  split_ifs <;> (rw [decide_eq_true (by omega), Bool.true_and]; congr 1; omega)

/-- A word elsewhere reads as before. -/
theorem memRead64_memWrite64_out {m : Memory} (h : Memory.wf m) (a : Nat) (w : Word) (x : Nat)
    (hx : x + 8 ≤ a ∨ a + 8 ≤ x) : memRead64 (memWrite64 m a w) x = memRead64 m x :=
  memRead64_congr x fun k hk => memRead_memWrite64_out h a w (x + k) (by omega)

theorem storeArray_wf {m : Memory} (a step : Nat) (vs : List F64) (h : Memory.wf m) :
    Memory.wf (storeArray m a step vs) := by
  induction vs generalizing m a with
  | nil => exact h
  | cons v vs ih => exact ih _ (memWrite64_wf a v h)

theorem storeArray_within {m : Memory} {n : Nat} (a step : Nat) (vs : List F64)
    (h : Memory.within m n) (ha : ∀ k < vs.length, a + step * k + 8 ≤ n) :
    Memory.within (storeArray m a step vs) n := by
  induction vs generalizing m a with
  | nil => exact h
  | cons v vs ih =>
    refine ih _ (memWriteBytes_within a _ h ?_) fun k hk => ?_
    · have := ha 0 (by simp); rw [wordBytes_length]; omega
    · have := ha (k + 1) (by simp; omega)
      rw [Nat.mul_add] at this; omega

/-- Bytes outside every stored element are unchanged. -/
theorem memRead_storeArray_out {m : Memory} (h : Memory.wf m) (a step : Nat) (vs : List F64)
    (x : Nat) (hx : ∀ k < vs.length, x < a + step * k ∨ a + step * k + 8 ≤ x) :
    memRead (storeArray m a step vs) x = memRead m x := by
  induction vs generalizing m a with
  | nil => rfl
  | cons v vs ih =>
    rw [storeArray, ih (m := storeF64 m a v) (memWrite64_wf a v h)]
    · refine memRead_memWrite64_out h a v x ?_
      have := hx 0 (by simp); omega
    · intro k hk
      have := hx (k + 1) (by simp; omega)
      rw [Nat.mul_add] at this; omega

/-- Elements at least 8 bytes apart read back as they were stored. -/
theorem loadF64_storeArray {m : Memory} (h : Memory.wf m) (a step : Nat) (vs : List F64)
    (hstep : 8 ≤ step) (k : Nat) (hk : k < vs.length) :
    loadF64 (storeArray m a step vs) (a + step * k) = vs.getD k 0 := by
  induction vs generalizing m a k with
  | nil => simp at hk
  | cons v vs ih =>
    rw [storeArray]
    cases k with
    | zero =>
      rw [loadF64, memRead64_congr (m' := storeF64 m a v), storeF64, Nat.mul_zero, Nat.add_zero,
        memRead64_memWrite64 h]
      · rfl
      · intro j hj
        refine memRead_storeArray_out (memWrite64_wf a v h) _ _ _ _ fun i _ => ?_
        left
        have : 0 ≤ step * i := Nat.zero_le _
        omega
    | succ k =>
      have e : a + step * (k + 1) = a + step + step * k := by rw [Nat.mul_add]; omega
      rw [e, ih (m := storeF64 m a v) (memWrite64_wf a v h) (a + step) k (by simpa using hk)]
      rfl

theorem loadArray_length (m : Memory) (a step n : Nat) : (loadArray m a step n).length = n := by
  simp [loadArray]

theorem loadArray_getD (m : Memory) (a step n k : Nat) (hk : k < n) :
    (loadArray m a step n).getD k 0 = loadF64 m (a + step * k) := by
  simp [loadArray, List.getD, hk]

end Sys2Proof.Machine
end

