-- ==== Sys2Proof/Laws/State.lean ====
section
/-! SUPPORT. What each update of the state leaves in each field: one lemma per field per update. -/

namespace Sys2Proof.Machine

variable (s : State) (e : CmdError) (w : Word) (pc : Nat)

@[simp] theorem complete_params : (complete s).params = s.params := rfl
@[simp] theorem complete_irqEn : (complete s).irqEn = s.irqEn := rfl
@[simp] theorem complete_status : (complete s).status =
    { s.status with busy := false, done := true } := rfl
@[simp] theorem complete_arg0 : (complete s).arg0 = s.arg0 := rfl
@[simp] theorem complete_arg1 : (complete s).arg1 = s.arg1 := rfl
@[simp] theorem complete_arg2 : (complete s).arg2 = s.arg2 := rfl
@[simp] theorem complete_result : (complete s).result = s.result := rfl
@[simp] theorem complete_strat : (complete s).strat = s.strat := rfl
@[simp] theorem complete_fbInfo : (complete s).fbInfo = s.fbInfo := rfl
@[simp] theorem complete_coef : (complete s).coef = s.coef := rfl
@[simp] theorem complete_bs : (complete s).bs = s.bs := rfl
@[simp] theorem complete_ws : (complete s).ws = s.ws := rfl
@[simp] theorem complete_scratch : (complete s).scratch = s.scratch := rfl
@[simp] theorem complete_cmdLatch : (complete s).cmdLatch = s.cmdLatch := rfl
@[simp] theorem complete_argLatch0 : (complete s).argLatch0 = s.argLatch0 := rfl
@[simp] theorem complete_argLatch1 : (complete s).argLatch1 = s.argLatch1 := rfl
@[simp] theorem complete_argLatch2 : (complete s).argLatch2 = s.argLatch2 := rfl
@[simp] theorem complete_dmem : (complete s).dmem = s.dmem := rfl
@[simp] theorem complete_draws : (complete s).draws = s.draws := rfl
@[simp] theorem complete_host : (complete s).host = s.host := rfl
@[simp] theorem complete_turns : (complete s).turns = s.turns := rfl

@[simp] theorem raiseError_params : (raiseError e s).params = s.params := rfl
@[simp] theorem raiseError_irqEn : (raiseError e s).irqEn = s.irqEn := rfl
@[simp] theorem raiseError_status : (raiseError e s).status =
    { s.status with busy := false, done := true, err := true, errcode := e.code } := rfl
@[simp] theorem raiseError_arg0 : (raiseError e s).arg0 = s.arg0 := rfl
@[simp] theorem raiseError_arg1 : (raiseError e s).arg1 = s.arg1 := rfl
@[simp] theorem raiseError_arg2 : (raiseError e s).arg2 = s.arg2 := rfl
@[simp] theorem raiseError_result : (raiseError e s).result = s.result := rfl
@[simp] theorem raiseError_strat : (raiseError e s).strat = s.strat := rfl
@[simp] theorem raiseError_fbInfo : (raiseError e s).fbInfo = s.fbInfo := rfl
@[simp] theorem raiseError_coef : (raiseError e s).coef = s.coef := rfl
@[simp] theorem raiseError_bs : (raiseError e s).bs = s.bs := rfl
@[simp] theorem raiseError_ws : (raiseError e s).ws = s.ws := rfl
@[simp] theorem raiseError_scratch : (raiseError e s).scratch = s.scratch := rfl
@[simp] theorem raiseError_cmdLatch : (raiseError e s).cmdLatch = s.cmdLatch := rfl
@[simp] theorem raiseError_argLatch0 : (raiseError e s).argLatch0 = s.argLatch0 := rfl
@[simp] theorem raiseError_argLatch1 : (raiseError e s).argLatch1 = s.argLatch1 := rfl
@[simp] theorem raiseError_argLatch2 : (raiseError e s).argLatch2 = s.argLatch2 := rfl
@[simp] theorem raiseError_dmem : (raiseError e s).dmem = s.dmem := rfl
@[simp] theorem raiseError_draws : (raiseError e s).draws = s.draws := rfl
@[simp] theorem raiseError_host : (raiseError e s).host = s.host := rfl
@[simp] theorem raiseError_turns : (raiseError e s).turns = s.turns := rfl

@[simp] theorem clearError_params : (clearError s).params = s.params := rfl
@[simp] theorem clearError_irqEn : (clearError s).irqEn = s.irqEn := rfl
@[simp] theorem clearError_status : (clearError s).status =
    { s.status with err := false, errcode := 0 } := rfl
@[simp] theorem clearError_arg0 : (clearError s).arg0 = s.arg0 := rfl
@[simp] theorem clearError_arg1 : (clearError s).arg1 = s.arg1 := rfl
@[simp] theorem clearError_arg2 : (clearError s).arg2 = s.arg2 := rfl
@[simp] theorem clearError_result : (clearError s).result = s.result := rfl
@[simp] theorem clearError_strat : (clearError s).strat = s.strat := rfl
@[simp] theorem clearError_fbInfo : (clearError s).fbInfo = s.fbInfo := rfl
@[simp] theorem clearError_coef : (clearError s).coef = s.coef := rfl
@[simp] theorem clearError_bs : (clearError s).bs = s.bs := rfl
@[simp] theorem clearError_ws : (clearError s).ws = s.ws := rfl
@[simp] theorem clearError_scratch : (clearError s).scratch = s.scratch := rfl
@[simp] theorem clearError_cmdLatch : (clearError s).cmdLatch = s.cmdLatch := rfl
@[simp] theorem clearError_argLatch0 : (clearError s).argLatch0 = s.argLatch0 := rfl
@[simp] theorem clearError_argLatch1 : (clearError s).argLatch1 = s.argLatch1 := rfl
@[simp] theorem clearError_argLatch2 : (clearError s).argLatch2 = s.argLatch2 := rfl
@[simp] theorem clearError_dmem : (clearError s).dmem = s.dmem := rfl
@[simp] theorem clearError_draws : (clearError s).draws = s.draws := rfl
@[simp] theorem clearError_host : (clearError s).host = s.host := rfl
@[simp] theorem clearError_turns : (clearError s).turns = s.turns := rfl

@[simp] theorem overrun_params : (overrun s).params = s.params := rfl
@[simp] theorem overrun_irqEn : (overrun s).irqEn = s.irqEn := rfl
@[simp] theorem overrun_status : (overrun s).status = { s.status with overrun := true } := rfl
@[simp] theorem overrun_arg0 : (overrun s).arg0 = s.arg0 := rfl
@[simp] theorem overrun_arg1 : (overrun s).arg1 = s.arg1 := rfl
@[simp] theorem overrun_arg2 : (overrun s).arg2 = s.arg2 := rfl
@[simp] theorem overrun_result : (overrun s).result = s.result := rfl
@[simp] theorem overrun_strat : (overrun s).strat = s.strat := rfl
@[simp] theorem overrun_fbInfo : (overrun s).fbInfo = s.fbInfo := rfl
@[simp] theorem overrun_coef : (overrun s).coef = s.coef := rfl
@[simp] theorem overrun_bs : (overrun s).bs = s.bs := rfl
@[simp] theorem overrun_ws : (overrun s).ws = s.ws := rfl
@[simp] theorem overrun_scratch : (overrun s).scratch = s.scratch := rfl
@[simp] theorem overrun_cmdLatch : (overrun s).cmdLatch = s.cmdLatch := rfl
@[simp] theorem overrun_argLatch0 : (overrun s).argLatch0 = s.argLatch0 := rfl
@[simp] theorem overrun_argLatch1 : (overrun s).argLatch1 = s.argLatch1 := rfl
@[simp] theorem overrun_argLatch2 : (overrun s).argLatch2 = s.argLatch2 := rfl
@[simp] theorem overrun_dmem : (overrun s).dmem = s.dmem := rfl
@[simp] theorem overrun_draws : (overrun s).draws = s.draws := rfl
@[simp] theorem overrun_host : (overrun s).host = s.host := rfl
@[simp] theorem overrun_turns : (overrun s).turns = s.turns := rfl

@[simp] theorem issue_params : (issue w s).params = s.params := rfl
@[simp] theorem issue_irqEn : (issue w s).irqEn = s.irqEn := rfl
@[simp] theorem issue_status : (issue w s).status =
    { s.status with
      busy := true, done := false, err := false, errcode := 0, lastOpc := opcOf w } := rfl
@[simp] theorem issue_arg0 : (issue w s).arg0 = s.arg0 := rfl
@[simp] theorem issue_arg1 : (issue w s).arg1 = s.arg1 := rfl
@[simp] theorem issue_arg2 : (issue w s).arg2 = s.arg2 := rfl
@[simp] theorem issue_result : (issue w s).result = s.result := rfl
@[simp] theorem issue_strat : (issue w s).strat = s.strat := rfl
@[simp] theorem issue_fbInfo : (issue w s).fbInfo = s.fbInfo := rfl
@[simp] theorem issue_coef : (issue w s).coef = s.coef := rfl
@[simp] theorem issue_bs : (issue w s).bs = s.bs := rfl
@[simp] theorem issue_ws : (issue w s).ws = s.ws := rfl
@[simp] theorem issue_scratch : (issue w s).scratch = s.scratch := rfl
@[simp] theorem issue_cmdLatch : (issue w s).cmdLatch = w := rfl
@[simp] theorem issue_argLatch0 : (issue w s).argLatch0 = s.arg0 := rfl
@[simp] theorem issue_argLatch1 : (issue w s).argLatch1 = s.arg1 := rfl
@[simp] theorem issue_argLatch2 : (issue w s).argLatch2 = s.arg2 := rfl
@[simp] theorem issue_dmem : (issue w s).dmem = s.dmem := rfl
@[simp] theorem issue_draws : (issue w s).draws = s.draws := rfl
@[simp] theorem issue_host : (issue w s).host = s.host := rfl
@[simp] theorem issue_turns : (issue w s).turns = s.turns := rfl

@[simp] theorem applyReset_params : (applyReset s).params = s.params := rfl
@[simp] theorem applyReset_irqEn : (applyReset s).irqEn = false := rfl
@[simp] theorem applyReset_status : (applyReset s).status = Status.reset := rfl
@[simp] theorem applyReset_arg0 : (applyReset s).arg0 = 0 := rfl
@[simp] theorem applyReset_arg1 : (applyReset s).arg1 = 0 := rfl
@[simp] theorem applyReset_arg2 : (applyReset s).arg2 = 0 := rfl
@[simp] theorem applyReset_result : (applyReset s).result = 0 := rfl
@[simp] theorem applyReset_strat : (applyReset s).strat = .direct := rfl
@[simp] theorem applyReset_fbInfo : (applyReset s).fbInfo = FbInfo.reset := rfl
@[simp] theorem applyReset_coef : (applyReset s).coef = FilterBank.reset s.params.maxTaps := rfl
@[simp] theorem applyReset_bs : (applyReset s).bs = Cursor.reset := rfl
@[simp] theorem applyReset_ws : (applyReset s).ws = Cursor.reset := rfl
@[simp] theorem applyReset_scratch : (applyReset s).scratch = s.draws := rfl
@[simp] theorem applyReset_cmdLatch : (applyReset s).cmdLatch = 0 := rfl
@[simp] theorem applyReset_argLatch0 : (applyReset s).argLatch0 = 0 := rfl
@[simp] theorem applyReset_argLatch1 : (applyReset s).argLatch1 = 0 := rfl
@[simp] theorem applyReset_argLatch2 : (applyReset s).argLatch2 = 0 := rfl
@[simp] theorem applyReset_dmem : (applyReset s).dmem = s.dmem := rfl
@[simp] theorem applyReset_draws : (applyReset s).draws = s.draws + 1 := rfl
@[simp] theorem applyReset_host : (applyReset s).host = s.host := rfl
@[simp] theorem applyReset_turns : (applyReset s).turns = s.turns := rfl

@[simp] theorem hostAt_params : (hostAt pc s).params = s.params := rfl
@[simp] theorem hostAt_irqEn : (hostAt pc s).irqEn = s.irqEn := rfl
@[simp] theorem hostAt_status : (hostAt pc s).status = s.status := rfl
@[simp] theorem hostAt_arg0 : (hostAt pc s).arg0 = s.arg0 := rfl
@[simp] theorem hostAt_arg1 : (hostAt pc s).arg1 = s.arg1 := rfl
@[simp] theorem hostAt_arg2 : (hostAt pc s).arg2 = s.arg2 := rfl
@[simp] theorem hostAt_result : (hostAt pc s).result = s.result := rfl
@[simp] theorem hostAt_strat : (hostAt pc s).strat = s.strat := rfl
@[simp] theorem hostAt_fbInfo : (hostAt pc s).fbInfo = s.fbInfo := rfl
@[simp] theorem hostAt_coef : (hostAt pc s).coef = s.coef := rfl
@[simp] theorem hostAt_bs : (hostAt pc s).bs = s.bs := rfl
@[simp] theorem hostAt_ws : (hostAt pc s).ws = s.ws := rfl
@[simp] theorem hostAt_scratch : (hostAt pc s).scratch = s.scratch := rfl
@[simp] theorem hostAt_cmdLatch : (hostAt pc s).cmdLatch = s.cmdLatch := rfl
@[simp] theorem hostAt_argLatch0 : (hostAt pc s).argLatch0 = s.argLatch0 := rfl
@[simp] theorem hostAt_argLatch1 : (hostAt pc s).argLatch1 = s.argLatch1 := rfl
@[simp] theorem hostAt_argLatch2 : (hostAt pc s).argLatch2 = s.argLatch2 := rfl
@[simp] theorem hostAt_dmem : (hostAt pc s).dmem = s.dmem := rfl
@[simp] theorem hostAt_draws : (hostAt pc s).draws = s.draws := rfl
@[simp] theorem hostAt_host : (hostAt pc s).host = { s.host with pc := pc } := rfl
@[simp] theorem hostAt_turns : (hostAt pc s).turns = s.turns := rfl

end Sys2Proof.Machine
end

