-- ==== Sys2Proof/Laws/Ops.lean ====
section
/-! SUPPORT. What the shared operations can do, said once: a check, a command's end, a cursor's
move, and the one-bit and many-bit primitives of the reader and the writer. -/

namespace Sys2Proof.Machine

/-! ### Command rules -/

@[simp] theorem check_bind {α : Type} (bad : Prop) [Decidable bad] (e : CmdError)
    (f : Unit → Cmd α) :
    (check bad e >>= f) = if bad then .error (.error e) else f () := by
  unfold check; split <;> rfl

@[simp] theorem cmd_ok_bind {α β : Type} (a : α) (f : α → Cmd β) :
    ((Except.ok a : Cmd α) >>= f) = f a := rfl

@[simp] theorem cmd_error_bind {α β : Type} (x : Stop) (f : α → Cmd β) :
    ((Except.error x : Cmd α) >>= f) = .error x := rfl

@[simp] theorem cmd_pure {α : Type} (a : α) : (pure a : Cmd α) = .ok a := rfl

@[simp] theorem finish_ok (s t : State) : finish s (.ok t) = .next (complete t) := rfl

@[simp] theorem finish_error (s : State) (e : CmdError) :
    finish s (.error (.error e)) = .next (raiseError e s) := rfl

@[simp] theorem finish_fault (s : State) (f : Fault) :
    finish s (.error (.fault f)) = .fault f := rfl

/-- What a bind of two command rules ended with. -/
theorem cmd_bind_ok {α β : Type} {x : Cmd α} {f : α → Cmd β} {b : β} (h : (x >>= f) = .ok b) :
    ∃ a, x = .ok a ∧ f a = .ok b := by
  cases x with
  | error e => cases h
  | ok a => exact ⟨a, rfl, h⟩

/-- Everything the engine's step on a command rule can answer (60_exceptions.md R160). -/
theorem finish_next {s t : State} {r : Cmd State} (h : finish s r = .next t) :
    (∃ u, r = .ok u ∧ t = complete u) ∨ ∃ e, r = .error (.error e) ∧ t = raiseError e s := by
  cases r with
  | ok u => cases h; exact .inl ⟨u, rfl, rfl⟩
  | error x =>
    cases x with
    | error e => cases h; exact .inr ⟨e, rfl, rfl⟩
    | fault f => cases h

theorem finish_not_refused {s : State} {r : Cmd State} {x : Refusal} :
    finish s r ≠ .refused x := by
  cases r with
  | ok u => simp
  | error y => cases y <;> simp

/-- The codes are the listed ones, none of them 0 (60_exceptions.md R150). -/
theorem code_range (e : CmdError) : e.code ≠ 0 ∧ e.code.toNat ≤ 0x0D := by
  cases e <;> decide

/-! ### Cursors by stream position -/

theorem log2m_le (mask : BitVec 8) : log2m mask ≤ 7 := by
  unfold log2m
  by_cases h : mask.toNat = 0
  · simp [h]
  · exact Nat.lt_succ_iff.mp ((Nat.log2_lt h).mpr mask.isLt)

/-- A legal mask is the single bit `7 - log2m` places below the top (10_state.md R35 (b)). -/
theorem mask_shift {mask : BitVec 8} (h : mask ∈ [1, 2, 4, 8, 16, 32, 64, 128]) :
    mask = (128 : BitVec 8) >>> (7 - log2m mask) := by
  simp only [List.mem_cons, List.not_mem_nil, or_false] at h
  rcases h with h | h | h | h | h | h | h | h <;> subst h <;> decide

theorem shift_mask_mem {r : Nat} (h : r < 8) :
    ((128 : BitVec 8) >>> r) ∈ ([1, 2, 4, 8, 16, 32, 64, 128] : List (BitVec 8)) := by
  have : r = 0 ∨ r = 1 ∨ r = 2 ∨ r = 3 ∨ r = 4 ∨ r = 5 ∨ r = 6 ∨ r = 7 := by omega
  rcases this with h | h | h | h | h | h | h | h <;> subst h <;> decide

theorem log2m_shift {r : Nat} (h : r < 8) : log2m ((128 : BitVec 8) >>> r) = 7 - r := by
  have : r = 0 ∨ r = 1 ∨ r = 2 ∨ r = 3 ∨ r = 4 ∨ r = 5 ∨ r = 6 ∨ r = 7 := by omega
  rcases this with h | h | h | h | h | h | h | h <;> subst h <;> decide

theorem bitPos_div (c : Cursor) : bitPos c / 8 = c.pos.toNat := by unfold bitPos; omega

theorem bitPos_mod (c : Cursor) : bitPos c % 8 = 7 - log2m c.mask := by unfold bitPos; omega

theorem mask_eq_shift_bitPos {c : Cursor} (h : c.mask ∈ [1, 2, 4, 8, 16, 32, 64, 128]) :
    c.mask = (128 : BitVec 8) >>> (bitPos c % 8) := by rw [bitPos_mod]; exact mask_shift h

/-- BS_BITS_LEFT and WS_ROOM by stream position (10_state.md R37). -/
theorem bitsLeft_eq (c : Cursor) : bitsLeft c = 8 * (c.limit.toNat : Int) - bitPos c := by
  have := log2m_le c.mask
  unfold bitsLeft bitPos
  omega

@[simp] theorem cursorForward_base (c : Cursor) (k : Nat) : (cursorForward c k).base = c.base :=
  rfl

@[simp] theorem cursorForward_limit (c : Cursor) (k : Nat) : (cursorForward c k).limit = c.limit :=
  rfl

theorem cursorForward_mask_mem (c : Cursor) (k : Nat) :
    (cursorForward c k).mask ∈ [1, 2, 4, 8, 16, 32, 64, 128] :=
  shift_mask_mem (Nat.mod_lt _ (by omega))

theorem bitPos_cursorForward {c : Cursor} {k : Nat} (h : (bitPos c + k) / 8 < 2 ^ 64) :
    bitPos (cursorForward c k) = bitPos c + k := by
  have hl := log2m_shift (r := (bitPos c + k) % 8) (Nat.mod_lt _ (by omega))
  have e : bitPos (cursorForward c k) = 8 * (BitVec.ofNat 64 ((bitPos c + k) / 8)).toNat +
      (7 - log2m ((128 : BitVec 8) >>> ((bitPos c + k) % 8))) := rfl
  rw [e, hl, BitVec.toNat_ofNat, Nat.mod_eq_of_lt h]
  omega

theorem cursorForward_zero {c : Cursor} (h : c.mask ∈ [1, 2, 4, 8, 16, 32, 64, 128]) :
    cursorForward c 0 = c := by
  have hm := mask_eq_shift_bitPos h
  have hp : BitVec.ofNat 64 (bitPos c / 8) = c.pos := by rw [bitPos_div]; simp
  unfold cursorForward
  rw [Nat.add_zero, hp, ← hm, BitVec.add_zero]

theorem cursorForward_add {c : Cursor} {j k : Nat} (h : (bitPos c + j) / 8 < 2 ^ 64) :
    cursorForward (cursorForward c j) k = cursorForward c (j + k) := by
  have hp := bitPos_cursorForward h
  have e : cursorForward (cursorForward c j) k =
      { cursorForward c j with
        pos := BitVec.ofNat 64 ((bitPos (cursorForward c j) + k) / 8)
        mask := (128 : BitVec 8) >>> ((bitPos (cursorForward c j) + k) % 8)
        total := (cursorForward c j).total + BitVec.ofNat 64 k } := rfl
  rw [e, hp]
  simp only [cursorForward, Nat.add_assoc, BitVec.ofNat_add, BitVec.add_assoc]

theorem shift_ne_one {r : Nat} (h : r < 7) : (128 : BitVec 8) >>> r ≠ 1 := by
  have : r = 0 ∨ r = 1 ∨ r = 2 ∨ r = 3 ∨ r = 4 ∨ r = 5 ∨ r = 6 := by omega
  rcases this with h | h | h | h | h | h | h <;> subst h <;> decide

/-- One bit on is one stream position on (43_bitstream.md R120, R129). -/
theorem cursorAdvance_eq {c : Cursor} (h : c.mask ∈ [1, 2, 4, 8, 16, 32, 64, 128]) :
    cursorAdvance c = cursorForward c 1 := by
  have hd := bitPos_div c
  have hm := mask_eq_shift_bitPos h
  have hr : bitPos c % 8 < 8 := Nat.mod_lt _ (by omega)
  unfold cursorAdvance cursorForward
  by_cases h7 : bitPos c % 8 = 7
  · have e2 : (bitPos c + 1) / 8 = c.pos.toNat + 1 := by omega
    have e3 : (bitPos c + 1) % 8 = 0 := by omega
    have e4 : c.mask = 1 := by rw [hm, h7]; decide
    rw [if_pos e4, e2, e3, BitVec.ofNat_add, BitVec.ofNat_toNat, BitVec.setWidth_eq]
    rfl
  · have e2 : (bitPos c + 1) / 8 = c.pos.toNat := by omega
    have e3 : (bitPos c + 1) % 8 = bitPos c % 8 + 1 := by omega
    have e4 : c.mask ≠ 1 := by rw [hm]; exact shift_ne_one (by omega)
    rw [if_neg e4, e2, e3, BitVec.ofNat_toNat, BitVec.setWidth_eq, BitVec.shiftRight_add, ← hm]
    rfl

/-- A cursor moved within its buffer keeps the invariants of 10_state.md R35. -/
theorem cursorForward_ok {p : Params} {c : Cursor} (hc : CursorOk p c) {k : Nat}
    (hk : bitPos c + k ≤ 8 * c.limit.toNat) : CursorOk p (cursorForward c k) := by
  have hlim := c.limit.isLt
  have hpos : (cursorForward c k).pos.toNat = (bitPos c + k) / 8 := by
    show (BitVec.ofNat 64 ((bitPos c + k) / 8)).toNat = _
    rw [BitVec.toNat_ofNat, Nat.mod_eq_of_lt (by omega)]
  have hd := bitPos_div c
  have h1 := hc.base_le_pos
  refine ⟨?_, ?_, hc.limit_le_mem, cursorForward_mask_mem c k, fun heq => ?_⟩
  · rw [hpos, cursorForward_base]; omega
  · rw [hpos, cursorForward_limit]; omega
  · have : (cursorForward c k).pos.toNat = c.limit.toNat := by rw [heq]; rfl
    rw [hpos] at this
    have e : (bitPos c + k) % 8 = 0 := by omega
    show (128 : BitVec 8) >>> ((bitPos c + k) % 8) = 128
    rw [e]; decide

/-- Every bit position of a cursor lies within its buffer (10_state.md R35). -/
theorem bitPos_le_limit {p : Params} {c : Cursor} (hc : CursorOk p c) :
    bitPos c ≤ 8 * c.limit.toNat := by
  have h := log2m_le c.mask
  have h1 := hc.pos_le_limit
  by_cases heq : c.pos = c.limit
  · have e : log2m c.mask = 7 := by rw [hc.mask_at_limit heq]; decide
    unfold bitPos; rw [e, heq]; omega
  · have : c.pos.toNat ≠ c.limit.toNat := fun h => heq (BitVec.eq_of_toNat_eq h)
    unfold bitPos; omega

/-- The boundary move keeps the invariants (43_bitstream.md R125, R130). -/
theorem cursorAlign_ok {p : Params} {c : Cursor} (hc : CursorOk p c) :
    CursorOk p (cursorAlign c) := by
  unfold cursorAlign
  split
  · exact hc
  · rename_i hm
    have hne : c.pos ≠ c.limit := fun h => hm (hc.mask_at_limit h)
    have hne' : c.pos.toNat ≠ c.limit.toNat := fun h => hne (BitVec.eq_of_toNat_eq h)
    have h1 := hc.base_le_pos
    have h2 := hc.pos_le_limit
    have hlt := c.limit.isLt
    have hpos : (c.pos + 1).toNat = c.pos.toNat + 1 := by
      rw [BitVec.toNat_add]
      show (c.pos.toNat + 1) % 2 ^ 64 = _
      rw [Nat.mod_eq_of_lt (by omega)]
    refine ⟨?_, ?_, hc.limit_le_mem, by simp, fun _ => rfl⟩
    · show c.base.toNat ≤ (c.pos + 1).toNat; omega
    · show (c.pos + 1).toNat ≤ c.limit.toNat; omega

/-- A cursor set over a buffer that is in range is sound, whatever MEM_BYTES is
(43_bitstream.md R121, R127). -/
theorem cursorInit_ok {p : Params} {base len : Nat} (h : base + len ≤ p.memBytes)
    (hb : base + len < 2 ^ 64) : CursorOk p (cursorInit base len) := by
  have e1 : (BitVec.ofNat 64 base).toNat = base := by
    rw [BitVec.toNat_ofNat, Nat.mod_eq_of_lt (by omega)]
  have e2 : (BitVec.ofNat 64 (base + len)).toNat = base + len := by
    rw [BitVec.toNat_ofNat, Nat.mod_eq_of_lt hb]
  refine ⟨?_, ?_, ?_, by simp [cursorInit], fun _ => rfl⟩
  · show (BitVec.ofNat 64 base).toNat ≤ (BitVec.ofNat 64 base).toNat; omega
  · show (BitVec.ofNat 64 base).toNat ≤ (BitVec.ofNat 64 (base + len)).toNat; omega
  · show (BitVec.ofNat 64 (base + len)).toNat ≤ p.memBytes; omega

/-- On a sound cursor the offset is the distance from the base, at most the buffer's length
(43_bitstream.md R124). -/
theorem cursorOffset_toNat {p : Params} {c : Cursor} (hc : CursorOk p c) :
    (cursorOffset c).toNat = c.pos.toNat - c.base.toNat :=
  BitVec.toNat_sub_of_le hc.base_le_pos

end Sys2Proof.Machine
end

