-- ==== Sys2Proof/Laws/Stream.lean ====
section
/-! SUPPORT. What the reader's and the writer's primitives do on a sound cursor, in stream order:
one bit, many bits, one unit. -/

namespace Sys2Proof.Machine

/-! ### Reading -/

/-- A byte under the mask `r` places below the top is bit `7 - r`. -/
theorem and_mask_ne_zero (b : Byte) {r : Nat} (h : r < 8) :
    decide (b &&& ((128 : BitVec 8) >>> r) ≠ 0) = b.getLsbD (7 - r) := by
  revert b
  have : r = 0 ∨ r = 1 ∨ r = 2 ∨ r = 3 ∨ r = 4 ∨ r = 5 ∨ r = 6 ∨ r = 7 := by omega
  rcases this with h | h | h | h | h | h | h | h <;> subst h <;> decide

/-- ReadBitPrim reads the next bit in stream order and moves one bit on (43_bitstream.md R120). -/
theorem readBitPrim_eq {p : Params} {m : Memory} {c : Cursor}
    (hm : c.mask ∈ [1, 2, 4, 8, 16, 32, 64, 128]) (hp : c.pos.toNat < p.memBytes) :
    readBitPrim p m c = .ok (streamBit m (bitPos c), cursorForward c 1) := by
  have h := mask_eq_shift_bitPos hm
  have hr : bitPos c % 8 < 8 := Nat.mod_lt _ (by omega)
  have hb := and_mask_ne_zero (memRead m c.pos.toNat) hr
  rw [← h] at hb
  rw [readBitPrim, readByte, if_pos hp, cmd_ok_bind, cmd_pure, cursorAdvance_eq hm, hb, streamBit,
    bitPos_div]

/-- `count` bits of DMEM in stream order as a number, the first bit the most significant. -/
def bitsValue (bits : List Bool) : Nat := bits.foldl (fun u b => 2 * u + b.toNat) 0

theorem streamBits_succ (m : Memory) (q n : Nat) :
    streamBits m q (n + 1) = streamBit m q :: streamBits m (q + 1) n := by
  unfold streamBits
  rw [List.range_succ_eq_map, List.map_cons, List.map_map, Nat.add_zero]
  congr 1
  refine List.map_congr_left fun j _ => ?_
  show streamBit m (q + (j + 1)) = streamBit m (q + 1 + j)
  congr 1; omega

theorem streamBits_length (m : Memory) (q n : Nat) : (streamBits m q n).length = n := by
  simp [streamBits]

theorem streamBits_add (m : Memory) (q a b : Nat) :
    streamBits m q (a + b) = streamBits m q a ++ streamBits m (q + a) b := by
  induction a generalizing q with
  | zero => simp [streamBits]
  | succ a ih =>
    rw [Nat.succ_add, streamBits_succ, streamBits_succ, ih, List.cons_append]
    have : q + 1 + a = q + (a + 1) := by omega
    rw [this]

/-- Reading `n` bits that lie inside DMEM (44_varint.md R143). -/
theorem readBits_eq {p : Params} {m : Memory} {c : Cursor} (n u : Nat)
    (hm : c.mask ∈ [1, 2, 4, 8, 16, 32, 64, 128]) (hp : bitPos c + n ≤ 8 * p.memBytes)
    (hw : bitPos c + n < 8 * 2 ^ 64) :
    readBits p m n u c =
      .ok ((streamBits m (bitPos c) n).foldl (fun u b => 2 * u + b.toNat) u,
        cursorForward c n) := by
  induction n generalizing u c with
  | zero => rw [cursorForward_zero hm]; rfl
  | succ n ih =>
    have hd := bitPos_div c
    have hf := bitPos_cursorForward (c := c) (k := 1) (by omega)
    rw [readBits, readBitPrim_eq hm (by omega), cmd_ok_bind]
    dsimp only
    rw [ih _ (cursorForward_mask_mem c 1) (by omega) (by omega), hf, streamBits_succ,
      cursorForward_add (by omega), Nat.add_comm 1 n]
    rfl

/-- One unit read: the next eight bits as a number, the first the most significant
(44_varint.md R143). -/
theorem readUnit_eq {p : Params} {m : Memory} {c : Cursor} (hc : CursorOk p c)
    (h : bitPos c + 8 ≤ 8 * c.limit.toNat) :
    readUnit p m c = .ok (bitsValue (streamBits m (bitPos c) 8), cursorForward c 8) := by
  have h1 := hc.limit_le_mem
  have h2 := c.limit.isLt
  have hb := bitsLeft_eq c
  rw [readUnit, check_bind, if_neg (by omega),
    readBits_eq 8 0 hc.mask_power (by omega) (by omega)]
  rfl

theorem readUnit_exhausted {p : Params} {m : Memory} {c : Cursor}
    (h : 8 * c.limit.toNat < bitPos c + 8) :
    readUnit p m c = .error (.error .streamExhausted) := by
  have hb := bitsLeft_eq c
  rw [readUnit, check_bind, if_pos (by omega)]

/-! ### Writing -/

/-- The mask `r` places below the top, bit by bit. -/
theorem mask_getLsbD : ∀ r < 8, ∀ i < 8,
    ((128 : BitVec 8) >>> r).getLsbD i = decide (i = 7 - r) := by decide

/-- The byte PutBitPrim writes, bit by bit (43_bitstream.md R129). -/
theorem putBitByte_getLsbD (old : Byte) (b : Bool) {r i : Nat} (hr : r < 8) (hi : i < 8) :
    (putBitByte old ((128 : BitVec 8) >>> r) b).getLsbD i =
      if i = 7 - r then b else old.getLsbD i := by
  have hm := mask_getLsbD r hr i hi
  have hf : (0xFF : BitVec 8).getLsbD i = true := (by decide : ∀ i < 8,
    (0xFF : BitVec 8).getLsbD i = true) i hi
  unfold putBitByte
  cases b
  · rw [if_neg (by decide), BitVec.getLsbD_and, BitVec.getLsbD_xor, hf, hm]
    by_cases h : i = 7 - r <;> simp [h]
  · rw [if_pos rfl, BitVec.getLsbD_or, hm]
    by_cases h : i = 7 - r <;> simp [h]

/-- The byte that PutBitPrim starts from: 0 for the first bit of a byte. -/
def putBitOld (m : Memory) (c : Cursor) : Byte :=
  if c.mask = 128 then 0 else memRead m c.pos.toNat

/-- DMEM after PutBitPrim (43_bitstream.md R129). -/
def putBitMemory (m : Memory) (c : Cursor) (b : Bool) : Memory :=
  memWrite m c.pos.toNat (putBitByte (putBitOld m c) c.mask b)

/-- PutBitPrim writes one byte and moves one bit on (43_bitstream.md R129). -/
theorem putBitPrim_eq {p : Params} {m : Memory} {c : Cursor}
    (hm : c.mask ∈ [1, 2, 4, 8, 16, 32, 64, 128]) (hp : c.pos.toNat < p.memBytes) (b : Bool) :
    putBitPrim p m c b = .ok (putBitMemory m c b, cursorForward c 1) := by
  unfold putBitPrim putBitMemory putBitOld
  by_cases h : c.mask = 128 <;>
    simp only [h, if_true, if_false, readByte, writeByte, hp, cmd_pure, cmd_ok_bind,
      cursorAdvance_eq hm]

theorem putBitMemory_wf {m : Memory} (c : Cursor) (b : Bool) (h : Memory.wf m) :
    Memory.wf (putBitMemory m c b) := memWrite_wf _ _ h

/-- The stream after one PutBitPrim: the bit written; zeros in the rest of a byte it begins;
every other bit as before. -/
theorem streamBit_putBitMemory {m : Memory} (h : Memory.wf m) {c : Cursor}
    (hm : c.mask ∈ [1, 2, 4, 8, 16, 32, 64, 128]) (b : Bool) (q : Nat) :
    streamBit (putBitMemory m c b) q =
      if q = bitPos c then b
      else if bitPos c % 8 = 0 ∧ bitPos c < q ∧ q < bitPos c + 8 then false
      else streamBit m q := by
  have hs := mask_eq_shift_bitPos hm
  have hd := bitPos_div c
  have hr : bitPos c % 8 < 8 := Nat.mod_lt _ (by omega)
  have hq : 7 - q % 8 < 8 := by omega
  unfold streamBit putBitMemory
  rw [memRead_memWrite h]
  by_cases hqa : q / 8 = c.pos.toNat
  · have hb := putBitByte_getLsbD (putBitOld m c) b hr hq
    rw [← hs] at hb
    rw [if_pos hqa, hb]
    by_cases heq : q = bitPos c
    · rw [if_pos heq, if_pos (by omega)]
    · rw [if_neg heq, if_neg (by omega)]
      unfold putBitOld
      by_cases h128 : c.mask = 128
      · have e0 : bitPos c % 8 = 0 := by
          rw [bitPos_mod, h128]; decide
        rw [if_pos h128, if_pos (by omega)]
        simp
      · have e0 : bitPos c % 8 ≠ 0 := by
          intro h0; rw [h0] at hs; exact h128 (by rw [hs]; decide)
        rw [if_neg h128, if_neg (by omega), hqa]
  · rw [if_neg hqa, if_neg (by omega), if_neg (by omega)]

/-- DMEM after a list of bits was put at a cursor. -/
def putBitsMemory : Memory → Cursor → List Bool → Memory
  | m, _, [] => m
  | m, c, b :: bs => putBitsMemory (putBitMemory m c b) (cursorForward c 1) bs

/-- Putting bits that lie inside DMEM (44_varint.md R142). -/
theorem putBits_eq {p : Params} {m : Memory} {c : Cursor} (bs : List Bool)
    (hm : c.mask ∈ [1, 2, 4, 8, 16, 32, 64, 128]) (hp : bitPos c + bs.length ≤ 8 * p.memBytes)
    (hw : bitPos c + bs.length < 8 * 2 ^ 64) :
    putBits p m c bs = .ok (putBitsMemory m c bs, cursorForward c bs.length) := by
  induction bs generalizing m c with
  | nil => rw [List.length_nil, cursorForward_zero hm]; rfl
  | cons b bs ih =>
    simp only [List.length_cons] at hp hw ⊢
    have hd := bitPos_div c
    have hf := bitPos_cursorForward (c := c) (k := 1) (by omega)
    rw [putBits, putBitPrim_eq hm (by omega), cmd_ok_bind]
    dsimp only
    rw [ih (cursorForward_mask_mem c 1) (by omega) (by omega), cursorForward_add (by omega),
      Nat.add_comm 1]
    rfl

theorem putBitsMemory_wf {m : Memory} (c : Cursor) (bs : List Bool) (h : Memory.wf m) :
    Memory.wf (putBitsMemory m c bs) := by
  induction bs generalizing m c with
  | nil => exact h
  | cons b bs ih => exact ih _ (putBitMemory_wf c b h)

theorem putBitsMemory_within {m : Memory} {c : Cursor} {n : Nat} (bs : List Bool)
    (h : Memory.within m n) (hp : bitPos c + bs.length ≤ 8 * n)
    (hw : bitPos c + bs.length < 8 * 2 ^ 64) : Memory.within (putBitsMemory m c bs) n := by
  induction bs generalizing m c with
  | nil => exact h
  | cons b bs ih =>
    simp only [List.length_cons] at hp hw
    have hd := bitPos_div c
    have hf := bitPos_cursorForward (c := c) (k := 1) (by omega)
    exact ih (memWrite_within _ _ h (by omega)) (by omega) (by omega)

/-- The stream after a list of bits was put: the bits where they were put; zeros in the rest of the
last byte, when one of the bits began it; every other bit as before. -/
theorem streamBit_putBitsMemory {m : Memory} (h : Memory.wf m) {c : Cursor} (bs : List Bool)
    (hm : c.mask ∈ [1, 2, 4, 8, 16, 32, 64, 128]) (hw : bitPos c + bs.length < 8 * 2 ^ 64)
    (q : Nat) :
    streamBit (putBitsMemory m c bs) q =
      if bitPos c ≤ q ∧ q < bitPos c + bs.length then bs.getD (q - bitPos c) false
      else if bitPos c + bs.length ≤ q ∧ bitPos c ≤ 8 * (q / 8) ∧
          8 * (q / 8) < bitPos c + bs.length then false
      else streamBit m q := by
  induction bs generalizing m c with
  | nil =>
    simp only [List.length_nil, Nat.add_zero, putBitsMemory]
    rw [if_neg (by omega), if_neg (by omega)]
  | cons b bs ih =>
    simp only [List.length_cons] at hw ⊢
    have hf := bitPos_cursorForward (c := c) (k := 1) (by omega)
    rw [putBitsMemory, ih (putBitMemory_wf c b h) (cursorForward_mask_mem c 1) (by omega), hf,
      streamBit_putBitMemory h hm]
    by_cases h1 : bitPos c + 1 ≤ q ∧ q < bitPos c + 1 + bs.length
    · rw [if_pos h1, if_pos (by omega)]
      obtain ⟨d, rfl⟩ : ∃ d, q = bitPos c + 1 + d := ⟨q - bitPos c - 1, by omega⟩
      have e1 : bitPos c + 1 + d - (bitPos c + 1) = d := by omega
      have e2 : bitPos c + 1 + d - bitPos c = d + 1 := by omega
      rw [e1, e2]; rfl
    · rw [if_neg h1]
      by_cases h2 : q = bitPos c
      · rw [if_neg (by omega), if_pos h2, if_pos (by omega), h2, Nat.sub_self]; rfl
      · rw [if_neg h2]
        by_cases h3 : bitPos c + 1 + bs.length ≤ q ∧ bitPos c + 1 ≤ 8 * (q / 8) ∧
            8 * (q / 8) < bitPos c + 1 + bs.length
        · rw [if_pos h3, if_neg (by omega), if_pos (by omega)]
        · rw [if_neg h3]
          by_cases h4 : bitPos c % 8 = 0 ∧ bitPos c < q ∧ q < bitPos c + 8
          · rw [if_pos h4, if_neg (by omega), if_pos (by omega)]
          · rw [if_neg h4, if_neg (by omega), if_neg (by omega)]

/-- A byte that holds none of the put bits is unchanged. -/
theorem memRead_putBitsMemory_out {m : Memory} (h : Memory.wf m) {c : Cursor} (bs : List Bool)
    (hw : bitPos c + bs.length < 8 * 2 ^ 64) (a : Nat)
    (ha : a < bitPos c / 8 ∨ bitPos c + bs.length ≤ 8 * a) :
    memRead (putBitsMemory m c bs) a = memRead m a := by
  induction bs generalizing m c with
  | nil => rfl
  | cons b bs ih =>
    simp only [List.length_cons] at hw ha
    have hd := bitPos_div c
    have hf := bitPos_cursorForward (c := c) (k := 1) (by omega)
    rw [putBitsMemory, ih (putBitMemory_wf c b h) (by omega) (by omega), putBitMemory,
      memRead_memWrite h, if_neg (by omega)]

end Sys2Proof.Machine
end

