-- ==== Sys2Proof/Laws/Commands.lean ====
section
/-! SUPPORT. What each command's rule can answer, said once: `exec` is `finish` of the command's
rule, and a rule that succeeds changes only the parts listed here. -/

namespace Sys2Proof.Machine

/-- The rule of each command, before its completion or error is recorded. -/
def commandRule (i : Instr) (s : State) : Cmd State :=
  match i with
  | .nop => .ok s
  | .fbLoad => fbLoad s
  | .xfSelect => xfSelect s
  | .xfFwd => transform .forward s
  | .xfInv => transform .inverse s
  | .bsInit => bsInit s
  | .bsReadbit => bsReadbit s
  | .bsGood => .ok { s with result := bitWord (cursorGood s.bs) }
  | .bsInbytes => .ok { s with result := cursorOffset s.bs }
  | .bsNextbyte => .ok { s with bs := cursorAlign s.bs }
  | .wsInit => wsInit s
  | .wsPutbit => wsPutbit s
  | .wsAlign => .ok { s with ws := cursorAlign s.ws }
  | .venc => encodeValue s
  | .vdec => decodeValue s

theorem exec_eq_finish (i : Instr) (s : State) : exec i s = finish s (commandRule i s) := by
  cases i <;> rfl

/-- Everything `exec` can answer with a next state (60_exceptions.md R160). -/
theorem exec_next {i : Instr} {s t : State} (h : exec i s = .next t) :
    (∃ u, commandRule i s = .ok u ∧ t = complete u) ∨
      ∃ e, commandRule i s = .error (.error e) ∧ t = raiseError e s :=
  finish_next (exec_eq_finish i s ▸ h)

theorem check_bind_ok {α : Type} {bad : Prop} [Decidable bad] {e : CmdError} {f : Unit → Cmd α}
    {a : α} (h : (check bad e >>= f) = .ok a) : ¬bad ∧ f () = .ok a := by
  rw [check_bind] at h
  split at h
  · cases h
  · exact ⟨‹_›, h⟩

theorem fbLoad_ok {s t : State} (h : fbLoad s = .ok t) :
    t = commitBank (operand0 s) (headerWord s.dmem (operand0 s) 0)
        (headerWord s.dmem (operand0 s) 5) s ∧
      headerWord s.dmem (operand0 s) 0 ≠ 0 ∧ headerWord s.dmem (operand0 s) 0 % 2 = 0 ∧
      headerWord s.dmem (operand0 s) 0 ≤ s.params.maxTaps ∧
      (headerWord s.dmem (operand0 s) 5 = 0 ∨ headerWord s.dmem (operand0 s) 5 = 1) := by
  unfold fbLoad at h
  obtain ⟨-, h⟩ := check_bind_ok h
  obtain ⟨-, h⟩ := check_bind_ok h
  obtain ⟨h1, h⟩ := check_bind_ok h
  obtain ⟨-, h⟩ := check_bind_ok h
  obtain ⟨h2, h⟩ := check_bind_ok h
  obtain ⟨-, h⟩ := check_bind_ok h
  cases h
  exact ⟨rfl, by omega, by omega, by omega, by omega⟩

theorem xfSelect_ok {s t : State} (h : xfSelect s = .ok t) :
    t = { s with strat := if operand0 s = 1 then .lifting else .direct } := by
  unfold xfSelect at h
  obtain ⟨-, h⟩ := check_bind_ok h
  obtain ⟨-, h⟩ := check_bind_ok h
  obtain ⟨-, h⟩ := check_bind_ok h
  cases h
  rfl

/-- What the checks of a transform leave when they pass (41_transform_direct.md R96). -/
theorem transformChecks_ok {s : State} {u : Unit} (h : transformChecks s = .ok u) :
    s.fbInfo.valid = true ∧ operand1 s % 2 = 0 ∧ s.fbInfo.size.toNat ≤ operand1 s ∧
      operand1 s ≤ s.params.maxN ∧ 1 ≤ operand2 s ∧ operand0 s % 8 = 0 ∧
      transformEnd (operand0 s) (operand1 s) (operand2 s) ≤ s.params.memBytes := by
  unfold transformChecks at h
  obtain ⟨h1, h⟩ := check_bind_ok h
  obtain ⟨-, h⟩ := check_bind_ok h
  obtain ⟨h3, h⟩ := check_bind_ok h
  obtain ⟨h4, h⟩ := check_bind_ok h
  obtain ⟨h5, h⟩ := check_bind_ok h
  obtain ⟨h6, h⟩ := check_bind_ok h
  obtain ⟨h7, h⟩ := check_bind_ok h
  unfold check at h
  split at h
  · cases h
  · exact ⟨by simpa using h1, by omega, by omega, by omega, by omega, by omega, by omega⟩

theorem transform_ok {dir : Direction} {s t : State} (h : transform dir s = .ok t) :
    transformChecks s = .ok () ∧ t = applyTransform dir s := by
  unfold transform at h
  obtain ⟨u, hu, h⟩ := cmd_bind_ok h
  cases h
  exact ⟨hu, rfl⟩

theorem bsInit_ok {s t : State} (h : bsInit s = .ok t) :
    (operand0 s + operand1 s ≤ s.params.memBytes ∧ operand0 s + operand1 s < 2 ^ 64) ∧
      t = { s with bs := cursorInit (operand0 s) (operand1 s) } := by
  unfold bsInit at h
  obtain ⟨h1, h⟩ := check_bind_ok h
  cases h
  exact ⟨by unfold bufferOutside at h1; omega, rfl⟩

theorem wsInit_ok {s t : State} (h : wsInit s = .ok t) :
    (operand0 s + operand1 s ≤ s.params.memBytes ∧ operand0 s + operand1 s < 2 ^ 64) ∧
      t = { s with ws := cursorInit (operand0 s) (operand1 s) } := by
  unfold wsInit at h
  obtain ⟨h1, h⟩ := check_bind_ok h
  cases h
  exact ⟨by unfold bufferOutside at h1; omega, rfl⟩

theorem bsReadbit_ok {s t : State} (h : bsReadbit s = .ok t) :
    s.bs.pos < s.bs.limit ∧
      ∃ b c, readBitPrim s.params s.dmem s.bs = .ok (b, c) ∧
        t = { s with result := bitWord b, bs := c } := by
  unfold bsReadbit at h
  obtain ⟨h1, h⟩ := check_bind_ok h
  obtain ⟨⟨b, c⟩, h2, h⟩ := cmd_bind_ok h
  cases h
  exact ⟨by simpa [cursorGood] using h1, b, c, h2, rfl⟩

theorem wsPutbit_ok {s t : State} (h : wsPutbit s = .ok t) :
    operand0 s ≤ 1 ∧ 1 ≤ bitsLeft s.ws ∧
      ∃ m c, putBitPrim s.params s.dmem s.ws (decide (operand0 s = 1)) = .ok (m, c) ∧
        t = { s with dmem := m, ws := c } := by
  unfold wsPutbit at h
  obtain ⟨h1, h⟩ := check_bind_ok h
  obtain ⟨h2, h⟩ := check_bind_ok h
  obtain ⟨⟨m, c⟩, h3, h⟩ := cmd_bind_ok h
  cases h
  exact ⟨by omega, by omega, m, c, h3, rfl⟩

theorem encodeValue_ok {s t : State} (h : encodeValue s = .ok t) :
    8 * (unitCount (operand0 s) : Int) ≤ bitsLeft s.ws ∧
      ∃ m c, putBits s.params s.dmem s.ws (encodeBits (operand0 s)) = .ok (m, c) ∧
        t = { s with dmem := m, ws := c } := by
  unfold encodeValue at h
  obtain ⟨h1, h⟩ := check_bind_ok h
  obtain ⟨⟨m, c⟩, h3, h⟩ := cmd_bind_ok h
  cases h
  exact ⟨by omega, m, c, h3, rfl⟩

theorem decodeValue_ok {s t : State} (h : decodeValue s = .ok t) :
    ∃ v c, decodeUnits s.params s.dmem 10 0 0 s.bs = .ok (v, c) ∧
      t = { s with bs := c, result := BitVec.ofNat 64 v } := by
  unfold decodeValue at h
  obtain ⟨⟨v, c⟩, h3, h⟩ := cmd_bind_ok h
  cases h
  exact ⟨v, c, h3, rfl⟩

/-- No rule touches the parameters, the host-written registers, the latch, STATUS, the host side or
the turns. -/
theorem commandRule_frame {i : Instr} {s u : State} (h : commandRule i s = .ok u) :
    u = { s with
      dmem := u.dmem, bs := u.bs, ws := u.ws, result := u.result, strat := u.strat,
      coef := u.coef, fbInfo := u.fbInfo, scratch := u.scratch, draws := u.draws } := by
  cases i with
  | nop => cases h; rfl
  | fbLoad => rw [(fbLoad_ok h).1]; rfl
  | xfSelect => rw [xfSelect_ok h]
  | xfFwd => rw [(transform_ok h).2]; rfl
  | xfInv => rw [(transform_ok h).2]; rfl
  | bsInit => rw [(bsInit_ok h).2]
  | bsReadbit => obtain ⟨-, b, c, -, rfl⟩ := bsReadbit_ok h; rfl
  | bsGood => cases h; rfl
  | bsInbytes => cases h; rfl
  | bsNextbyte => cases h; rfl
  | wsInit => rw [(wsInit_ok h).2]
  | wsPutbit => obtain ⟨-, -, m, c, -, rfl⟩ := wsPutbit_ok h; rfl
  | wsAlign => cases h; rfl
  | venc => obtain ⟨-, m, c, -, rfl⟩ := encodeValue_ok h; rfl
  | vdec => obtain ⟨v, c, -, rfl⟩ := decodeValue_ok h; rfl

/-- The parts of the state each rule may change. -/
theorem commandRule_parts {i : Instr} {s u : State} (h : commandRule i s = .ok u) :
    (i ∉ [Instr.xfFwd, .xfInv, .wsPutbit, .venc] → u.dmem = s.dmem) ∧
    (i ∉ [Instr.xfFwd, .xfInv] → u.scratch = s.scratch) ∧
    (i ∉ [Instr.bsInit, .bsReadbit, .bsNextbyte, .vdec] → u.bs = s.bs) ∧
    (i ∉ [Instr.wsInit, .wsPutbit, .wsAlign, .venc] → u.ws = s.ws) ∧
    (i ≠ .fbLoad → u.coef = s.coef ∧ u.fbInfo = s.fbInfo) ∧
    (i ≠ .xfSelect → u.strat = s.strat) ∧
    (i ∉ [Instr.bsReadbit, .bsGood, .bsInbytes, .vdec] → u.result = s.result) := by
  cases i with
  | nop => cases h; simp
  | fbLoad => rw [(fbLoad_ok h).1]; simp [commitBank]
  | xfSelect => rw [xfSelect_ok h]; simp
  | xfFwd => rw [(transform_ok h).2]; simp [applyTransform]
  | xfInv => rw [(transform_ok h).2]; simp [applyTransform]
  | bsInit => rw [(bsInit_ok h).2]; simp
  | bsReadbit => obtain ⟨-, b, c, -, rfl⟩ := bsReadbit_ok h; simp
  | bsGood => cases h; simp
  | bsInbytes => cases h; simp
  | bsNextbyte => cases h; simp
  | wsInit => rw [(wsInit_ok h).2]; simp
  | wsPutbit => obtain ⟨-, -, m, c, -, rfl⟩ := wsPutbit_ok h; simp
  | wsAlign => cases h; simp
  | venc => obtain ⟨-, m, c, -, rfl⟩ := encodeValue_ok h; simp
  | vdec => obtain ⟨v, c, -, rfl⟩ := decodeValue_ok h; simp

end Sys2Proof.Machine
end

