-- ==== Sys2Proof/Laws/PerInstr.lean ====
section
/-! SUPPORT. The word fields of every command, one lemma per constructor: the statement and its
lemmas are `Sys2Proof.Laws.WordFields.*`. -/

namespace Sys2Proof.Laws

/-- What 30_encoding.md R70, R71 and R73 say of a command as syntax: it is well formed, its word has
RSV = 0 and its opcode in OPC, its opcode is below 0x22, and it uses at most the three operands. -/
def WordFields.Statement (i : Instr) : Prop :=
  i.wellFormed = true ∧ rsvOf (encode i) = 0 ∧ opcOf (encode i) = i.opc ∧ i.opc.toNat < 0x22 ∧
    i.operandCount ≤ 3

theorem WordFields.nop : WordFields.Statement .nop := by
  unfold WordFields.Statement; decide +kernel

theorem WordFields.fbLoad : WordFields.Statement .fbLoad := by
  unfold WordFields.Statement; decide +kernel

theorem WordFields.xfSelect : WordFields.Statement .xfSelect := by
  unfold WordFields.Statement; decide +kernel

theorem WordFields.xfFwd : WordFields.Statement .xfFwd := by
  unfold WordFields.Statement; decide +kernel

theorem WordFields.xfInv : WordFields.Statement .xfInv := by
  unfold WordFields.Statement; decide +kernel

theorem WordFields.bsInit : WordFields.Statement .bsInit := by
  unfold WordFields.Statement; decide +kernel

theorem WordFields.bsReadbit : WordFields.Statement .bsReadbit := by
  unfold WordFields.Statement; decide +kernel

theorem WordFields.bsGood : WordFields.Statement .bsGood := by
  unfold WordFields.Statement; decide +kernel

theorem WordFields.bsInbytes : WordFields.Statement .bsInbytes := by
  unfold WordFields.Statement; decide +kernel

theorem WordFields.bsNextbyte : WordFields.Statement .bsNextbyte := by
  unfold WordFields.Statement; decide +kernel

theorem WordFields.wsInit : WordFields.Statement .wsInit := by
  unfold WordFields.Statement; decide +kernel

theorem WordFields.wsPutbit : WordFields.Statement .wsPutbit := by
  unfold WordFields.Statement; decide +kernel

theorem WordFields.wsAlign : WordFields.Statement .wsAlign := by
  unfold WordFields.Statement; decide +kernel

theorem WordFields.venc : WordFields.Statement .venc := by
  unfold WordFields.Statement; decide +kernel

theorem WordFields.vdec : WordFields.Statement .vdec := by
  unfold WordFields.Statement; decide +kernel

end Sys2Proof.Laws
end

