-- ==== Sys2Proof/Laws/Transform.lean ====
section
/-! SUPPORT. The lengths of a transform's arrays, and what its gather, compute, scatter does to
DMEM. -/

namespace Sys2Proof.Machine

theorem foldl_set_length {α β : Type} (f : List α → β → List α)
    (hf : ∀ t b, (f t b).length = t.length) (bs : List β) (t : List α) :
    (bs.foldl f t).length = t.length := by
  induction bs generalizing t with
  | nil => rfl
  | cons b bs ih => rw [List.foldl_cons, ih, hf]

/-- The scratch array of SymExtend has n + 2h + 1 entries (41_transform_direct.md R100). -/
theorem symExtend_length (mode : ExtendMode) (x : List F64) (n h : Nat) :
    (symExtend mode x n h).length = n + 2 * h + 1 := by
  unfold symExtend extendRight extendLeft extendCopy
  rw [foldl_set_length _ (by simp), foldl_set_length _ (by simp)]
  cases mode <;> simp only <;> rw [foldl_set_length _ (by simp)] <;> simp

theorem liftPass_length (epoch stage n p : Nat) (c : F64) (s : List F64) :
    (liftPass epoch stage n p c s).length = s.length := by
  unfold liftPass
  exact foldl_set_length _ (fun t i => by split <;> simp) _ _

/-- A transform gives as many values as it takes (41_transform_direct.md R97). -/
theorem transformValues_length (dir : Direction) (strat : Strategy) (epoch : Nat)
    (bank : FilterBank) (size : Nat) (x : List F64) {n : Nat} (hn : n % 2 = 0) :
    (transformValues dir strat epoch bank size x n).length = n := by
  cases dir <;> cases strat <;>
    simp [transformValues, directForward, directInverse, liftForward, liftInverse, liftPack,
      liftScale, liftUnscale, liftUnpack, liftPass_length] <;> omega

/-- The footprint of a transform whose checks passed lies in DMEM (41_transform_direct.md R96). -/
theorem footprint_inside {s : State} {u : Unit} (h : transformChecks s = .ok u) :
    ∀ k < operand1 s, operand0 s + 8 * operand2 s * k + 8 ≤ s.params.memBytes := by
  intro k hk
  have he := (transformChecks_ok h).2.2.2.2.2.2
  unfold transformEnd at he
  have h1 : (k : Int) ≤ (operand1 s : Int) - 1 := by omega
  have h2 : 8 * (operand2 s : Int) * k ≤ 8 * (operand2 s : Int) * ((operand1 s : Int) - 1) :=
    Int.mul_le_mul_of_nonneg_left h1 (by omega)
  have h3 : (operand0 s : Int) + 8 * (operand2 s : Int) * k + 8 ≤ s.params.memBytes := by omega
  exact_mod_cast h3

theorem transformOutput_length {dir : Direction} {s : State} {u : Unit}
    (h : transformChecks s = .ok u) : (transformOutput dir s).length = operand1 s :=
  transformValues_length _ _ _ _ _ _ (transformChecks_ok h).2.1

/-- What a transform whose checks passed does to DMEM: its elements hold the values computed, every
byte outside them is unchanged, and the canonical form is kept (41_transform_direct.md R97). -/
theorem applyTransform_dmem {dir : Direction} {s : State} {u : Unit}
    (h : transformChecks s = .ok u) (hwf : Memory.wf s.dmem) :
    Memory.wf (applyTransform dir s).dmem ∧
    (Memory.within s.dmem s.params.memBytes →
      Memory.within (applyTransform dir s).dmem s.params.memBytes) ∧
    (∀ k < operand1 s, loadF64 (applyTransform dir s).dmem (elemAddr (operand0 s) (operand2 s) k) =
      elem (transformOutput dir s) k) ∧
    ∀ a, (∀ k < operand1 s, a < elemAddr (operand0 s) (operand2 s) k ∨
        elemAddr (operand0 s) (operand2 s) k + 8 ≤ a) →
      memRead (applyTransform dir s).dmem a = memRead s.dmem a := by
  have hl := transformOutput_length (dir := dir) h
  have h8 := (transformChecks_ok h).2.2.2.2.1
  refine ⟨storeArray_wf _ _ _ hwf, fun hw => ?_, fun k hk => ?_, fun a ha => ?_⟩
  · exact storeArray_within _ _ _ hw fun k hk => footprint_inside h k (hl ▸ hk)
  · exact loadF64_storeArray hwf _ _ _ (by omega) k (by rw [hl]; exact hk)
  · exact memRead_storeArray_out hwf _ _ _ _ fun k hk => ha k (hl ▸ hk)

end Sys2Proof.Machine
end

