-- ==== Sys2Proof/Laws/Varint.lean ====
section
/-! SUPPORT. What the codec's operations can do: a unit count within 1 to 10, and the loop of VDEC
on a sound cursor, which never faults and moves by whole units inside the buffer. -/

namespace Sys2Proof.Machine

theorem bitLen_lt {v : Nat} (h : v < 2 ^ 64) : bitLen v ≤ 64 := by
  unfold bitLen
  split
  · omega
  · have := (Nat.log2_lt (by assumption)).mpr h; omega

/-- A 64-bit value has 1 to 10 units (44_varint.md R141). -/
theorem unitCount_range {v : Nat} (h : v < 2 ^ 64) : 1 ≤ unitCount v ∧ unitCount v ≤ 10 := by
  have := bitLen_lt h
  unfold unitCount
  omega

theorem encodeBits_length (v : Nat) : (encodeBits v).length = 8 * unitCount v := by
  simp [encodeBits, unitBits, List.length_flatMap, Nat.mul_comm]

/-- One unit read on a sound cursor: the next eight bits, or exhausted. -/
theorem readUnit_cases {p : Params} {m : Memory} {c : Cursor} (hc : CursorOk p c) :
    (readUnit p m c = .ok (bitsValue (streamBits m (bitPos c) 8), cursorForward c 8) ∧
      bitPos c + 8 ≤ 8 * c.limit.toNat) ∨
    readUnit p m c = .error (.error .streamExhausted) := by
  by_cases h : bitPos c + 8 ≤ 8 * c.limit.toNat
  · exact .inl ⟨readUnit_eq hc h, h⟩
  · exact .inr (readUnit_exhausted (by omega))

/-- The loop of VDEC on a sound cursor ends at a cursor some whole units on and still inside the
buffer, or with one of its two errors (44_varint.md R143). -/
theorem decodeUnits_cases {p : Params} {m : Memory} (fuel k v : Nat) {c : Cursor}
    (hc : CursorOk p c) :
    (∃ v' n, decodeUnits p m fuel k v c = .ok (v', cursorForward c (8 * n)) ∧
      bitPos c + 8 * n ≤ 8 * c.limit.toNat) ∨
    decodeUnits p m fuel k v c = .error (.error .streamExhausted) ∨
    decodeUnits p m fuel k v c = .error (.error .varintOverflow) := by
  induction fuel generalizing k v c with
  | zero => exact .inr (.inr rfl)
  | succ fuel ih =>
    have hlim := c.limit.isLt
    rw [decodeUnits]
    rcases readUnit_cases (m := m) hc with ⟨h, hb⟩ | h
    · rw [h, cmd_ok_bind]
      dsimp only
      rw [check_bind]
      split
      · exact .inr (.inr rfl)
      · split
        · exact .inl ⟨_, 1, rfl, hb⟩
        · have hp := bitPos_cursorForward (c := c) (k := 8) (by omega)
          rcases ih (k + 1) (v ||| (bitsValue (streamBits m (bitPos c) 8) &&& 0x7F) <<< (7 * k))
            (cursorForward_ok hc hb) with ⟨v', n, h, hn⟩ | h | h
          · refine .inl ⟨v', n + 1, ?_, ?_⟩
            · rw [h, cursorForward_add (by omega), Nat.mul_add, Nat.add_comm 8]
            · rw [hp, cursorForward_limit] at hn; omega
          · exact .inr (.inl h)
          · exact .inr (.inr h)
    · rw [h, cmd_error_bind]; exact .inr (.inl rfl)

end Sys2Proof.Machine
end

