-- ==== Sys2Proof/Machine/HostParse.lean ====
section
/-! DEFINITION. The text of the host-side assembly language (30_encoding.md R77) read back into
statements: one statement a line. -/

namespace Sys2Proof.Machine

/-- The commands of 30_encoding.md R73. -/
def allInstrs : List Instr :=
  [.nop, .fbLoad, .xfSelect, .xfFwd, .xfInv, .bsInit, .bsReadbit, .bsGood, .bsInbytes, .bsNextbyte,
    .wsInit, .wsPutbit, .wsAlign, .venc, .vdec]

/-- The registers of 10_state.md R24. -/
def allRegs : List Reg :=
  [.id, .param0, .param1, .param2, .ctrl, .cmd, .status, .arg0, .arg1, .arg2, .result, .strat,
    .fbInfo, .bsBase, .bsPos, .bsEnd, .bsMask, .bsTotal, .wsBase, .wsPos, .wsEnd, .wsMask, .wsTotal]

/-- The parts of a text between the separators `sep`. -/
def splitChars (sep : Char) : List Char → List (List Char)
  | [] => [[]]
  | c :: cs =>
    if c = sep then [] :: splitChars sep cs
    else match splitChars sep cs with
      | [] => [[c]]
      | p :: ps => (c :: p) :: ps

/-- A text without the spaces at its ends. The space is the one white-space character that separates
anything; a tab or a carriage return is a character like any other (DESIGN CHOICE, log entry 19). -/
def trimChars (cs : List Char) : List Char :=
  ((cs.dropWhile (· = ' ')).reverse.dropWhile (· = ' ')).reverse

/-- The value of a hexadecimal digit, in either case. -/
def hexDigit (c : Char) : Option Nat :=
  let n := c.toNat
  if 48 ≤ n ∧ n ≤ 57 then some (n - 48)
  else if 65 ≤ n ∧ n ≤ 70 then some (n - 55)
  else if 97 ≤ n ∧ n ≤ 102 then some (n - 87)
  else none

/-- Digits of a base, the most significant first, after the value `v` of those before. -/
def digitsValue (base : Nat) : Nat → List Char → Option Nat
  | v, [] => some v
  | v, c :: cs =>
    match hexDigit c with
    | some d => if d < base then digitsValue base (base * v + d) cs else none
    | none => none

/-- At least one digit of a base. -/
def number (base : Nat) : List Char → Option Nat
  | [] => none
  | cs => digitsValue base 0 cs

/-- `imm` (30_encoding.md R77): decimal, or hexadecimal after `0x`. That it fits 64 bits is checked
with the statement. -/
def parseImm : List Char → Option Nat
  | '0' :: 'x' :: cs => number 16 cs
  | cs => number 10 cs

/-- `hh`, one byte as two hexadecimal digits (30_encoding.md R77). -/
def parseByte : List Char → Option Byte
  | [h, l] => (number 16 [h, l]).map (BitVec.ofNat 8)
  | _ => none

/-- `bytes`, the lowest address first (30_encoding.md R77). -/
def parseBytes (cs : List Char) : Option (List Byte) := (splitChars ' ' cs).mapM parseByte

/-- A register by its name (10_state.md R24). -/
def parseReg (cs : List Char) : Option Reg := allRegs.find? fun r => regName r == String.ofList cs

/-- A label's name; whether it is one is checked with the statement. -/
def parseLabel (cs : List Char) : Option String := some (String.ofList cs)

/-- A command by its mnemonic, with its operands (30_encoding.md R77). -/
def parseCmd (head : String) (operands : List (List Char)) : Option Stmt := do
  let i ← allInstrs.find? fun i => mnemonic i == head
  return .cmd i (← operands.mapM parseImm)

/-- A statement from its first word and its operands (30_encoding.md R77, R78). -/
def parseWords (head : String) (operands : List (List Char)) : Option Stmt :=
  match head, operands with
  | "WR", [r, v] => return .wr (← parseReg r) (← parseImm v)
  | "RD", [r] => return .rd (← parseReg r)
  | "WAIT", [] => some .wait
  | "CLR", [] => some .clr
  | "MEMW", [a, bs] => return .memw (← parseImm a) (← parseBytes bs)
  | "MEMW64", [a, v] => return .memw64 (← parseImm a) (← parseImm v)
  | "BRZ", [r, l] => return .branch .zero (← parseReg r) (← parseLabel l)
  | "BRNZ", [r, l] => return .branch .notZero (← parseReg r) (← parseLabel l)
  | "BRBS", [r, b, l] => return .branch (.bitSet (← parseImm b)) (← parseReg r) (← parseLabel l)
  | "BRBC", [r, b, l] => return .branch (.bitClear (← parseImm b)) (← parseReg r) (← parseLabel l)
  | "JMP", [l] => return .jmp (← parseLabel l)
  | "HALT", [] => some .halt
  | "XF_FWD1", [a, n] => return .xfFwd1 (← parseImm a) (← parseImm n)
  | "XF_INV1", [a, n] => return .xfInv1 (← parseImm a) (← parseImm n)
  | _, _ => parseCmd head operands

/-- The operands of a statement: separated by commas, none when nothing is written. -/
def parseOperands (cs : List Char) : List (List Char) :=
  match trimChars cs with
  | [] => []
  | rest => (splitChars ',' rest).map trimChars

/-- A statement's line (30_encoding.md R77): a label and a colon, or a first word, spaces and
operands. A tab or a carriage return separates nothing, so a line with one is refused
(DESIGN CHOICE, log entry 19). -/
def parseLine (line : List Char) : Option Stmt :=
  let cs := trimChars line
  match cs.reverse with
  | ':' :: name => some (.label (String.ofList (trimChars name.reverse)))
  | _ => parseWords (String.ofList (cs.takeWhile (· ≠ ' '))) (parseOperands (cs.dropWhile (· ≠ ' ')))

/-- The lines of a program; a line of spaces only holds no statement (log entry 19). -/
def parseLines : List (List Char) → Except AsmError (List Stmt)
  | [] => .ok []
  | line :: rest =>
    if trimChars line = [] then parseLines rest
    else match parseLine line with
      | some st => do return st :: (← parseLines rest)
      | none => .error (.badLine (String.ofList line))

/-- The assembler on a program's text (30_encoding.md R77, R78). A line ends at a line feed
(DESIGN CHOICE, log entry 19). -/
def assembleText (p : Params) (text : String) : Except AsmError (List HostOp) := do
  let prog ← parseLines (splitChars '\n' text.toList)
  assemble p prog

end Sys2Proof.Machine
end

