-- ==== Sys2Proof/Tests/Slice0.lean ====
section
/-! SUPPORT. The model's own tests. Expected values are the spec's (95_test_vectors.md and the
examples of the command rules), written out here; the witnesses show, for each obligation with
hypotheses, a concrete state and operands that meet all of them. -/

namespace Sys2Proof.Machine

set_option Elab.async false

/-! ### Helpers -/

/-- The step gave a next state with property `p`. -/
def nextIs (o : Host.Outcome State Fault Refusal) (p : State → Bool) : Bool :=
  match o with
  | .next t => p t
  | .fault _ => false
  | .refused _ => false

theorem exists_next {o : Host.Outcome State Fault Refusal} {p : State → Bool}
    (h : nextIs o p = true) : ∃ t, o = .next t ∧ p t = true := by
  cases o with
  | next t => exact ⟨t, rfl, h⟩
  | fault f => cases h
  | refused r => cases h

/-- The cursor invariants as one decidable statement. -/
abbrev cursorCheck (p : Params) (c : Cursor) : Prop :=
  c.base.toNat ≤ c.pos.toNat ∧ c.pos.toNat ≤ c.limit.toNat ∧ c.limit.toNat ≤ p.memBytes ∧
    c.mask ∈ [1, 2, 4, 8, 16, 32, 64, 128] ∧ (c.pos = c.limit → c.mask = 128)

theorem cursor_of_check {p : Params} {c : Cursor} (h : cursorCheck p c) : CursorOk p c :=
  ⟨h.1, h.2.1, h.2.2.1, h.2.2.2.1, h.2.2.2.2⟩

/-- The bank's and STATUS's invariants as one decidable statement. -/
abbrev bankStatusCheck (s : State) : Prop :=
  (s.coef.lpf.length = s.params.maxTaps ∧ s.coef.hpf.length = s.params.maxTaps ∧
    s.coef.ilpf.length = s.params.maxTaps ∧ s.coef.ihpf.length = s.params.maxTaps ∧
    (s.fbInfo.valid = true → s.fbInfo.size.toNat % 2 = 0 ∧ 2 ≤ s.fbInfo.size.toNat ∧
      s.fbInfo.size.toNat ≤ s.params.maxTaps ∧ (s.fbInfo.family = 0 ∨ s.fbInfo.family = 1)) ∧
    (s.fbInfo.valid = false → s.fbInfo.size = 0 ∧ s.fbInfo.family = 0)) ∧
  s.status.errcode.toNat ≤ 0x0D ∧ (s.status.err = true ↔ s.status.errcode ≠ 0) ∧
    (s.status.busy = true → s.status.done = false) ∧
    (s.status.busy = true → s.status.err = false) ∧
    (s.status.busy = true → s.status.lastOpc = opcOf s.cmdLatch)

theorem inv_of_check {s : State}
    (h : s.params.wf ∧ Memory.wf s.dmem ∧
      Memory.within s.dmem s.params.memBytes ∧ cursorCheck s.params s.bs ∧
      cursorCheck s.params s.ws ∧ bankStatusCheck s) : Sound s := by
  obtain ⟨h1, h3, h4, h5, h6, ⟨b1, b2, b3, b4, b5, b6⟩, t1, t2, t3, t4, t5⟩ := h
  exact ⟨h1, h3, h4, cursor_of_check h5, cursor_of_check h6, ⟨b1, b2, b3, b4, b5, b6⟩,
    ⟨t1, t2, t3, t4, t5⟩⟩

/-- 64-bit words stored one after another from `a` up. -/
def putWords (m : Memory) (a : Nat) (ws : List Word) : Memory := storeArray m a 8 ws

/-- Operands in the latch. -/
def withOperands (a b c : Word) (s : State) : State :=
  { s with argLatch0 := a, argLatch1 := b, argLatch2 := c }

/-- The descriptor of 95_test_vectors.md section 2.2 (Haar-4) with this family tag. -/
def haarWords (family : Word) : List Word :=
  [4, 4, 4, 4, 4, family,
    0, 0, 0x3FE0000000000000, 0x3FE0000000000000,
    0, 0x3FE0000000000000, 0xBFE0000000000000, 0,
    0, 0x3FF0000000000000, 0x3FF0000000000000, 0,
    0, 0, 0xBFF0000000000000, 0x3FF0000000000000]

/-- A descriptor at `a` and FB_LOAD's operand. -/
def loading (a : Word) (ws : List Word) : State :=
  withOperands a 0 0 { State.reset with dmem := putWords [] a.toNat ws }

/-- The Haar-4 bank in the store, with this family tag and strategy, and a signal at `a`. -/
def banked (family : BitVec 8) (strat : Strategy) (a : Nat) (x : List Word) : State :=
  { State.reset with
    coef :=
      { lpf := overlay [0, 0, 0x3FE0000000000000, 0x3FE0000000000000] State.reset.coef.lpf
        hpf := overlay [0, 0x3FE0000000000000, 0xBFE0000000000000, 0] State.reset.coef.hpf
        ilpf := overlay [0, 0x3FF0000000000000, 0x3FF0000000000000, 0] State.reset.coef.ilpf
        ihpf := overlay [0, 0, 0xBFF0000000000000, 0x3FF0000000000000] State.reset.coef.ihpf }
    fbInfo := { valid := true, family := family, size := 4 }
    strat := strat
    dmem := putWords [] a x }

/-- 1.0, 2.0, 3.0, 4.0, 5.0, 7.0 (95_test_vectors.md row DV1). -/
def signalX : List Word :=
  [0x3FF0000000000000, 0x4000000000000000, 0x4008000000000000, 0x4010000000000000,
    0x4014000000000000, 0x401C000000000000]

/-- 1.5, 3.5, 6.0, -0.5, -0.5, -1.0 (95_test_vectors.md row DV1). -/
def signalY : List Word :=
  [0x3FF8000000000000, 0x400C000000000000, 0x4018000000000000, 0xBFE0000000000000,
    0xBFE0000000000000, 0xBFF0000000000000]

/-- A reader over these bytes at 0x2000, at its first bit. -/
def reading (bytes : List Byte) : State :=
  { State.reset with
    dmem := memWriteBytes [] 0x2000 bytes, bs := cursorInit 0x2000 bytes.length }

/-- A writer over `len` bytes at 0x3000, at its first bit. -/
def writing (len : Nat) : State := { State.reset with ws := cursorInit 0x3000 len }

/-- A DMEM of 2^64 bytes, the largest of 00_scope.md R7. -/
def wideReset : State :=
  { State.reset with params := { Params.reference with memBytes := 2 ^ 64 } }

/-! ### Ill-formed terms are refused (30_encoding.md R77, 00_scope.md R7) -/

theorem test_wellFormed_cmd : (Stmt.cmd .xfFwd [0x2000, 6, 1]).wellFormed = true := by decide
theorem test_illFormed_operand_count : (Stmt.cmd .xfFwd [0x2000, 6]).wellFormed = false := by
  decide
theorem test_illFormed_operand_size : (Stmt.cmd .venc [2 ^ 64]).wellFormed = false := by
  decide +kernel
theorem test_illFormed_shorthand : (Stmt.xfFwd1 0 (2 ^ 64)).wellFormed = false ∧
    (Stmt.xfInv1 (2 ^ 64) 0).wellFormed = false := by decide +kernel
theorem test_illFormed_imm : (Stmt.wr .arg0 (2 ^ 64)).wellFormed = false ∧
    (Stmt.memw64 0 (2 ^ 64)).wellFormed = false := by decide +kernel
theorem test_illFormed_bytes : (Stmt.memw 0 []).wellFormed = false := by decide +kernel
theorem test_illFormed_bit : (Stmt.branch (.bitSet 64) .status "a").wellFormed = false ∧
    (Stmt.branch (.bitClear 64) .status "a").wellFormed = false := by decide +kernel
theorem test_illFormed_label : (Stmt.label "").wellFormed = false ∧
    (Stmt.label "1a").wellFormed = false ∧ (Stmt.jmp "a b").wellFormed = false := by
  decide +kernel
theorem test_params_reference : Params.reference.wf := by decide
theorem test_params_memBytes : ¬ Params.wf { Params.reference with memBytes := 0 } ∧
    ¬ Params.wf { Params.reference with memBytes := 12 } ∧
    ¬ Params.wf { Params.reference with memBytes := 2 ^ 64 + 8 } := by decide +kernel
theorem test_params_maxTaps : ¬ Params.wf { Params.reference with maxTaps := 8 } ∧
    ¬ Params.wf { Params.reference with maxTaps := 11 } ∧
    ¬ Params.wf { Params.reference with maxTaps := 2 ^ 32, maxN := 2 ^ 32 } := by decide +kernel
theorem test_params_maxN : ¬ Params.wf { Params.reference with maxN := 4097 } ∧
    ¬ Params.wf { Params.reference with maxN := 14 } := by decide +kernel
theorem test_params_regBase : ¬ Params.wf { Params.reference with regBase := 2048 } := by decide

/-! ### Decoding: the words of 30_encoding.md R73, written bit by bit -/

theorem test_decode_filter_bank :
    decode 0b0000000000000000000000000000000000000000000000000000000000000000 = .ok .nop ∧
    decode 0b0000000000000000000000000000000000000000000000000000000000000001 = .ok .fbLoad ∧
    decode 0b0000000000000000000000000000000000000000000000000000000000000010 = .ok .xfSelect := by
  decide +kernel
theorem test_decode_transform :
    decode 0b0000000000000000000000000000000000000000000000000000000000000011 = .ok .xfFwd ∧
    decode 0b0000000000000000000000000000000000000000000000000000000000000100 = .ok .xfInv := by
  decide +kernel
theorem test_decode_reader :
    decode 0b0000000000000000000000000000000000000000000000000000000000010000 = .ok .bsInit ∧
    decode 0b0000000000000000000000000000000000000000000000000000000000010001 = .ok .bsReadbit ∧
    decode 0b0000000000000000000000000000000000000000000000000000000000010010 = .ok .bsGood ∧
    decode 0b0000000000000000000000000000000000000000000000000000000000010011 = .ok .bsInbytes ∧
    decode 0b0000000000000000000000000000000000000000000000000000000000010100 =
      .ok .bsNextbyte := by
  decide +kernel
theorem test_decode_writer :
    decode 0b0000000000000000000000000000000000000000000000000000000000011000 = .ok .wsInit ∧
    decode 0b0000000000000000000000000000000000000000000000000000000000011001 = .ok .wsPutbit ∧
    decode 0b0000000000000000000000000000000000000000000000000000000000011010 = .ok .wsAlign := by
  decide +kernel
theorem test_decode_codec :
    decode 0b0000000000000000000000000000000000000000000000000000000000100000 = .ok .venc ∧
    decode 0b0000000000000000000000000000000000000000000000000000000000100001 = .ok .vdec := by
  decide +kernel
theorem test_decode_reserved :
    decode 0b1000000000000000000000000000000000000000000000000000000000000011 =
      .error (.reservedNonzero 0x80000000000000) := by decide +kernel

/-! ### One step per command, from the spec's examples and vectors -/

/-- 40_filter_bank.md R85: STATUS = 0x02. -/
theorem test_nop : nextIs (step (State.reset.withFetchWord 64 0x00))
    (fun t => regValue t .status == 0x2) = true := by decide +kernel
/-- 40_filter_bank.md R87 and 95_test_vectors.md section 2.2: FB_INFO = 0x40001. -/
theorem test_fbLoad : nextIs (exec .fbLoad (loading 0x1000 (haarWords 0)))
    (fun t => regValue t .fbInfo == 0x40001 && elem t.coef.hpf 2 == 0xBFE0000000000000 &&
      elem t.coef.ihpf 3 == 0x3FF0000000000000) = true := by decide +kernel
/-- 95_test_vectors.md section 7: a misaligned descriptor raises ALIGN. -/
theorem test_fbLoad_align : nextIs (exec .fbLoad (loading 0x1004 (haarWords 0)))
    (fun t => t.status.errcode == 0x03 && !t.fbInfo.valid) = true := by decide +kernel
/-- 40_filter_bank.md R89: STRAT = 1 with a family-1 bank. -/
theorem test_xfSelect : nextIs (exec .xfSelect (withOperands 1 0 0 (banked 1 .direct 0x2000 [])))
    (fun t => regValue t .strat == 1) = true := by decide +kernel
/-- 40_filter_bank.md R89: INCOMPATIBLE with a family-0 bank. -/
theorem test_xfSelect_incompatible :
    nextIs (exec .xfSelect (withOperands 1 0 0 (banked 0 .direct 0x2000 [])))
      (fun t => t.status.errcode == 0x07 && regValue t .strat == 0) = true := by decide +kernel
/-- 41_transform_direct.md R98, 95_test_vectors.md row DV1. -/
theorem test_xfFwd :
    nextIs (exec .xfFwd (withOperands 0x2000 6 1 (banked 0 .direct 0x2000 signalX)))
      (fun t => loadArray t.dmem 0x2000 8 6 == signalY) = true := by decide +kernel
/-- 41_transform_direct.md R99, 95_test_vectors.md row DV2. -/
theorem test_xfInv :
    nextIs (exec .xfInv (withOperands 0x2000 6 1 (banked 0 .direct 0x2000 signalY)))
      (fun t => loadArray t.dmem 0x2000 8 6 == signalX) = true := by decide +kernel
/-- 42_transform_lifting.md R112, 95_test_vectors.md row F2. -/
theorem test_xfFwd_lifting :
    nextIs (exec .xfFwd (withOperands 0x2000 4 1 (banked 1 .lifting 0x2000 (signalX.take 4))))
      (fun t => loadArray t.dmem 0x2000 8 4 == [0x3FFBC17D5AB5D010, 0x4011BE64D4C08DFD,
        0x3FA86BFE81242BD6, 0x3FE3931E965AB5D9]) = true := by decide +kernel
/-- 42_transform_lifting.md R113, 95_test_vectors.md row I2. -/
theorem test_xfInv_lifting :
    nextIs (exec .xfInv (withOperands 0x2000 4 1 (banked 1 .lifting 0x2000 [0x3FFBC17D5AB5D010,
        0x4011BE64D4C08DFD, 0x3FA86BFE81242BD6, 0x3FE3931E965AB5D9])))
      (fun t => loadArray t.dmem 0x2000 8 4 == signalX.take 4) = true := by decide +kernel
/-- 43_bitstream.md R121. -/
theorem test_bsInit : nextIs (exec .bsInit (withOperands 0x2000 2 0 State.reset))
    (fun t => regValue t .bsEnd == 0x2002 && regValue t .bsMask == 0x80) = true := by
  decide +kernel
/-- 20_memory.md R55: in a DMEM of 2^64 bytes a buffer may end at its last byte but one, and an end
that would wrap BS_END is out of range (log entry 5). -/
theorem test_bsInit_top : nextIs (exec .bsInit (withOperands 0xFFFFFFFFFFFFFFFE 1 0 wideReset))
      (fun t => t.bs.limit == 0xFFFFFFFFFFFFFFFF && cursorGood t.bs) = true ∧
    nextIs (exec .bsInit (withOperands 0xFFFFFFFFFFFFFFFE 2 0 wideReset))
      (fun t => t.status.errcode == 0x04 && t.bs == Cursor.reset) = true := by decide +kernel
/-- 43_bitstream.md R122: the first bit of 0xA5 is 1. -/
theorem test_bsReadbit : nextIs (exec .bsReadbit (reading [0xA5, 0x01]))
    (fun t => t.result == 1 && t.bs.mask == 0x40) = true := by decide +kernel
/-- 43_bitstream.md R122: past the last bit, STREAM_EXHAUSTED. -/
theorem test_bsReadbit_exhausted : nextIs (exec .bsReadbit (reading []))
    (fun t => t.status.errcode == 0x0B && t.result == 0) = true := by decide +kernel
/-- 43_bitstream.md R123. -/
theorem test_bsGood : nextIs (exec .bsGood (reading [0xA5])) (fun t => t.result == 1) = true := by
  decide +kernel
/-- 43_bitstream.md R124, R125: three bits into [0xA5, 0x01], 0 before the move and 1 after. -/
theorem test_bsInbytes :
    nextIs (exec .bsInbytes { reading [0xA5, 0x01] with bs := cursorForward (cursorInit 0x2000 2) 3 })
      (fun t => t.result == 0) = true := by decide +kernel
theorem test_bsNextbyte :
    nextIs (exec .bsNextbyte { reading [0xA5, 0x01] with bs := cursorForward (cursorInit 0x2000 2) 3 })
      (fun t => t.bs.pos == 0x2001 && t.bs.mask == 0x80 && t.bs.total == 3) = true := by
  decide +kernel
/-- 43_bitstream.md R127. -/
theorem test_wsInit : nextIs (exec .wsInit (withOperands 0x3000 16 0 State.reset))
    (fun t => t.ws.limit == 0x3010 && decide (bitsLeft t.ws = 128)) = true := by decide +kernel
/-- 43_bitstream.md R128: the first bit of a byte clears the others. -/
theorem test_wsPutbit :
    nextIs (exec .wsPutbit (withOperands 1 0 0 { writing 1 with dmem := [(0x3000, 0xFF)] }))
      (fun t => t.dmem == [(0x3000, 0x80)] && t.ws.mask == 0x40) = true := by decide +kernel
/-- 43_bitstream.md R128: a bit above 1 raises BAD_ARG. -/
theorem test_wsPutbit_badArg : nextIs (exec .wsPutbit (withOperands 2 0 0 (writing 1)))
    (fun t => t.status.errcode == 0x02 && t.ws == cursorInit 0x3000 1) = true := by decide +kernel
/-- 43_bitstream.md R130: three bits into a byte. -/
theorem test_wsAlign :
    nextIs (exec .wsAlign { writing 2 with ws := cursorForward (cursorInit 0x3000 2) 3 })
      (fun t => t.ws.pos == 0x3001 && t.ws.mask == 0x80 && t.ws.total == 3) = true := by
  decide +kernel
/-- 44_varint.md R142: 1000000 is C0 84 3D. -/
theorem test_venc : nextIs (exec .venc (withOperands 1000000 0 0 (writing 16)))
    (fun t => t.dmem == [(0x3000, 0xC0), (0x3001, 0x84), (0x3002, 0x3D)] && t.ws.total == 24) =
      true := by decide +kernel
/-- 44_varint.md R143: C0 84 3D is 1000000. -/
theorem test_vdec : nextIs (exec .vdec (reading [0xC0, 0x84, 0x3D]))
    (fun t => t.result == 1000000 && t.bs.total == 24 && !cursorGood t.bs) = true := by
  decide +kernel
/-- 44_varint.md R143: a tenth unit above 1 raises VARINT_OVERFLOW. -/
theorem test_vdec_overflow :
    nextIs (exec .vdec (reading [0x80, 0x80, 0x80, 0x80, 0x80, 0x80, 0x80, 0x80, 0x80, 0x02]))
      (fun t => t.status.errcode == 0x0C && t.bs == cursorInit 0x2000 10) = true := by
  decide +kernel
/-- 30_encoding.md R74: an illegal word is issued and raises ILLEGAL_CMD. -/
theorem test_illegal : nextIs (step (State.reset.withFetchWord 64 0x105))
    (fun t => regValue t .status == 0x050106) = true := by decide +kernel
/-- 30_encoding.md R78: the expansion of `BS_INIT 0x3000, 9` (95_test_vectors.md program P2). -/
theorem test_assemble : (assemble Params.reference [.cmd .bsInit [0x3000, 9]]).toOption =
    some [.regWrite 0x040 64 0x3000, .regWrite 0x048 64 9, .regWrite 0x028 64 0x10,
      .branch (.bitClear 1) 0x030 3] := by decide +kernel
/-- 30_encoding.md R77: lines of programs P2 and P4 of 95_test_vectors.md, and each form of host
statement, read as their statements and written back. -/
theorem test_parse :
    parseLine "BRBS STATUS, 2, fail".toList = some (.branch (.bitSet 2) .status "fail") ∧
    parseLine "fail:".toList = some (.label "fail") ∧
    parseLine "XF_FWD 0x2000, 6, 1".toList = some (.cmd .xfFwd [0x2000, 6, 1]) ∧
    parseLine "WR ARG1, 0xfF".toList = some (.wr .arg1 255) ∧
    parseLine "MEMW 0x10, A5 01".toList = some (.memw 16 [0xA5, 0x01]) ∧
    renderStmt (.memw 16 [0xA5, 0x01]) = "MEMW 16, a5 01" ∧
    parseLine (renderStmt (.branch (.bitClear 1) .wsTotal "a_1")).toList =
      some (.branch (.bitClear 1) .wsTotal "a_1") ∧
    parseLine "WAIT 1".toList = none := by decide +kernel
/-- White space other than the space makes a line no statement (log entry 19). -/
theorem test_parse_white_space :
    parseLine " WR ARG1 , 1 ".toList = some (.wr .arg1 1) ∧
    parseLine "WR\tARG1, 1".toList = none ∧ parseLine "HALT\r".toList = none := by decide +kernel
theorem test_assembleText :
    (assembleText Params.reference "a:\n BRZ RESULT, a\n\nHALT").toOption =
      some [.branch .zero 0x058 0, .halt] := by decide +kernel
/-- 42_transform_lifting.md R110: the lifting constants are the values nearest to the decimals, here
ALPHA's magnitude 1.586134342059924 in units of 2^-1074. -/
theorem test_alpha : f64Round true (1586134342059924 * 2 ^ 1074) (10 ^ 15) = liftAlpha := by
  decide +kernel

/-- 95_test_vectors.md section 4.3, the Direct column: 1.0 to 10.0 under the derived bank. -/
theorem test_direct_cdf97 : directForward 0 cdf97Bank 10 crossSignal 10 =
    [0x3FFE2D4565867FF4, 0x40116290D2915068, 0x401C48C6001F0AA7, 0x4023A5CE19024943,
      0x4029A29C3466C1FB, 0x3FC6A09E667F3B16, 0xBD01E00000000000, 0xBD0B000000000000,
      0xBFC0859EC6363248, 0x3FE3931E965AB572] := by decide +kernel
/-- 95_test_vectors.md section 4.3, the Lifting column. -/
theorem test_lifting_cdf97 : liftForward 0 crossSignal 10 =
    [0x3FFE2D4565867FF3, 0x40116290D2915066, 0x401C48C6001F0AA5, 0x4023A5CE19024943,
      0x4029A29C3466C1FA, 0x3FC6A09E667F3B0E, 0xBD04E0727B185A96, 0xBD0BD5EDF975CE1D,
      0xBFC0859EC636322A, 0x3FE3931E965AB55C] := by decide +kernel
/-- 42_transform_lifting.md R114: the two columns agree to below 1e-15. -/
theorem test_cross_strategy : bandsAgree (10 ^ 15) (directForward 0 cdf97Bank 10 crossSignal 10)
    (liftForward 0 crossSignal 10) = true := by
  rw [test_direct_cdf97, test_lifting_cdf97]
  decide +kernel

/-! ### Witnesses: states and operands that meet the hypotheses of the obligations -/

/-- VDEC pending on a reader over C0 84 3D. -/
def pendingVdec : State := (reading [0xC0, 0x84, 0x3D]).withFetchWord 64 0x21

/-- XF_FWD pending on six elements that end where DMEM ends. -/
def pendingFwd : State :=
  (banked 0 .direct 0xFFFD0 signalX) |> fun s =>
    State.withFetchWord { s with arg0 := 0xFFFD0, arg1 := 6, arg2 := 1 } 64 0x03

/-- BS_INIT pending on the last buffer of a DMEM of 2^64 bytes that is in range. -/
def pendingTop : State :=
  State.withFetchWord { wideReset with arg0 := 0xFFFFFFFFFFFFFFFE, arg1 := 1 } 64 0x10

/-- XF_FWD's operands latched and nothing pending. -/
def readyFwd (n stride : Word) (strat : Strategy) (family : BitVec 8) : State :=
  withOperands 0x2000 n stride (banked family strat 0x2000 signalX)

theorem inv_pendingVdec : Sound pendingVdec := inv_of_check (by decide +kernel)
theorem inv_pendingFwd : Sound pendingFwd := inv_of_check (by decide +kernel)
theorem inv_pendingTop : Sound pendingTop := inv_of_check (by decide +kernel)
theorem inv_readyFwd_direct : Sound (readyFwd 4 1 .direct 0) := inv_of_check (by decide +kernel)
theorem inv_readyFwd_lifting : Sound (readyFwd 6 2 .lifting 1) := inv_of_check (by decide +kernel)

theorem witness_DecodeEncodeAgree :
    Instr.vdec.wellFormed = true ∧ decode 0x0000000000000021 = .ok .vdec := by decide +kernel

/-- RSV not 0, and both ends of each range of unassigned opcodes. -/
theorem witness_IllegalWordRaisesIllegalCmd :
    State.reset.status.busy = false ∧ (0x100 : Word).extractLsb' 8 56 ≠ 0 ∧
    (([0x05, 0x0F, 0x15, 0x17, 0x1B, 0x1F, 0x22, 0xFF] : List Word).map
      fun w => (w.extractLsb' 0 8).toNat) = [0x05, 0x0F, 0x15, 0x17, 0x1B, 0x1F, 0x22, 0xFF] := by
  decide +kernel

/-- A command, an illegal word, an idle engine, a host action, a host past its program's end; each
with the turn given and, but for the idle engine, with none. -/
theorem witness_StepRunsDecodedCommandOrHostAction :
    (pendingVdec.status.busy = true ∧ decode pendingVdec.cmdLatch = .ok .vdec ∧
      Instr.vdec.wellFormed = true ∧ pendingVdec.turns = [] ∧
      ({ pendingVdec with turns := [.engine, .host] } : State).turns = .engine :: [.host]) ∧
    ((State.reset.withFetchWord 64 0x105).status.busy = true ∧
      ∀ i, decode (State.reset.withFetchWord 64 0x105).cmdLatch ≠ .ok i) ∧
    (State.reset.status.busy = false ∧
      ({ State.reset with turns := [.engine] } : State).turns = .engine :: []) ∧
    ({ State.reset with host := { HostAgent.none with prog := [.halt] } } : State).host.prog[0]? =
      some .halt ∧
    ({ State.reset with turns := [.host] } : State).turns = .host :: [] ∧
    State.reset.host.prog.length ≤ State.reset.host.pc := by
  refine ⟨by decide +kernel, ⟨by decide +kernel, fun i h => ?_⟩, by decide +kernel⟩
  have e : decode (State.reset.withFetchWord 64 0x105).cmdLatch = .error (.reservedNonzero 1) := by
    decide +kernel
  rw [e] at h
  cases h

theorem witness_PendingCommandCompletes : Sound pendingFwd ∧ pendingFwd.status.busy = true :=
  ⟨inv_pendingFwd, by decide +kernel⟩

theorem witness_StepKeepsSoundness :
    (Sound pendingFwd ∧ ∃ t, step pendingFwd = .next t ∧ t.status.done = true) ∧
    Sound pendingTop ∧ ∃ t, step pendingTop = .next t ∧ cursorGood t.bs = true :=
  ⟨⟨inv_pendingFwd, exists_next (p := fun t => t.status.done) (by decide +kernel)⟩,
    inv_pendingTop, exists_next (p := fun t => cursorGood t.bs) (by decide +kernel)⟩

theorem witness_SoundRunIsSafe : Sound pendingVdec := inv_pendingVdec

theorem witness_CmdWriteIssues :
    State.reset.status.busy = false ∧ ∀ i, decode (0x0000000000000105 : Word) ≠ .ok i := by
  refine ⟨rfl, fun i h => ?_⟩
  have e : decode 0x0000000000000105 = .error (.reservedNonzero 1) := by decide +kernel
  rw [e] at h
  cases h

theorem witness_CmdWriteWhileBusyIsDropped : pendingVdec.status.busy = true := by decide +kernel

theorem witness_ErrorChangesStatusOnly : (reading []).status.err = false ∧
    ∃ t, exec .bsReadbit (reading []) = .next t ∧ t.status.err = true :=
  ⟨rfl, exists_next (p := fun t => t.status.err) (by decide +kernel)⟩

theorem witness_CommandCompletesOrRaises :
    (∃ t, exec .vdec pendingVdec = .next t ∧ decide (t.status.err = false) = true) ∧
    ∃ t, exec .bsReadbit (reading []) = .next t ∧ t.status.err = true :=
  ⟨exists_next (p := fun t => decide (t.status.err = false)) (by decide +kernel),
    exists_next (p := fun t => t.status.err) (by decide +kernel)⟩

theorem witness_StatusWriteClearsNamedBits : pendingVdec.status.busy = true ∧
    ∃ t, engineStep (writeReg .status 0x2 pendingVdec) = .next t ∧ t.status.done = true :=
  ⟨by decide +kernel, exists_next (p := fun t => t.status.done) (by decide +kernel)⟩

theorem witness_CtrlHoldsOnlyIrqEnable :
    (∃ t, exec .venc (withOperands 1 0 0 (writing 1)) = .next t ∧ (!t.irqEn) = true) ∧
    Reg.result ∉ [Reg.ctrl, .arg0, .arg1, .arg2, .cmd, .status] :=
  ⟨exists_next (p := fun t => !t.irqEn) (by decide +kernel), by decide⟩

theorem witness_ArgsAreOnlyTheHosts : ∃ t, exec .vdec pendingVdec = .next t ∧
    (t.arg0 == 0) = true := exists_next (p := fun t => t.arg0 == 0) (by decide +kernel)

theorem witness_ResultWrittenByFourCommands :
    (Instr.venc ∉ [Instr.bsReadbit, .bsGood, .bsInbytes, .vdec] ∧
      ∃ t, exec .venc (withOperands 1 0 0 (writing 1)) = .next t ∧ t.status.done = true) ∧
    (reading []).status.err = false ∧
      ∃ t, exec .vdec (reading []) = .next t ∧ t.status.err = true :=
  ⟨⟨by decide, exists_next (p := fun t => t.status.done) (by decide +kernel)⟩, rfl,
    exists_next (p := fun t => t.status.err) (by decide +kernel)⟩

theorem witness_StratWrittenBySelectOnly :
    (Instr.nop ≠ .xfSelect ∧ ∃ t, exec .nop State.reset = .next t ∧ t.status.done = true) ∧
    State.reset.status.err = false ∧
      ∃ t, exec .xfSelect (withOperands 2 0 0 State.reset) = .next t ∧ t.status.err = true :=
  ⟨⟨by decide, exists_next (p := fun t => t.status.done) (by decide +kernel)⟩, rfl,
    exists_next (p := fun t => t.status.err) (by decide +kernel)⟩

theorem witness_BankChangesByLoadOrReset :
    (∃ t, step { banked 0 .direct 0x2000 [] with turns := [.rst] } = .next t ∧
      (t.fbInfo != (banked 0 .direct 0x2000 []).fbInfo) = true) ∧
    ∃ t, step ((loading 0x1000 (haarWords 0)).withFetchWord 64 0x01 |>
        withOperands 0x1000 0 0) = .next t ∧
      (t.fbInfo != FbInfo.reset) = true :=
  ⟨exists_next (p := fun t => t.fbInfo != (banked 0 .direct 0x2000 []).fbInfo) (by decide +kernel),
    exists_next (p := fun t => t.fbInfo != FbInfo.reset) (by decide +kernel)⟩

theorem witness_CommandsWriteOnlyTheirParts :
    (∃ t, exec .fbLoad (loading 0x1000 (haarWords 0)) = .next t ∧ t.fbInfo.valid = true) ∧
    (∃ t, exec .xfFwd (readyFwd 4 1 .direct 0) = .next t ∧ t.status.done = true) ∧
    Instr.venc ∉ [Instr.bsReadbit, .bsGood, .bsInbytes, .vdec] ∧
    ∃ t, exec .venc (withOperands 1 0 0 (writing 1)) = .next t ∧ t.status.done = true :=
  ⟨exists_next (p := fun t => t.fbInfo.valid) (by decide +kernel),
    exists_next (p := fun t => t.status.done) (by decide +kernel), by decide,
    exists_next (p := fun t => t.status.done) (by decide +kernel)⟩

theorem witness_IdentificationIsConstant :
    Reg.param2 ∈ [Reg.id, .param0, .param1, .param2] ∧
    ∃ t, step pendingVdec = .next t ∧ t.status.done = true :=
  ⟨by decide, exists_next (p := fun t => t.status.done) (by decide +kernel)⟩

theorem witness_OnlyNamedWritesHaveEffect :
    (∃ t, hostAct (.regRead 0x030 64) pendingVdec = .next t ∧ (t.host.rdata == 0x210001) = true) ∧
    Reg.strat ∉ [Reg.cmd, .ctrl, .arg0, .arg1, .arg2, .status] ∧
    (0xFFFFFFFFFFFFFFF1 : Word).getLsbD 1 = false ∧
    (0xFFFFFFFFFFFFFFF1 : Word).getLsbD 2 = false ∧
    (0xFFFFFFFFFFFFFFF1 : Word).getLsbD 3 = false :=
  ⟨exists_next (p := fun t => t.host.rdata == 0x210001) (by decide +kernel), by decide,
    by decide +kernel, by decide +kernel, by decide +kernel⟩

theorem witness_ReservedReadsZeroMalformedRefused :
    (∀ off ∈ [0x038, 0x070, 0x078, 0x0A8, 0x0B8, 0x0E8, 0xFF8], off % 8 = 0 ∧
      (off = 0x038 ∨ (0x070 ≤ off ∧ off ≤ 0x07F) ∨ (0x0A8 ≤ off ∧ off ≤ 0x0BF) ∨
        (0x0E8 ≤ off ∧ off ≤ 0xFFF))) ∧
    ((4095 < 4096 ∧ 4095 % 8 ≠ 0) ∧ (0 < 4096 ∧ 32 ≠ 64)) := by decide

theorem witness_EveryRegisterIsReachedAtItsOffset :
    (∀ e ∈ [(0x000, Reg.id), (0x0A0, Reg.bsTotal), (0x0E0, Reg.wsTotal)],
      e ∈ [(0x000, Reg.id), (0x008, .param0), (0x010, .param1), (0x018, .param2), (0x020, .ctrl),
        (0x028, .cmd), (0x030, .status), (0x040, .arg0), (0x048, .arg1), (0x050, .arg2),
        (0x058, .result), (0x060, .strat), (0x068, .fbInfo), (0x080, .bsBase), (0x088, .bsPos),
        (0x090, .bsEnd), (0x098, .bsMask), (0x0A0, .bsTotal), (0x0C0, .wsBase), (0x0C8, .wsPos),
        (0x0D0, .wsEnd), (0x0D8, .wsMask), (0x0E0, .wsTotal)]) ∧
    State.reset.status.busy = false ∧ pendingVdec.status.busy = true := by decide +kernel

theorem witness_BusyReadIsOldOrNew : pendingVdec.status.busy = true ∧
    Reg.status ∈ [Reg.id, .param0, .param1, .param2, .ctrl, .status, .arg0, .arg1, .arg2, .cmd] :=
  ⟨by decide +kernel, by decide⟩

theorem witness_IrqFollowsCompletion :
    (∃ t, exec .nop { State.reset with irqEn := true } = .next t ∧ irq t = true) ∧
    State.reset.status.busy = false ∧ (0x2 : Word).getLsbD 1 = true ∧
    (0x1 : Word).getLsbD 0 = true ∧ (complete State.reset).status.done = true :=
  ⟨exists_next (p := irq) (by decide +kernel), rfl, by decide +kernel, by decide +kernel, rfl⟩

theorem witness_ResetGivesTheListedValues :
    Reg.bsEnd ∈ [Reg.ctrl, .cmd, .status, .arg0, .arg1, .arg2, .result, .strat, .fbInfo,
      .bsBase, .bsPos, .bsEnd, .bsTotal, .wsBase, .wsPos, .wsEnd, .wsTotal] ∧
    Reg.wsMask ∈ [Reg.bsMask, .wsMask] ∧ Reg.id ∈ [Reg.id, .param0, .param1, .param2] ∧
    ({ State.reset with turns := [.rst, .host] } : State).turns = .rst :: [.host] := by decide

theorem witness_ResetKeepsMemoryAndAloneUnloads :
    ({ readyFwd 4 1 .direct 0 with turns := [.rst, .host] } : State).turns = .rst :: [.host] ∧
    (readyFwd 4 1 .direct 0).fbInfo.valid = true ∧
    ∃ t, step { readyFwd 4 1 .direct 0 with turns := [.rst, .host] } = .next t ∧
      (!t.fbInfo.valid) = true :=
  ⟨rfl, rfl, exists_next (p := fun t => !t.fbInfo.valid) (by decide +kernel)⟩

/-- The second state's descriptor, of size 2, ends where DMEM ends. -/
theorem witness_FbLoadStoresTheBank :
    (firstFailure (bankFailures (loading 0x1000 (haarWords 0))) = none ∧
      (memRead64 (loading 0x1000 (haarWords 0)).dmem 0x1000).toNat = 4 ∧
      (memRead64 (loading 0x1000 (haarWords 0)).dmem (0x1000 + 40)).toNat = 0) ∧
    firstFailure (bankFailures (loading 0xFFF90 [2, 2, 2, 2, 2, 1])) = none ∧
    (memRead64 (loading 0xFFF90 [2, 2, 2, 2, 2, 1]).dmem 0xFFF90).toNat = 2 ∧
    (memRead64 (loading 0xFFF90 [2, 2, 2, 2, 2, 1]).dmem (0xFFF90 + 40)).toNat = 1 := by
  decide +kernel

/-- ALIGN, RANGE for the header, FB_INVALID for size 0, 3 and 18, for a length and for the family,
RANGE for the coefficients. -/
theorem witness_FbLoadRaisesFirstFailure :
    firstFailure (bankFailures (loading 0x1001 (haarWords 0))) = some 0x03 ∧
    firstFailure (bankFailures (loading 0xFFFD8 [])) = some 0x04 ∧
    firstFailure (bankFailures (loading 0x1000 [])) = some 0x05 ∧
    firstFailure (bankFailures (loading 0x1000 [3, 3, 3, 3, 3, 0])) = some 0x05 ∧
    firstFailure (bankFailures (loading 0x1000 [18, 18, 18, 18, 18, 0])) = some 0x05 ∧
    firstFailure (bankFailures (loading 0x1000 [4, 4, 4, 4, 6, 0])) = some 0x05 ∧
    firstFailure (bankFailures (loading 0x1000 [4, 4, 4, 4, 4, 2])) = some 0x05 ∧
    firstFailure (bankFailures (loading 0xFFF98 [2, 2, 2, 2, 2, 1])) = some 0x04 := by
  decide +kernel

theorem witness_XfSelectSetsStrategy :
    firstFailure (selectFailures (withOperands 1 0 0 (banked 1 .direct 0 []))) = none ∧
    firstFailure (selectFailures (withOperands 2 0 0 State.reset)) = some 0x02 ∧
    firstFailure (selectFailures (withOperands 1 0 0 State.reset)) = some 0x06 ∧
    firstFailure (selectFailures (withOperands 1 0 0 (banked 0 .direct 0 []))) = some 0x07 ∧
    (withOperands 0 0 0 State.reset).argLatch0 = 0 := by decide +kernel

/-- Each check of 41_transform_direct.md R96 in its order. -/
theorem witness_TransformsRaiseFirstFailure :
    firstFailure (transformFailures State.reset) = some 0x06 ∧
    firstFailure (transformFailures (readyFwd 4 1 .lifting 0)) = some 0x07 ∧
    firstFailure (transformFailures (readyFwd 5 1 .direct 0)) = some 0x08 ∧
    firstFailure (transformFailures (readyFwd 2 1 .direct 0)) = some 0x09 ∧
    firstFailure (transformFailures (readyFwd 4098 1 .direct 0)) = some 0x0A ∧
    firstFailure (transformFailures (readyFwd 4 0 .direct 0)) = some 0x02 ∧
    firstFailure (transformFailures (withOperands 0x2004 4 1 (banked 0 .direct 0 []))) =
      some 0x03 ∧
    firstFailure (transformFailures (withOperands 0xFFFE8 4 1 (banked 0 .direct 0 []))) =
      some 0x04 ∧
    firstFailure (transformFailures (readyFwd 4 (2 ^ 63) .direct 0)) = some 0x04 := by
  decide +kernel

/-- A direct transform of n = SIZE elements, a lifting one with stride 2, and one whose footprint
ends where DMEM ends. -/
theorem witness_XfFwdTransformsInPlace :
    (Sound (readyFwd 4 1 .direct 0) ∧
      firstFailure (transformFailures (readyFwd 4 1 .direct 0)) = none) ∧
    (Sound (readyFwd 6 2 .lifting 1) ∧
      firstFailure (transformFailures (readyFwd 6 2 .lifting 1)) = none) ∧
    Sound pendingFwd ∧ firstFailure (transformFailures pendingFwd) = none :=
  ⟨⟨inv_readyFwd_direct, by decide +kernel⟩, ⟨inv_readyFwd_lifting, by decide +kernel⟩,
    inv_pendingFwd, by decide +kernel⟩

theorem witness_XfInvTransformsInPlace :
    (Sound (readyFwd 4 1 .direct 0) ∧
      firstFailure (transformFailures (readyFwd 4 1 .direct 0)) = none) ∧
    Sound (readyFwd 6 2 .lifting 1) ∧
      firstFailure (transformFailures (readyFwd 6 2 .lifting 1)) = none :=
  ⟨⟨inv_readyFwd_direct, by decide +kernel⟩, inv_readyFwd_lifting, by decide +kernel⟩

/-- The smallest signal, at both ends of its scratch array. -/
theorem witness_SymExtendMirrorsTheSignal :
    (1 ≤ 1 ∧ 2 % 2 = 0 ∧ 2 * 1 ≤ 2 ∧ ([7, 8] : List F64).length = 2 ∧ 0 ≤ 2 + 2 * 1) ∧
    4 ≤ 2 + 2 * 1 := by decide

theorem witness_DirectForwardIsMirroredConvolution :
    2 ≤ 4 ∧ 4 % 2 = 0 ∧ 6 % 2 = 0 ∧ 4 ≤ 6 ∧ signalX.length = 6 ∧ 2 < 6 / 2 := by decide

theorem witness_DirectInverseIsMirroredConvolution :
    2 ≤ 4 ∧ 4 % 2 = 0 ∧ 6 % 2 = 0 ∧ 4 ≤ 6 ∧ signalY.length = 6 ∧ 5 < 6 := by decide

/-- The first and the last element of a signal, each at an edge; the last element of each half; and
the unpacked and unscaled array of a signal, where no operation gives a NaN. -/
theorem witness_LiftingFollowsItsPassesAndAgreesWithDirect :
    (2 ≤ 6 ∧ 6 % 2 = 0 ∧ 1 < 2 ∧ signalX.length = 6 ∧ 0 < 6 ∧ 5 < 6 ∧ 2 < 6 / 2) ∧
    (liftUnscale 0 6 (liftUnpack 6 signalX)).length = 6 ∧
    ∀ k < 6 / 2,
      elem (liftUnscale 0 6 (liftUnpack 6 signalX)) (2 * k) =
        f64Div (drawnNaN 0 (liftSite 4 6 (2 * k))) (elem signalX k) 0x3FF264C795071460 ∧
      elem (liftUnscale 0 6 (liftUnpack 6 signalX)) (2 * k + 1) =
        f64Mul (drawnNaN 0 (liftSite 4 6 (2 * k + 1))) (elem signalX (6 / 2 + k))
          0x3FF264C795071460 := by decide +kernel

/-- 2^53 + 1 units is halfway between 2^53 and 2^53 + 2, whose encodings end in 0 and 1. -/
theorem witness_RoundingIsNearestEven :
    0 < 1 ∧ f64Finite (f64Round false (2 ^ 53 + 1) 1) = true ∧
    f64Finite (f64Pack false (2 ^ 53 + 1)) = true ∧
    f64Pack false (2 ^ 53 + 1) ≠ f64Round false (2 ^ 53 + 1) 1 ∧
    f64Sign (f64Pack false (2 ^ 53 + 1)) = false ∧
    (((2 ^ 53 + 1 : Nat) : Int) - 1 * f64Mag (f64Round false (2 ^ 53 + 1) 1)).natAbs =
      (((2 ^ 53 + 1 : Nat) : Int) - 1 * f64Mag (f64Pack false (2 ^ 53 + 1))).natAbs := by
  decide +kernel

/-- 1.0 and 2^-53, whose sum is a tie; 1.0 over -0.0; the largest finite value, whose double is
infinite. -/
theorem witness_ArithmeticIsCorrectlyRounded :
    f64Finite 0x3FF0000000000000 = true ∧ f64Finite 0x3CA0000000000000 = true ∧
    f64Value 0x3CA0000000000000 ≠ 0 ∧ f64Value 0x3FF0000000000000 ≠ 0 ∧
    f64Value 0x8000000000000000 = 0 ∧ f64Finite 0x3FF0000000000001 = true ∧
    f64Value 0x3FF0000000000001 ≠
      f64Value (f64Add 0 0x3FF0000000000000 0x3CA0000000000000) ∧
    (f64Value 0x3FF0000000000000 + f64Value 0x3CA0000000000000).natAbs <
      (1 : Int).natAbs * f64Overflow ∧
    (1 : Int).natAbs * f64Overflow ≤
      (f64Value 0x7FEFFFFFFFFFFFFF + f64Value 0x7FEFFFFFFFFFFFFF).natAbs := by decide +kernel

/-- A NaN operand, and an operation of no NaN operand that gives one. -/
theorem witness_NaNsAreTheDrawnQuietNaN :
    (f64Class 0x7FF0000000000001 = .nan ∨ f64Class 0 = .nan) ∧
    f64Class (f64Div (f64QuietNaN 0) 0 0) = .nan := by decide +kernel

/-- A buffer that ends where DMEM ends, an empty one there, the last one in range of a DMEM of 2^64
bytes, one a byte too long, and one whose end would wrap. -/
theorem witness_StreamInitSetsTheCursor :
    (withOperands 0xFFFFE 2 0 State.reset).argLatch0.toNat +
        (withOperands 0xFFFFE 2 0 State.reset).argLatch1.toNat ≤ State.reset.params.memBytes ∧
    (withOperands 0x100000 0 0 State.reset).argLatch0.toNat +
        (withOperands 0x100000 0 0 State.reset).argLatch1.toNat ≤ State.reset.params.memBytes ∧
    (withOperands 0xFFFFFFFFFFFFFFFE 1 0 wideReset).argLatch0.toNat +
        (withOperands 0xFFFFFFFFFFFFFFFE 1 0 wideReset).argLatch1.toNat ≤
      wideReset.params.memBytes ∧
    (withOperands 0xFFFFFFFFFFFFFFFE 1 0 wideReset).argLatch0.toNat +
        (withOperands 0xFFFFFFFFFFFFFFFE 1 0 wideReset).argLatch1.toNat < 2 ^ 64 ∧
    2 ^ 64 ≤ (withOperands 0xFFFFFFFFFFFFFFFE 2 0 wideReset).argLatch0.toNat +
        (withOperands 0xFFFFFFFFFFFFFFFE 2 0 wideReset).argLatch1.toNat ∧
    State.reset.params.memBytes < (withOperands 0xFFFFE 3 0 State.reset).argLatch0.toNat +
        (withOperands 0xFFFFE 3 0 State.reset).argLatch1.toNat := by decide +kernel

/-- The first bit of a byte, the last bit of the buffer, and no bit left. -/
theorem witness_BsReadbitReturnsNextBit :
    (cursorCheck Params.reference (cursorInit 0x2000 1) ∧
      (cursorInit 0x2000 1).pos < (cursorInit 0x2000 1).limit ∧ 7 < 8 ∧
      (cursorInit 0x2000 1).mask = (1 : BitVec 8) <<< 7) ∧
    (cursorCheck Params.reference (cursorForward (cursorInit 0x2000 1) 7) ∧
      (cursorForward (cursorInit 0x2000 1) 7).pos < (cursorForward (cursorInit 0x2000 1) 7).limit ∧
      0 < 8 ∧ (cursorForward (cursorInit 0x2000 1) 7).mask = (1 : BitVec 8) <<< 0) ∧
    ¬ (cursorForward (cursorInit 0x2000 1) 8).pos <
      (cursorForward (cursorInit 0x2000 1) 8).limit := by decide +kernel

theorem witness_BsQueriesReportTheCursor :
    CursorOk Params.reference (cursorForward (cursorInit 0x2000 2) 11) :=
  cursor_of_check (by decide +kernel)

/-- A cursor in the last byte of its buffer. -/
theorem witness_AlignMovesToByteBoundary :
    CursorOk Params.reference (cursorForward (cursorInit 0x2000 2) 11) ∧
    (∃ t, exec .bsNextbyte { State.reset with bs := cursorForward (cursorInit 0x2000 2) 11 } =
      .next t ∧ t.status.done = true) ∧
    ∃ t, exec .wsAlign { State.reset with ws := cursorForward (cursorInit 0x2000 2) 11 } =
      .next t ∧ t.status.done = true :=
  ⟨cursor_of_check (by decide +kernel),
    exists_next (p := fun t => t.status.done) (by decide +kernel),
    exists_next (p := fun t => t.status.done) (by decide +kernel)⟩

/-- All 24 bits of a buffer that ends where DMEM ends. -/
theorem witness_ReaderReturnsTheBufferBitByBit :
    0xFFFFD + 3 ≤ State.reset.params.memBytes ∧ 0xFFFFD + 3 < 2 ^ 64 ∧
    24 ≤ 8 * 3 ∧ 24 = 23 + 1 ∧
    ({ State.reset with bs := cursorInit 0xFFFFD 3 } : State).bs = cursorInit 0xFFFFD 3 := by
  decide +kernel

/-- The last bit of the room, the first bit of a byte, a bit of 2, and no room. -/
theorem witness_WsPutbitWritesOneBit :
    (cursorCheck Params.reference (cursorForward (cursorInit 0x3000 1) 7) ∧ Memory.wf [] ∧
      (withOperands 1 0 0 State.reset).argLatch0.toNat ≤ 1 ∧
      1 ≤ bitsLeft (cursorForward (cursorInit 0x3000 1) 7) ∧ 0 < 8 ∧
      (cursorForward (cursorInit 0x3000 1) 7).mask = (1 : BitVec 8) <<< 0) ∧
    (cursorCheck Params.reference (cursorInit 0x3000 1) ∧ 1 ≤ bitsLeft (cursorInit 0x3000 1) ∧
      7 < 8 ∧ (cursorInit 0x3000 1).mask = (1 : BitVec 8) <<< 7) ∧
    1 < (withOperands 2 0 0 State.reset).argLatch0.toNat ∧
    cursorCheck Params.reference (cursorInit 0x3000 0) ∧ bitsLeft (cursorInit 0x3000 0) = 0 := by
  decide +kernel

theorem witness_UnitCountsByMagnitude :
    127 < 2 ^ 7 ∧ (2 ≤ 2 ∧ 2 ≤ 9 ∧ 2 ^ (7 * (2 - 1)) ≤ 128 ∧ 128 < 2 ^ (7 * 2)) ∧
    (9 ≤ 9 ∧ 2 ^ (7 * (9 - 1)) ≤ 2 ^ 63 - 1 ∧ 2 ^ 63 - 1 < 2 ^ (7 * 9)) ∧
    2 ^ 63 ≤ 2 ^ 64 - 1 ∧ 2 ^ 64 - 1 < 2 ^ 64 := by decide +kernel

theorem witness_EncodingIsTerminatedGroups :
    2 ^ 64 - 1 < 2 ^ 64 ∧ ([0xFF, 0x01] : List Byte).length ≠ 10 := by decide +kernel

/-- Ten units at bit 3 of a byte, in a room they fill but for 5 bits; the same with one byte
less. -/
theorem witness_VencWritesTheUnits :
    (cursorCheck Params.reference (cursorForward (cursorInit 0x3000 11) 3) ∧ Memory.wf [] ∧
      8 * (unitCount (2 ^ 64 - 1) : Int) ≤ bitsLeft (cursorForward (cursorInit 0x3000 11) 3)) ∧
    bitsLeft (cursorForward (cursorInit 0x3000 10) 3) < 8 * (unitCount (2 ^ 64 - 1) : Int) := by
  decide +kernel

/-- The non-canonical 80 00, and ten units whose last is 1. -/
theorem witness_VdecReturnsTheUnitsValue :
    (cursorCheck Params.reference (cursorInit 0x2000 2) ∧
      terminated [0x80, 0x00] = true ∧ ([0x80, 0x00] : List Byte).length ≤ 10 ∧
      8 * (2 : Int) ≤ bitsLeft (cursorInit 0x2000 2) ∧
      streamBits (reading [0x80, 0x00]).dmem (bitPos (cursorInit 0x2000 2)) (8 * 2) =
        unitStream [0x80, 0x00]) ∧
    cursorCheck Params.reference (cursorInit 0x2000 10) ∧
    terminated [0xFF, 0xFF, 0xFF, 0xFF, 0xFF, 0xFF, 0xFF, 0xFF, 0xFF, 0x01] = true ∧
    (([0xFF, 0xFF, 0xFF, 0xFF, 0xFF, 0xFF, 0xFF, 0xFF, 0xFF, 0x01] : List Byte).getD 9 0).toNat
      ≤ 1 ∧
    8 * (10 : Int) ≤ bitsLeft (cursorInit 0x2000 10) ∧
    streamBits (reading [0xFF, 0xFF, 0xFF, 0xFF, 0xFF, 0xFF, 0xFF, 0xFF, 0xFF, 0x01]).dmem
        (bitPos (cursorInit 0x2000 10)) (8 * 10) =
      unitStream [0xFF, 0xFF, 0xFF, 0xFF, 0xFF, 0xFF, 0xFF, 0xFF, 0xFF, 0x01] := by
  decide +kernel

/-- A stream that ends after one unit with its flag set, an empty stream, and a tenth unit of 2. -/
theorem witness_VdecRaisesOnMalformedStreams :
    (cursorCheck Params.reference (cursorInit 0x2000 1) ∧ continuing [0x80] = true ∧
      ([0x80] : List Byte).length < 10 ∧ 8 * (1 : Int) ≤ bitsLeft (cursorInit 0x2000 1) ∧
      bitsLeft (cursorInit 0x2000 1) < 8 * (1 : Int) + 8 ∧
      streamBits (reading [0x80]).dmem (bitPos (cursorInit 0x2000 1)) (8 * 1) =
        unitStream [0x80]) ∧
    (cursorCheck Params.reference (cursorInit 0x2000 0) ∧ continuing [] = true ∧
      8 * (0 : Int) ≤ bitsLeft (cursorInit 0x2000 0) ∧
      bitsLeft (cursorInit 0x2000 0) < 8 * (0 : Int) + 8) ∧
    cursorCheck Params.reference (cursorInit 0x2000 10) ∧
    continuing (List.replicate 9 0x80) = true ∧
    (List.replicate 9 (0x80 : Byte)).length = 9 ∧ 1 < (0x02 : Byte).toNat ∧
    80 ≤ bitsLeft (cursorInit 0x2000 10) ∧
    streamBits (reading (List.replicate 9 0x80 ++ [0x02])).dmem
        (bitPos (cursorInit 0x2000 10)) 80 =
      unitStream (List.replicate 9 0x80 ++ [0x02]) := by
  decide +kernel

/-- A room that the value's three units fill. -/
theorem witness_EncodeThenDecodeReturnsTheValue :
    Sound (withOperands 1000000 0 0 (writing 3)) ∧
    (withOperands 1000000 0 0 (writing 3)).ws.mask = 128 ∧
    8 * (unitCount 1000000 : Int) ≤ bitsLeft (writing 3).ws :=
  ⟨inv_of_check (by decide +kernel), by decide +kernel, by decide +kernel⟩

/-- Two bytes that end where DMEM ends, and two that end past it. -/
theorem witness_HostMemoryAccess :
    Memory.wf State.reset.dmem ∧
    0xFFFFE + ([1, 2] : List Byte).length ≤ State.reset.params.memBytes ∧
    0xFFFFE + 2 ≤ State.reset.params.memBytes ∧
    State.reset.params.memBytes < 0xFFFFF + ([1, 2] : List Byte).length ∧
    State.reset.params.memBytes < 0xFFFFF + 2 := by decide +kernel

theorem witness_WaitPollsUntilDone : State.reset.host.pc = 0 := rfl

theorem witness_CommandStatementExpands :
    (∀ a ∈ [0x2000, 6, 2 ^ 64 - 1], a < 2 ^ 64) ∧
    [0x2000, 6, 2 ^ 64 - 1].length = Instr.xfFwd.operandCount ∧
    [0x2000, 6].length ≠ Instr.xfFwd.operandCount := by decide +kernel

end Sys2Proof.Machine
end

section
/-! SUPPORT. What the engine, the host agent and a step can do, said once: the inversion lemmas of
`exec`, `engineStep`, `hostAct` and `step`, what a register write changes, and where a host access
lands. -/

namespace Sys2Proof.Machine

variable {i : Instr} {s t u : State} {r : Reg} {w : Word}

/-! ### Commands -/

theorem commandRule_status (h : commandRule i s = .ok u) : u.status = s.status := by
  rw [commandRule_frame h]

/-- A command that completes without a write of RESULT in its rule leaves RESULT
(10_state.md R30). -/
theorem commandRule_result (h : commandRule i s = .ok u)
    (hi : i ∉ [Instr.bsReadbit, .bsGood, .bsInbytes, .vdec]) : u.result = s.result := by
  obtain ⟨-, -, -, -, -, -, hresult⟩ := commandRule_parts h
  exact hresult hi

/-- What a command can change: beside STATUS, the parts its rule may write. -/
theorem exec_frame (h : exec i s = .next t) :
    t = { s with
      status := t.status, dmem := t.dmem, bs := t.bs, ws := t.ws, result := t.result,
      strat := t.strat, coef := t.coef, fbInfo := t.fbInfo, scratch := t.scratch,
      draws := t.draws } := by
  obtain ⟨u, hu, rfl⟩ | ⟨e, -, rfl⟩ := exec_next h
  · rw [commandRule_frame hu]; rfl
  · rfl

/-- STATUS after a command is that of a completion or of a recorded error
(60_exceptions.md R153, R160). -/
theorem exec_status (h : exec i s = .next t) :
    t.status = statusDone s.status ∨ ∃ e : CmdError, t.status = statusError s.status e.code := by
  obtain ⟨u, hu, rfl⟩ | ⟨e, -, rfl⟩ := exec_next h
  · exact .inl (by rw [complete_status, commandRule_status hu]; rfl)
  · exact .inr ⟨e, rfl⟩

/-! ### The engine's step -/

/-- Everything the engine's step can answer with a next state (60_exceptions.md R160,
30_encoding.md R74). -/
theorem engineStep_next (h : engineStep s = .next t) :
    (s.status.busy = false ∧ t = s) ∨
    (s.status.busy = true ∧
      ((∃ i, decode s.cmdLatch = .ok i ∧ exec i s = .next t) ∨
        ∃ x, decode s.cmdLatch = .error x ∧ t = raiseError .illegalCmd s)) := by
  unfold engineStep at h
  split at h
  · rename_i hbusy
    refine .inr ⟨hbusy, ?_⟩
    split at h
    · exact .inl ⟨_, ‹_›, h⟩
    · cases h; exact .inr ⟨_, ‹_›, rfl⟩
  · cases h; exact .inl ⟨Bool.eq_false_of_not_eq_true ‹_›, rfl⟩

/-- The end of a pending command sets DONE, whether it completes or fails
(60_exceptions.md R153, R160). -/
theorem engineStep_done (hbusy : s.status.busy = true) (h : engineStep s = .next t) :
    t.status.done = true := by
  obtain ⟨hidle, -⟩ | ⟨-, ⟨i, -, hexec⟩ | ⟨x, -, rfl⟩⟩ := engineStep_next h
  · rw [hbusy] at hidle; cases hidle
  · obtain hst | ⟨e, hst⟩ := exec_status hexec <;> rw [hst] <;> rfl
  · rfl

theorem engineStep_params (h : engineStep s = .next t) : t.params = s.params := by
  obtain ⟨-, rfl⟩ | ⟨-, ⟨i, -, hexec⟩ | ⟨x, -, rfl⟩⟩ := engineStep_next h
  · rfl
  · rw [exec_frame hexec]
  · rfl

/-! ### Register writes -/

theorem clearDone_if (b : Bool) (s : State) :
    (if b then { s with status := { s.status with done := false } } else s) =
      { s with status := { s.status with done := s.status.done && !b } } := by
  cases b <;> simp

theorem clearError_if (b : Bool) (s : State) :
    (if b then clearError s else s) =
      { s with status :=
        { s.status with
          err := s.status.err && !b, errcode := if b then 0 else s.status.errcode } } := by
  cases b <;> simp [clearError]

theorem clearOverrun_if (b : Bool) (s : State) :
    (if b then { s with status := { s.status with overrun := false } } else s) =
      { s with status := { s.status with overrun := s.status.overrun && !b } } := by
  cases b <;> simp

/-- A STATUS write field by field: its three parts touch different fields (10_state.md R28). -/
theorem writeStatus_eq (w : Word) (s : State) :
    writeStatus w s =
      { s with status :=
        { busy := s.status.busy
          done := s.status.done && !w.getLsbD 1
          err := s.status.err && !w.getLsbD 2
          errcode := if w.getLsbD 2 then 0 else s.status.errcode
          overrun := s.status.overrun && !w.getLsbD 3
          lastOpc := s.status.lastOpc } } := by
  simp only [writeStatus, clearDone_if, clearError_if]
  exact clearOverrun_if _ _

/-- A register that a host write does not reach ignores it (10_state.md R43). -/
theorem writeReg_readOnly (w : Word) (s : State)
    (h : r ∉ [Reg.ctrl, .arg0, .arg1, .arg2, .cmd, .status]) : writeReg r w s = s := by
  cases r with
  | ctrl | cmd | status | arg0 | arg1 | arg2 => simp at h
  | _ => rfl

/-- What a host write to any register can change: CTRL, STATUS, the ARGs, and at issue the
latch. -/
theorem writeReg_frame (r : Reg) (w : Word) (s : State) :
    writeReg r w s = { s with
      irqEn := (writeReg r w s).irqEn, status := (writeReg r w s).status,
      arg0 := (writeReg r w s).arg0, arg1 := (writeReg r w s).arg1,
      arg2 := (writeReg r w s).arg2, cmdLatch := (writeReg r w s).cmdLatch,
      argLatch0 := (writeReg r w s).argLatch0, argLatch1 := (writeReg r w s).argLatch1,
      argLatch2 := (writeReg r w s).argLatch2 } := by
  cases r with
  | cmd => simp only [writeReg, writeCmd]; split <;> rfl
  | status => simp only [writeReg, writeStatus_eq]
  | _ => rfl

/-! ### Where a host access lands -/

/-- Each register is at its own offset, and every other offset is reserved (10_state.md R24). -/
theorem regAt_eq_some_iff {off : Nat} : regAt off = some r ↔ off = regOffset r := by
  constructor
  · unfold regAt
    intro h
    split at h <;> cases h <;> rfl
  · rintro rfl
    cases r <;> rfl

/-- The reserved offsets of 10_state.md R24 hold no register. -/
theorem regAt_reserved {off : Nat}
    (h : off = 0x038 ∨ (0x070 ≤ off ∧ off ≤ 0x07F) ∨ (0x0A8 ≤ off ∧ off ≤ 0x0BF) ∨
      (0x0E8 ≤ off ∧ off ≤ 0xFFF)) : regAt off = none := by
  cases hreg : regAt off with
  | none => rfl
  | some r =>
    have hoff := regAt_eq_some_iff.mp hreg
    cases r <;> simp only [regOffset] at hoff <;> omega

/-- What an access to the block reaches, by its width and its offset (10_state.md R24, R44). -/
theorem hostTarget_block (p : Params) {off : Nat} (width : Nat) (hoff : off < 4096) :
    hostTarget p (p.regBase + off) width =
      if width ≠ 64 ∨ off % 8 ≠ 0 then .error .malformedRegisterAccess else .ok (regAt off) := by
  have hin : ¬(p.regBase + off < p.regBase ∨ p.regBase + 4096 ≤ p.regBase + off) := by omega
  rw [hostTarget, if_neg hin, Nat.add_sub_cancel_left]

theorem hostTarget_aligned (p : Params) {off : Nat} (hoff : off < 4096) (h8 : off % 8 = 0) :
    hostTarget p (p.regBase + off) 64 = .ok (regAt off) := by
  rw [hostTarget_block p 64 hoff, if_neg (by omega)]

theorem hostTarget_malformed (p : Params) {off width : Nat} (hoff : off < 4096)
    (hbad : width ≠ 64 ∨ off % 8 ≠ 0) :
    hostTarget p (p.regBase + off) width = .error .malformedRegisterAccess := by
  rw [hostTarget_block p width hoff, if_pos hbad]

/-! ### Host actions -/

/-- Every read but a draw returns the register's value (10_state.md R42). -/
theorem readReg_of_not_draw (h : readIsDraw s r = false) : readReg s r = regValue s r := by
  simp [readReg, h]

/-- A read returns the value before the pending command or the one after it, whatever the draw
(10_state.md R42 (b)). -/
theorem readReg_old_or_new (s : State) (r : Reg) :
    readReg s r = regValue s r ∨ ∃ t, engineStep s = .next t ∧ readReg s r = regValue t r := by
  unfold readReg
  split
  · unfold regValueAfter
    cases h : engineStep s with
    | next t => exact .inr ⟨t, rfl, rfl⟩
    | fault f => exact .inl rfl
    | refused x => exact .inl rfl
  · exact .inl rfl

theorem countDraw_frame (s : State) (target : Option Reg) :
    countDraw s target = { s with draws := (countDraw s target).draws } := by
  cases target with
  | none => rfl
  | some r => simp only [countDraw]; split <;> rfl

/-- A host read changes the draw count and the host's own fields only, when the host's way on
changes no more (10_state.md R43). -/
theorem hostRead_frame {addr width : Nat} {k : Word → State → State}
    (hk : ∀ v s, k v s = { s with host := (k v s).host })
    (h : hostRead addr width k s = .next t) :
    t = { s with host := t.host, draws := t.draws } := by
  unfold hostRead at h
  split at h
  · cases h
  · rename_i target _
    cases h
    rw [hk, countDraw_frame s target]

/-- A host read of a register changes the host's own fields and the draw count only
(10_state.md R43). -/
theorem hostAct_regRead_frame {addr width : Nat} (h : hostAct (.regRead addr width) s = .next t) :
    t = { s with host := t.host, draws := t.draws } := by
  rw [hostAct] at h
  exact hostRead_frame (fun _ _ => rfl) h

/-- A host branch reads a register, and changes no more (30_encoding.md R77). -/
theorem hostAct_branch_frame {test : BranchTest} {addr target : Nat}
    (h : hostAct (.branch test addr target) s = .next t) :
    t = { s with host := t.host, draws := t.draws } := by
  rw [hostAct] at h
  exact hostRead_frame (fun v s => by split <;> rfl) h

/-- Everything an action of the host can change: a register write by the register's rule; any other
action only DMEM, the draw count and the host's own fields. -/
theorem hostAct_next {op : HostOp} (h : hostAct op s = .next t) :
    (∃ r w, t = { writeReg r w s with host := t.host }) ∨
      t = { s with dmem := t.dmem, draws := t.draws, host := t.host } := by
  cases op with
  | regRead addr width => exact .inr (by rw [hostAct_regRead_frame h])
  | branch test addr target => exact .inr (by rw [hostAct_branch_frame h])
  | regWrite addr width w =>
    simp only [hostAct] at h
    split at h
    · cases h
    · rename_i target _
      cases h
      cases target with
      | none => exact .inr rfl
      | some r => exact .inl ⟨r, w, rfl⟩
  | memWrite addr bytes =>
    simp only [hostAct] at h
    split at h
    · cases h
    · cases h; exact .inr rfl
  | memRead addr len =>
    simp only [hostAct] at h
    split at h
    · cases h
    · cases h; exact .inr rfl
  | jmp target => cases h; exact .inr rfl
  | halt => cases h; exact .inr rfl

theorem hostAct_params {op : HostOp} (h : hostAct op s = .next t) : t.params = s.params := by
  obtain ⟨r, w, ht⟩ | ht := hostAct_next h
  · rw [ht, writeReg_frame]
  · rw [ht]

/-! ### The machine's step -/

/-- The host's step is the action at its position, or nothing past its program's end. -/
theorem hostStep_next (h : hostStep s = .next t) :
    (∃ op, s.host.prog[s.host.pc]? = some op ∧ hostAct op s = .next t) ∨
      (s.host.prog[s.host.pc]? = none ∧ t = s) := by
  unfold hostStep at h
  split at h
  · exact .inl ⟨_, ‹_›, h⟩
  · cases h; exact .inr ⟨‹_›, rfl⟩

/-- Everything a step can be (00_scope.md R8, log entry 1): the reset input, the engine's step or
the host's, with the turn taken. -/
theorem step_next (h : step s = .next t) :
    (s.turns.head? = some .rst ∧ t = applyReset { s with turns := s.turns.tail }) ∨
    ((s.turns.head? = some .engine ∨ s.turns = [] ∧ s.status.busy = true) ∧
      engineStep { s with turns := s.turns.tail } = .next t) ∨
    ((s.turns.head? = some .host ∨ s.turns = [] ∧ s.status.busy = false) ∧
      hostStep { s with turns := s.turns.tail } = .next t) := by
  unfold step takeTurn at h
  split at h <;> rename_i hturns <;> rw [hturns]
  · have heta : { s with turns := [].tail } = s := by rw [List.tail_nil, ← hturns]
    rw [heta]
    split at h
    · exact .inr (.inl ⟨.inr ⟨rfl, ‹_›⟩, h⟩)
    · exact .inr (.inr ⟨.inr ⟨rfl, Bool.eq_false_of_not_eq_true ‹_›⟩, h⟩)
  · exact .inr (.inl ⟨.inl rfl, h⟩)
  · exact .inr (.inr ⟨.inl rfl, h⟩)
  · cases h; exact .inl ⟨rfl, rfl⟩

/-- No step changes the parameters (00_scope.md R7, log entry 3). -/
theorem step_params (h : step s = .next t) : t.params = s.params := by
  obtain ⟨-, rfl⟩ | ⟨-, hengine⟩ | ⟨-, hhost⟩ := step_next h
  · rfl
  · have hp := engineStep_params hengine
    exact hp
  · obtain ⟨op, -, hact⟩ | ⟨-, rfl⟩ := hostStep_next hhost
    · have hp := hostAct_params hact
      exact hp
    · rfl

/-! ### What the host reads -/

theorem bitWord_eq (b : Bool) : bitWord b = if b then 1 else 0 := by
  cases b <;> rfl

/-- ID and PARAM0 to PARAM2 read the parameters and nothing else (10_state.md R22, R23). -/
theorem regValue_identification (h : r ∈ [Reg.id, .param0, .param1, .param2])
    (hp : t.params = s.params) : regValue t r = regValue s r := by
  simp only [List.mem_cons, List.not_mem_nil, or_false] at h
  rcases h with rfl | rfl | rfl | rfl <;> simp only [regValue, hp]

end Sys2Proof.Machine
end

section
/-! CERTIFICATES. The statements of 10_state.md settled: the register block, RESULT, CTRL, STATUS,
reads and `irq`. -/

namespace Sys2Proof.Machine

/-- Settles O18: a host write never reaches RESULT; a command that ends in an error changes STATUS
alone, and one that completes keeps RESULT by what its rule may write. -/
theorem resultWrittenByFourCommands : Obligations.ResultWrittenByFourCommands := by
  refine ⟨rfl, rfl, fun _ => rfl, fun _ _ => rfl, fun r w s => ?_, fun i s t h hcase => ?_⟩
  · rw [writeReg_frame]
  · obtain ⟨u, hu, rfl⟩ | ⟨e, -, rfl⟩ := exec_next h
    · obtain hi | ⟨hbefore, hafter⟩ := hcase
      · rw [complete_result, commandRule_result hu hi]
      · rw [complete_status, commandRule_status hu] at hafter
        exact absurd hafter (by simp [hbefore])
    · rfl

/-- Settles O22: the four registers read the parameters, which every step keeps. -/
theorem identificationIsConstant : Obligations.IdentificationIsConstant := by
  refine ⟨⟨rfl, rfl, rfl, rfl⟩,
    fun s => ⟨rfl, BitVec.toNat_ofNat _ _, BitVec.toNat_ofNat _ _, BitVec.toNat_ofNat _ _⟩,
    fun r w s hr => ?_, fun s t r hr h => regValue_identification hr (step_params h)⟩
  simp only [List.mem_cons, List.not_mem_nil, or_false] at hr
  rcases hr with rfl | rfl | rfl | rfl <;> rfl

/-- Settles O15: the write field by field, and the end of a pending command, which the write does
not take away. -/
theorem statusWriteClearsNamedBits : Obligations.StatusWriteClearsNamedBits := by
  refine fun s w => ⟨writeStatus_eq w s, fun t h hbusy => engineStep_done ?_ h⟩
  rw [writeReg, writeStatus_eq]
  exact hbusy

/-- Settles O16: CTRL reads back its one bit, no command writes it, and a write elsewhere is
ignored. -/
theorem ctrlHoldsOnlyIrqEnable : Obligations.CtrlHoldsOnlyIrqEnable := by
  refine ⟨rfl, fun _ => rfl, fun s w => ⟨rfl, bitWord_eq _⟩, rfl, fun i s t h => ?_,
    fun r w s hr => writeReg_readOnly w s hr⟩
  rw [exec_frame h]

/-- Settles O24: a read's frame, the read-only registers, and a STATUS write with no bit of
STATUS[3:1] set. -/
theorem onlyNamedWritesHaveEffect : Obligations.OnlyNamedWritesHaveEffect := by
  refine ⟨fun s t addr width => hostAct_regRead_frame, fun r w s hr => ?_,
    fun w s h1 h2 h3 => ?_⟩
  · refine writeReg_readOnly w s fun hmem => hr ?_
    have hperm : [Reg.ctrl, .arg0, .arg1, .arg2, .cmd, .status].Perm
        [.cmd, .ctrl, .arg0, .arg1, .arg2, .status] := by decide
    exact hperm.mem_iff.mp hmem
  · rw [writeReg, writeStatus_eq, h1, h2, h3]
    simp

/-- Settles O25: an aligned 64-bit access at a reserved offset reaches no register, and any other
access has no target. -/
theorem reservedReadsZeroMalformedRefused : Obligations.ReservedReadsZeroMalformedRefused := by
  refine fun s off w => ⟨fun h8 hres => ?_, fun width hoff hbad => ?_⟩
  · have htarget := hostTarget_aligned s.params (off := off) (by omega) h8
    rw [regAt_reserved hres] at htarget
    constructor
    · simp only [hostAct, hostRead, htarget]; rfl
    · simp only [hostAct, htarget]; rfl
  · have htarget := hostTarget_malformed s.params hoff hbad
    exact ⟨by simp only [hostAct, hostRead, htarget], by simp only [hostAct, htarget]⟩

/-- Settles O27: only a read of an engine-written register is a draw, and a draw gives the value
before or after the pending command. -/
theorem busyReadIsOldOrNew : Obligations.BusyReadIsOldOrNew := by
  refine fun s r _ => ⟨fun hr => readReg_of_not_draw ?_, readReg_old_or_new s r⟩
  simp only [List.mem_cons, List.not_mem_nil, or_false] at hr
  rcases hr with rfl | rfl | rfl | rfl | rfl | rfl | rfl | rfl | rfl | rfl <;>
    simp [readIsDraw, engineWritten]

/-- Settles O28: `irq` is a function of CTRL and STATUS, both 0 after reset. -/
theorem irqIsEnableAndDone : Obligations.IrqIsEnableAndDone :=
  ⟨fun _ => rfl, fun _ => rfl, rfl⟩

end Sys2Proof.Machine
end

section
/-! SUPPORT. The decoder by its two fields: which opcode each command has, which words decode to it,
and the opcodes of 30_encoding.md R73. -/

namespace Sys2Proof.Laws

/-- The opcode map and the opcodes of the commands agree (30_encoding.md R73). -/
theorem instrOfOpc_eq_some_iff {opc : BitVec 8} {i : Instr} :
    instrOfOpc opc = some i ↔ opc = i.opc := by
  constructor
  · intro h
    unfold instrOfOpc at h
    split at h <;> cases h <;> exact BitVec.eq_of_toNat_eq ‹_›
  · rintro rfl
    cases i <;> rfl

/-- A word decodes to a command exactly when RSV is 0 and OPC is the command's opcode
(30_encoding.md R70, R73). -/
theorem decode_eq_ok_iff {w : Word} {i : Instr} :
    decode w = .ok i ↔ rsvOf w = 0 ∧ opcOf w = i.opc := by
  rw [← instrOfOpc_eq_some_iff]
  unfold decode
  split
  · next hrsv =>
    cases instrOfOpc (opcOf w) <;> simp [hrsv]
  · next hrsv => exact ⟨nofun, fun h => absurd h.1 hrsv⟩

theorem wordFields (i : Instr) : WordFields.Statement i := by
  cases i with
  | nop => exact WordFields.nop
  | fbLoad => exact WordFields.fbLoad
  | xfSelect => exact WordFields.xfSelect
  | xfFwd => exact WordFields.xfFwd
  | xfInv => exact WordFields.xfInv
  | bsInit => exact WordFields.bsInit
  | bsReadbit => exact WordFields.bsReadbit
  | bsGood => exact WordFields.bsGood
  | bsInbytes => exact WordFields.bsInbytes
  | bsNextbyte => exact WordFields.bsNextbyte
  | wsInit => exact WordFields.wsInit
  | wsPutbit => exact WordFields.wsPutbit
  | wsAlign => exact WordFields.wsAlign
  | venc => exact WordFields.venc
  | vdec => exact WordFields.vdec

theorem decode_encode (i : Instr) : decode (encode i) = .ok i := by
  obtain ⟨-, hrsv, hopc, -, -⟩ := wordFields i
  exact decode_eq_ok_iff.mpr ⟨hrsv, hopc⟩

theorem mem_allInstrs (i : Instr) : i ∈ Machine.allInstrs := by
  cases i <;> decide

/-- A byte is the opcode of a command exactly when it is in the table, given as the list of the
commands' opcodes. -/
theorem exists_opc_eq_iff {opc : BitVec 8} :
    (∃ i : Instr, opc = i.opc) ↔ opc.toNat ∈ Machine.allInstrs.map (·.opc.toNat) := by
  simp only [List.mem_map, mem_allInstrs, true_and, BitVec.toNat_inj, eq_comm]

end Sys2Proof.Laws
end

section
/-! CERTIFICATES. The statement of 30_encoding.md R73 settled: the legal words are the table's. -/

namespace Sys2Proof.Laws

/-- Settles O1: a word decodes exactly when its RSV is 0 and its OPC is a command's opcode, and the
words of the table are the encodings of the commands. -/
theorem legalWordsAreTheTable : Obligations.LegalWordsAreTheTable := by
  refine ⟨fun w => ?_, decode_encode .nop, decode_encode .fbLoad, decode_encode .xfSelect,
    decode_encode .xfFwd, decode_encode .xfInv, decode_encode .bsInit, decode_encode .bsReadbit,
    decode_encode .bsGood, decode_encode .bsInbytes, decode_encode .bsNextbyte,
    decode_encode .wsInit, decode_encode .wsPutbit, decode_encode .wsAlign, decode_encode .venc,
    decode_encode .vdec⟩
  simp only [decode_eq_ok_iff, exists_and_left, exists_opc_eq_iff]
  rfl

end Sys2Proof.Laws
end

section
/-! SUPPORT. The two cases of a host write to CMD, by BUSY, and how a pending illegal word ends. -/

namespace Sys2Proof.Machine

variable {s : State}

/-- A CMD write to an idle engine issues the word (60_exceptions.md R159). -/
theorem writeReg_cmd_idle (w : Word) (hidle : s.status.busy = false) :
    writeReg .cmd w s = issue w s := by
  rw [writeReg, writeCmd, if_neg (by simp [hidle])]

/-- A CMD write while a command is pending is dropped (60_exceptions.md R161). -/
theorem writeReg_cmd_busy (w : Word) (hbusy : s.status.busy = true) :
    writeReg .cmd w s = overrun s := by
  rw [writeReg, writeCmd, if_pos hbusy]

/-- A pending illegal word ends in ILLEGAL_CMD (60_exceptions.md R160, 30_encoding.md R74). -/
theorem engineStep_illegal (hbusy : s.status.busy = true)
    (hillegal : ∀ i, decode s.cmdLatch ≠ .ok i) :
    engineStep s = .next (raiseError .illegalCmd s) := by
  rw [engineStep, if_pos hbusy]
  cases hword : decode s.cmdLatch with
  | ok i => exact absurd hword (hillegal i)
  | error x => rfl

end Sys2Proof.Machine
end

section
/-! CERTIFICATES. The statements of 60_exceptions.md on issue and overrun settled. -/

namespace Sys2Proof.Machine

/-- Settles O11: the write is an issue, which latches the word; an illegal latched word then fails
at the engine's step. -/
theorem cmdWriteIssues : Obligations.CmdWriteIssues := by
  intro s w hidle
  rw [writeReg_cmd_idle w hidle]
  exact ⟨rfl, fun hillegal => engineStep_illegal rfl hillegal⟩

/-- Settles O12: the write is an overrun. -/
theorem cmdWriteWhileBusyIsDropped : Obligations.CmdWriteWhileBusyIsDropped :=
  fun _ w hbusy => writeReg_cmd_busy w hbusy

end Sys2Proof.Machine
end

section
/-! SUPPORT. FB_INFO.VALID through a step: a command keeps a bank loaded, a host step keeps FB_INFO,
and what the turn of the reset input and the step of an idle engine are. -/

namespace Sys2Proof.Machine

variable {i : Instr} {s t u : State}

/-! ### A loaded bank stays loaded -/

/-- No command unloads a bank: FB_LOAD, the only one that writes FB_INFO, sets VALID
(40_filter_bank.md R87, R88). -/
theorem commandRule_keeps_valid (h : commandRule i s = .ok u) (hvalid : s.fbInfo.valid = true) :
    u.fbInfo.valid = true := by
  by_cases hi : i = .fbLoad
  · subst hi
    obtain ⟨rfl, -⟩ := fbLoad_ok h
    rfl
  · obtain ⟨-, -, -, -, hbank, -⟩ := commandRule_parts h
    obtain ⟨-, hinfo⟩ := hbank hi
    rw [hinfo, hvalid]

theorem exec_keeps_valid (h : exec i s = .next t) (hvalid : s.fbInfo.valid = true) :
    t.fbInfo.valid = true := by
  obtain ⟨u, hu, rfl⟩ | ⟨e, -, rfl⟩ := exec_next h
  · rw [complete_fbInfo]
    exact commandRule_keeps_valid hu hvalid
  · rw [raiseError_fbInfo]
    exact hvalid

theorem engineStep_keeps_valid (h : engineStep s = .next t) (hvalid : s.fbInfo.valid = true) :
    t.fbInfo.valid = true := by
  obtain ⟨-, rfl⟩ | ⟨-, ⟨i, -, hexec⟩ | ⟨x, -, rfl⟩⟩ := engineStep_next h
  · exact hvalid
  · exact exec_keeps_valid hexec hvalid
  · rw [raiseError_fbInfo]
    exact hvalid

/-- No action of the host changes FB_INFO (10_state.md R32, 40_filter_bank.md R88). -/
theorem hostAct_fbInfo {op : HostOp} (h : hostAct op s = .next t) : t.fbInfo = s.fbInfo := by
  obtain ⟨r, w, ht⟩ | ht := hostAct_next h
  · rw [ht, writeReg_frame]
  · rw [ht]

theorem hostStep_fbInfo (h : hostStep s = .next t) : t.fbInfo = s.fbInfo := by
  obtain ⟨op, -, hact⟩ | ⟨-, rfl⟩ := hostStep_next h
  · exact hostAct_fbInfo hact
  · rfl

/-- A step is the reset, or it keeps a loaded bank loaded (70_reset_and_hazards.md R173). -/
theorem step_rst_or_keeps_valid (h : step s = .next t) (hvalid : s.fbInfo.valid = true) :
    s.turns.head? = some .rst ∨ t.fbInfo.valid = true := by
  obtain ⟨hrst, -⟩ | ⟨-, hengine⟩ | ⟨-, hhost⟩ := step_next h
  · exact .inl hrst
  · exact .inr (engineStep_keeps_valid hengine hvalid)
  · refine .inr ?_
    rw [hostStep_fbInfo hhost]
    exact hvalid

/-! ### The reset and the idle engine -/

/-- The turn of the reset input is a reset at any moment (70_reset_and_hazards.md R170). -/
theorem step_rst {ts : List Turn} (hturns : s.turns = .rst :: ts) :
    step s = .next (applyReset { s with turns := ts }) := by
  rw [step, takeTurn, hturns]

/-- With no command pending the engine changes nothing (60_exceptions.md R160, log entry 20). -/
theorem engineStep_idle (hidle : s.status.busy = false) : engineStep s = .next s := by
  rw [engineStep, if_neg (by simp [hidle])]

end Sys2Proof.Machine
end

section
/-! CERTIFICATES. The statement of 70_reset_and_hazards.md R173 settled: what reset keeps, and what
it alone does. -/

namespace Sys2Proof.Machine

/-- Settles O31: the reset keeps DMEM and leaves the engine idle; every other step keeps VALID. -/
theorem resetKeepsMemoryAndAloneUnloads : Obligations.ResetKeepsMemoryAndAloneUnloads := by
  refine ⟨fun s ts hturns => ?_, fun s t h hloaded hunloaded => ?_⟩
  · exact ⟨_, step_rst hturns, rfl, rfl, rfl, engineStep_idle rfl⟩
  · obtain hrst | hkept := step_rst_or_keeps_valid h hloaded
    · exact hrst
    · rw [hunloaded] at hkept
      cases hkept

end Sys2Proof.Machine
end

section
/-! CERTIFICATES. The statements of 30_encoding.md on decoding settled: decode and encode agree, and
sample words. -/

namespace Sys2Proof.Laws

/-- A word is its RSV above its OPC (30_encoding.md R70). -/
theorem rsvOf_append_opcOf (w : Word) : rsvOf w ++ opcOf w = w := by
  apply BitVec.eq_of_getLsbD_eq
  intro k hk
  rw [BitVec.getLsbD_append]
  split
  · simp [opcOf, *]
  · rw [rsvOf, BitVec.getLsbD_extractLsb', decide_eq_true (by omega), Bool.true_and]
    congr 1
    omega

theorem encode_of_decode {w : Word} {i : Instr} (h : decode w = .ok i) : encode i = w := by
  obtain ⟨hrsv, hopc⟩ := decode_eq_ok_iff.mp h
  calc encode i = rsvOf w ++ opcOf w := by rw [hrsv, hopc]; rfl
    _ = w := rsvOf_append_opcOf w

/-- Settles O3: a decoded word is put together again from RSV = 0 and the command's opcode. -/
theorem decodeEncodeAgree : Obligations.DecodeEncodeAgree :=
  ⟨fun i _ => decode_encode i, fun _ i h => ⟨(wordFields i).1, encode_of_decode h⟩⟩

/-- Settles O2: each sample is a closed word. -/
theorem sampleWordsDecode : Obligations.SampleWordsDecode := by
  unfold Obligations.SampleWordsDecode
  decide

end Sys2Proof.Laws
end

section
/-! SUPPORT. The rules of the stream commands as equations: what each answers on a sound cursor, by
its stream position, and which error it raises otherwise. -/

namespace Sys2Proof.Machine

variable {s t u : State} {p : Params} {c : Cursor}

/-! ### Checks -/

theorem check_bind_of {α : Type} {bad : Prop} [Decidable bad] {e : CmdError} {f : Unit → Cmd α}
    (h : bad) : (check bad e >>= f) = .error (.error e) := by
  rw [check_bind, if_pos h]

theorem check_bind_of_not {α : Type} {bad : Prop} [Decidable bad] {e : CmdError}
    {f : Unit → Cmd α} (h : ¬bad) : (check bad e >>= f) = f () := by
  rw [check_bind, if_neg h]

/-! ### Sound cursors by stream position -/

theorem CursorOk.pos_lt_mem (hc : CursorOk p c) (h : bitPos c < 8 * c.limit.toNat) :
    c.pos.toNat < p.memBytes := by
  have hdiv := bitPos_div c
  have hlim := hc.limit_le_mem
  omega

/-- Data is left exactly when the next bit lies below the buffer's end (10_state.md R37). -/
theorem bitPos_lt_limit_iff : bitPos c < 8 * c.limit.toNat ↔ c.pos < c.limit := by
  have hdiv := bitPos_div c
  rw [BitVec.lt_def]
  omega

theorem cursorGood_eq_false_iff : cursorGood c = false ↔ ¬c.pos < c.limit := by
  rw [cursorGood, decide_eq_false_iff_not]

/-! ### BS_READBIT, WS_PUTBIT -/

/-- BS_READBIT with data left (43_bitstream.md R122). -/
theorem bsReadbit_good (hc : CursorOk s.params s.bs) (hlt : s.bs.pos < s.bs.limit) :
    bsReadbit s =
      .ok { s with
        result := bitWord (streamBit s.dmem (bitPos s.bs)), bs := cursorForward s.bs 1 } := by
  have hpos := hc.pos_lt_mem (bitPos_lt_limit_iff.mpr hlt)
  rw [bsReadbit, check_bind, if_neg (by rwa [cursorGood_eq_false_iff, not_not]),
    readBitPrim_eq hc.mask_power hpos]
  rfl

theorem bsReadbit_exhausted (h : ¬s.bs.pos < s.bs.limit) :
    bsReadbit s = .error (.error .streamExhausted) := by
  rw [bsReadbit, check_bind, if_pos (cursorGood_eq_false_iff.mpr h)]

/-- WS_PUTBIT with a legal bit and room (43_bitstream.md R128). -/
theorem wsPutbit_room (hc : CursorOk s.params s.ws) (hbit : operand0 s ≤ 1)
    (hroom : 1 ≤ bitsLeft s.ws) :
    wsPutbit s =
      .ok { s with
        dmem := putBitMemory s.dmem s.ws (decide (operand0 s = 1))
        ws := cursorForward s.ws 1 } := by
  have hleft := bitsLeft_eq s.ws
  have hpos := hc.pos_lt_mem (by omega)
  rw [wsPutbit, check_bind, if_neg (by omega), check_bind, if_neg (by omega),
    putBitPrim_eq hc.mask_power hpos]
  rfl

theorem wsPutbit_badArg (hbit : 1 < operand0 s) : wsPutbit s = .error (.error .badArg) := by
  rw [wsPutbit, check_bind, if_pos hbit]

theorem wsPutbit_overflow (hbit : operand0 s ≤ 1) (hroom : bitsLeft s.ws < 1) :
    wsPutbit s = .error (.error .writeOverflow) := by
  rw [wsPutbit, check_bind, if_neg (by omega), check_bind, if_pos hroom]

/-! ### VENC, VDEC -/

/-- VENC with room for the units (44_varint.md R142). -/
theorem encodeValue_room (hc : CursorOk s.params s.ws)
    (hroom : 8 * (unitCount (operand0 s) : Int) ≤ bitsLeft s.ws) :
    encodeValue s =
      .ok { s with
        dmem := putBitsMemory s.dmem s.ws (encodeBits (operand0 s))
        ws := cursorForward s.ws (8 * unitCount (operand0 s)) } := by
  have hleft := bitsLeft_eq s.ws
  have hlim := hc.limit_le_mem
  have hlen := encodeBits_length (operand0 s)
  have hcount := unitCount_range (s.argLatch0.isLt : operand0 s < 2 ^ 64)
  have hwidth := s.ws.limit.isLt
  rw [encodeValue, check_bind, if_neg (by omega),
    putBits_eq _ hc.mask_power (by omega) (by omega), hlen]
  rfl

theorem encodeValue_overflow (hroom : bitsLeft s.ws < 8 * (unitCount (operand0 s) : Int)) :
    encodeValue s = .error (.error .writeOverflow) := by
  rw [encodeValue, check_bind, if_pos hroom]

theorem decodeValue_of_ok {v : Nat}
    (h : decodeUnits s.params s.dmem 10 0 0 s.bs = .ok (v, c)) :
    decodeValue s = .ok { s with bs := c, result := BitVec.ofNat 64 v } := by
  rw [decodeValue, h]
  rfl

theorem decodeValue_of_error {x : Stop} (h : decodeUnits s.params s.dmem 10 0 0 s.bs = .error x) :
    decodeValue s = .error x := by
  rw [decodeValue, h]
  rfl

/-! ### A rule's answer and the command's -/

variable {i : Instr}

theorem exec_of_ok (h : commandRule i s = .ok u) : exec i s = .next (complete u) := by
  rw [exec_eq_finish, h, finish_ok]

theorem exec_of_error {e : CmdError} (h : commandRule i s = .error (.error e)) :
    exec i s = .next (raiseError e s) := by
  rw [exec_eq_finish, h, finish_error]

end Sys2Proof.Machine
end

section
/-! SUPPORT. The invariant through the engine's step: every command rule keeps it and none faults in
it, and so do completion and error recording. -/

namespace Sys2Proof.Machine

variable {i : Instr} {s t u : State}

/-! ### Which parts of the state the invariant speaks of -/

theorem BankOk.congr (h : BankOk s) (hparams : t.params = s.params) (hcoef : t.coef = s.coef)
    (hinfo : t.fbInfo = s.fbInfo) : BankOk t := by
  obtain ⟨hl, hh, hil, hih, hsize, hunloaded⟩ := h
  constructor <;> simpa only [hparams, hcoef, hinfo]

theorem StatusOk.congr (h : StatusOk s) (hstatus : t.status = s.status)
    (hlatch : t.cmdLatch = s.cmdLatch) : StatusOk t := by
  obtain ⟨hcode, herr, hdone, hnerr, hopc⟩ := h
  constructor <;> simpa only [hstatus, hlatch]

/-- A sound state stays sound when each part the invariant speaks of is kept or still as it asks. -/
theorem Sound.of_parts (h : Sound s) (hparams : t.params = s.params) (hwf : Memory.wf t.dmem)
    (hin : Memory.within t.dmem s.params.memBytes) (hbs : CursorOk s.params t.bs)
    (hws : CursorOk s.params t.ws) (hcoef : t.coef = s.coef) (hinfo : t.fbInfo = s.fbInfo)
    (hstatus : StatusOk t) : Sound t :=
  ⟨hparams ▸ h.params, hwf, hparams ▸ hin, hparams ▸ hbs, hparams ▸ hws,
    h.bank.congr hparams hcoef hinfo, hstatus⟩

/-! ### FB_LOAD -/

/-- A new array that fits leaves the old length (40_filter_bank.md R87). -/
theorem overlay_length {new old : List F64} (h : new.length ≤ old.length) :
    (overlay new old).length = old.length := by
  rw [overlay, List.length_append, List.length_drop]
  omega

theorem descriptorArray_length (m : Memory) (a size k : Nat) :
    (descriptorArray m a size k).length = size := loadArray_length _ _ _ _

/-- The commit of a legal descriptor leaves a sound bank (40_filter_bank.md R87, 10_state.md R32,
R33). -/
theorem commitBank_bankOk (h : Sound s) {a size fam : Nat} (hpos : size ≠ 0) (heven : size % 2 = 0)
    (hmax : size ≤ s.params.maxTaps) (hfam : fam = 0 ∨ fam = 1) :
    BankOk (commitBank a size fam s) := by
  obtain ⟨hl, hh, hil, hih, -, -⟩ := h.bank
  obtain ⟨-, ⟨-, -, htaps⟩, -⟩ := h.params
  have hlength : ∀ (k : Nat) (old : List F64), old.length = s.params.maxTaps →
      (overlay (descriptorArray s.dmem a size k) old).length = s.params.maxTaps := by
    intro k old hold
    rw [overlay_length (by rw [descriptorArray_length]; omega), hold]
  have hsize : (BitVec.ofNat 32 size).toNat = size := by
    rw [BitVec.toNat_ofNat, Nat.mod_eq_of_lt (by omega)]
  refine ⟨hlength 0 _ hl, hlength 1 _ hh, hlength 2 _ hil, hlength 3 _ hih, fun _ => ?_, nofun⟩
  show (BitVec.ofNat 32 size).toNat % 2 = 0 ∧ 2 ≤ (BitVec.ofNat 32 size).toNat ∧
    (BitVec.ofNat 32 size).toNat ≤ s.params.maxTaps ∧
    (BitVec.ofNat 8 fam = 0 ∨ BitVec.ofNat 8 fam = 1)
  rw [hsize]
  refine ⟨heven, by omega, hmax, ?_⟩
  rcases hfam with rfl | rfl
  · exact .inl rfl
  · exact .inr rfl

/-! ### Every rule -/

/-- A rule that only moves the reader keeps the invariant. -/
theorem Sound.with_reader (h : Sound s) {c : Cursor} (hc : CursorOk s.params c) (r : Word) :
    Sound { s with bs := c, result := r } :=
  h.of_parts rfl h.memory h.inside hc h.writer rfl rfl (h.status.congr rfl rfl)

/-- A rule that writes DMEM and moves the writer keeps the invariant. -/
theorem Sound.with_writer (h : Sound s) {m : Memory} {c : Cursor} (hwf : Memory.wf m)
    (hin : Memory.within m s.params.memBytes) (hc : CursorOk s.params c) :
    Sound { s with dmem := m, ws := c } :=
  h.of_parts rfl hwf hin h.reader hc rfl rfl (h.status.congr rfl rfl)

theorem applyTransform_sound {dir : Direction} (h : Sound s)
    (hchecks : transformChecks s = .ok ()) : Sound (applyTransform dir s) := by
  obtain ⟨hwf, hin, -, -⟩ := applyTransform_dmem (dir := dir) hchecks h.memory
  exact h.of_parts rfl hwf (hin h.inside) h.reader h.writer rfl rfl (h.status.congr rfl rfl)

theorem bsReadbit_sound (h : Sound s) (hu : bsReadbit s = .ok u) : Sound u := by
  obtain ⟨hlt, -⟩ := bsReadbit_ok hu
  rw [bsReadbit_good h.reader hlt] at hu
  cases hu
  have hroom := bitPos_lt_limit_iff.mpr hlt
  exact h.with_reader (cursorForward_ok h.reader (by omega)) _

/-- Bits that fit are written inside DMEM, and the writer stays inside its buffer. -/
theorem putBitsMemory_sound (h : Sound s) {bits : List Bool}
    (hroom : (bits.length : Int) ≤ bitsLeft s.ws) :
    Sound { s with
      dmem := putBitsMemory s.dmem s.ws bits, ws := cursorForward s.ws bits.length } := by
  have hleft := bitsLeft_eq s.ws
  have hlim := h.writer.limit_le_mem
  have hwidth := s.ws.limit.isLt
  exact h.with_writer (putBitsMemory_wf _ _ h.memory)
    (putBitsMemory_within _ h.inside (by omega) (by omega))
    (cursorForward_ok h.writer (by omega))

theorem wsPutbit_sound (h : Sound s) (hu : wsPutbit s = .ok u) : Sound u := by
  obtain ⟨hbit, hroom, -⟩ := wsPutbit_ok hu
  rw [wsPutbit_room h.writer hbit hroom] at hu
  cases hu
  exact putBitsMemory_sound h (bits := [decide (operand0 s = 1)]) hroom

theorem encodeValue_sound (h : Sound s) (hu : encodeValue s = .ok u) : Sound u := by
  obtain ⟨hroom, -⟩ := encodeValue_ok hu
  rw [encodeValue_room h.writer hroom] at hu
  cases hu
  have hlen := encodeBits_length (operand0 s)
  have hsound := putBitsMemory_sound h (bits := encodeBits (operand0 s)) (by omega)
  rwa [hlen] at hsound

theorem decodeValue_sound (h : Sound s) (hu : decodeValue s = .ok u) : Sound u := by
  obtain ⟨v, c, hdec, rfl⟩ := decodeValue_ok hu
  obtain ⟨v', n, hok, hn⟩ | herr | herr := decodeUnits_cases 10 0 0 h.reader (m := s.dmem)
  · rw [hdec] at hok
    cases hok
    exact h.with_reader (cursorForward_ok h.reader hn) _
  · rw [hdec] at herr; cases herr
  · rw [hdec] at herr; cases herr

/-- Every command's rule keeps the invariant. -/
theorem commandRule_sound (h : Sound s) (hu : commandRule i s = .ok u) : Sound u := by
  cases i with
  | nop => cases hu; exact h
  | fbLoad =>
    obtain ⟨rfl, hpos, heven, hmax, hfam⟩ := fbLoad_ok hu
    exact ⟨h.params, h.memory, h.inside, h.reader, h.writer,
      commitBank_bankOk h hpos heven hmax hfam, h.status.congr rfl rfl⟩
  | xfSelect =>
    rw [xfSelect_ok hu]
    exact h.of_parts rfl h.memory h.inside h.reader h.writer rfl rfl (h.status.congr rfl rfl)
  | xfFwd =>
    obtain ⟨hchecks, rfl⟩ := transform_ok hu
    exact applyTransform_sound h hchecks
  | xfInv =>
    obtain ⟨hchecks, rfl⟩ := transform_ok hu
    exact applyTransform_sound h hchecks
  | bsInit =>
    obtain ⟨⟨hin, hwrap⟩, rfl⟩ := bsInit_ok hu
    exact h.with_reader (cursorInit_ok hin hwrap) _
  | bsReadbit => exact bsReadbit_sound h hu
  | bsGood => cases hu; exact h.with_reader h.reader _
  | bsInbytes => cases hu; exact h.with_reader h.reader _
  | bsNextbyte => cases hu; exact h.with_reader (cursorAlign_ok h.reader) _
  | wsInit =>
    obtain ⟨⟨hin, hwrap⟩, rfl⟩ := wsInit_ok hu
    exact h.with_writer h.memory h.inside (cursorInit_ok hin hwrap)
  | wsPutbit => exact wsPutbit_sound h hu
  | wsAlign => cases hu; exact h.with_writer h.memory h.inside (cursorAlign_ok h.writer)
  | venc => exact encodeValue_sound h hu
  | vdec => exact decodeValue_sound h hu

/-! ### No rule faults -/

theorem check_bind_ne_fault {α : Type} {bad : Prop} [Decidable bad] {e : CmdError}
    {f : Unit → Cmd α} {x : Fault} (h : ¬bad → f () ≠ .error (.fault x)) :
    (check bad e >>= f) ≠ .error (.fault x) := by
  rw [check_bind]
  split
  · simp
  · exact h ‹_›

theorem check_ne_fault {bad : Prop} [Decidable bad] {e : CmdError} {x : Fault} :
    check bad e ≠ .error (.fault x) := by
  unfold check
  split <;> simp

theorem fbLoad_ne_fault {x : Fault} : fbLoad s ≠ .error (.fault x) := by
  unfold fbLoad
  repeat refine check_bind_ne_fault fun _ => ?_
  simp

theorem xfSelect_ne_fault {x : Fault} : xfSelect s ≠ .error (.fault x) := by
  unfold xfSelect
  repeat refine check_bind_ne_fault fun _ => ?_
  simp

theorem transformChecks_ne_fault {x : Fault} : transformChecks s ≠ .error (.fault x) := by
  unfold transformChecks
  repeat refine check_bind_ne_fault fun _ => ?_
  exact check_ne_fault

theorem transform_ne_fault {dir : Direction} {x : Fault} :
    transform dir s ≠ .error (.fault x) := by
  rw [transform]
  cases hchecks : transformChecks s with
  | ok a => simp
  | error y =>
    rw [cmd_error_bind]
    intro h
    cases h
    exact transformChecks_ne_fault hchecks

theorem decodeValue_ne_fault (h : Sound s) {x : Fault} : decodeValue s ≠ .error (.fault x) := by
  obtain ⟨v, n, hok, -⟩ | herr | herr := decodeUnits_cases 10 0 0 h.reader (m := s.dmem)
  · rw [decodeValue_of_ok hok]; simp
  · rw [decodeValue_of_error herr]; simp
  · rw [decodeValue_of_error herr]; simp

/-- No rule faults in a sound state: the cursors keep every byte access inside DMEM (00_scope.md
R11, 20_memory.md R55). -/
theorem commandRule_ne_fault (h : Sound s) {x : Fault} :
    commandRule i s ≠ .error (.fault x) := by
  cases i with
  | fbLoad => exact fbLoad_ne_fault
  | xfSelect => exact xfSelect_ne_fault
  | xfFwd => exact transform_ne_fault
  | xfInv => exact transform_ne_fault
  | bsInit => exact check_bind_ne_fault fun _ => by simp
  | wsInit => exact check_bind_ne_fault fun _ => by simp
  | bsReadbit =>
    show bsReadbit s ≠ _
    by_cases hlt : s.bs.pos < s.bs.limit
    · rw [bsReadbit_good h.reader hlt]; simp
    · rw [bsReadbit_exhausted hlt]; simp
  | wsPutbit =>
    show wsPutbit s ≠ _
    by_cases hbit : operand0 s ≤ 1
    · by_cases hroom : 1 ≤ bitsLeft s.ws
      · rw [wsPutbit_room h.writer hbit hroom]; simp
      · rw [wsPutbit_overflow hbit (by omega)]; simp
    · rw [wsPutbit_badArg (by omega)]; simp
  | venc =>
    show encodeValue s ≠ _
    by_cases hroom : 8 * (unitCount (operand0 s) : Int) ≤ bitsLeft s.ws
    · rw [encodeValue_room h.writer hroom]; simp
    · rw [encodeValue_overflow (by omega)]; simp
  | vdec => exact decodeValue_ne_fault h
  | nop | bsGood | bsInbytes | bsNextbyte | wsAlign => nofun

/-! ### Completion, errors, the engine's step -/

/-- A completion's STATUS keeps what the invariant asks (60_exceptions.md R160). -/
theorem complete_sound (h : Sound s) : Sound (complete s) :=
  h.of_parts rfl h.memory h.inside h.reader h.writer rfl rfl
    ⟨h.status.code_listed, h.status.err_iff_code, nofun, nofun, nofun⟩

/-- A recorded error has a listed code other than 0 (60_exceptions.md R150, R153). -/
theorem raiseError_sound (h : Sound s) (e : CmdError) : Sound (raiseError e s) := by
  obtain ⟨hne, hlisted⟩ := code_range e
  exact h.of_parts rfl h.memory h.inside h.reader h.writer rfl rfl
    ⟨hlisted, iff_of_true rfl hne, nofun, nofun, nofun⟩

theorem exec_sound (h : Sound s) (hexec : exec i s = .next t) : Sound t := by
  obtain ⟨u, hu, rfl⟩ | ⟨e, -, rfl⟩ := exec_next hexec
  · exact complete_sound (commandRule_sound h hu)
  · exact raiseError_sound h e

/-- In a sound state every command gives a next state. -/
theorem exec_total (h : Sound s) (i : Instr) : ∃ t, exec i s = .next t := by
  cases hu : commandRule i s with
  | ok u => exact ⟨_, exec_of_ok hu⟩
  | error x =>
    cases x with
    | error e => exact ⟨_, exec_of_error hu⟩
    | fault f => exact absurd hu (commandRule_ne_fault h)

theorem engineStep_sound (h : Sound s) (hstep : engineStep s = .next t) : Sound t := by
  obtain ⟨-, rfl⟩ | ⟨-, ⟨i, -, hexec⟩ | ⟨x, -, rfl⟩⟩ := engineStep_next hstep
  · exact h
  · exact exec_sound h hexec
  · exact raiseError_sound h _

theorem engineStep_total (h : Sound s) : ∃ t, engineStep s = .next t := by
  unfold engineStep
  split
  · split
    · exact exec_total h _
    · exact ⟨_, rfl⟩
  · exact ⟨_, rfl⟩

end Sys2Proof.Machine
end

section
/-! SUPPORT. The invariant through the host's actions, the reset and a step of the machine; and no
step from a sound state faults. -/

namespace Sys2Proof.Machine

variable {s t : State} {op : HostOp} {r : Reg} {w : Word}

/-! ### Reset -/

theorem cursorReset_ok (p : Params) : CursorOk p Cursor.reset := by
  refine ⟨le_rfl, le_rfl, Nat.zero_le _, by simp [Cursor.reset], fun _ => rfl⟩

/-- The reset values meet the invariant for any parameters of 00_scope.md R7
(70_reset_and_hazards.md R171). -/
theorem afterReset_sound {p : Params} {m : Memory} (hp : p.wf) (hwf : Memory.wf m)
    (hin : Memory.within m p.memBytes) (draws : Nat) (host : HostAgent) (turns : List Turn) :
    Sound (State.afterReset p m draws host turns) := by
  refine ⟨hp, hwf, hin, cursorReset_ok p, cursorReset_ok p, ?_, ?_⟩
  · exact ⟨List.length_replicate, List.length_replicate, List.length_replicate,
      List.length_replicate, nofun, fun _ => ⟨rfl, rfl⟩⟩
  · exact ⟨Nat.zero_le _, iff_of_false nofun fun hne => hne rfl, nofun, nofun, nofun⟩

theorem applyReset_sound (h : Sound s) : Sound (applyReset s) :=
  afterReset_sound h.params h.memory h.inside _ _ _

/-! ### The host's actions -/

/-- A host write to any register keeps what the invariant asks of STATUS: an issue clears DONE and
ERR, a STATUS write clears ERRCODE with ERR (60_exceptions.md R154, R159). -/
theorem writeReg_statusOk (h : Sound s) (r : Reg) (w : Word) : StatusOk (writeReg r w s) := by
  obtain ⟨hcode, herr, hdone, hnerr, hopc⟩ := h.status
  cases r with
  | cmd =>
    rw [writeReg, writeCmd]
    split
    · exact ⟨hcode, herr, hdone, hnerr, hopc⟩
    · exact ⟨Nat.zero_le _, iff_of_false nofun fun hne => hne rfl, fun _ => rfl, fun _ => rfl,
        fun _ => rfl⟩
  | status =>
    rw [writeReg, writeStatus_eq]
    refine ⟨?_, ?_, fun hb => ?_, fun hb => ?_, hopc⟩
    · dsimp only; split
      · exact Nat.zero_le _
      · exact hcode
    · cases hw : w.getLsbD 2 <;> simp [herr]
    · simp [hdone hb]
    · simp [hnerr hb]
  | _ => exact h.status.congr rfl rfl

theorem writeReg_sound (h : Sound s) (r : Reg) (w : Word) : Sound (writeReg r w s) := by
  have hstatus := writeReg_statusOk h r w
  rw [writeReg_frame] at hstatus ⊢
  exact h.of_parts rfl h.memory h.inside h.reader h.writer rfl rfl hstatus

/-- The host writes DMEM only with bytes that lie inside it (20_memory.md R50, log entry 14). -/
theorem hostAct_dmem (h : hostAct op s = .next t) :
    t.dmem = s.dmem ∨ ∃ addr bytes, addr + bytes.length ≤ s.params.memBytes ∧
      t.dmem = memWriteBytes s.dmem addr bytes := by
  cases op with
  | regRead addr width => rw [hostAct_regRead_frame h]; exact .inl rfl
  | branch test addr target => rw [hostAct_branch_frame h]; exact .inl rfl
  | regWrite addr width w =>
    simp only [hostAct] at h
    split at h
    · cases h
    · rename_i target _
      cases h
      cases target with
      | none => exact .inl rfl
      | some r => exact .inl (by rw [writeTarget, writeReg_frame]; rfl)
  | memWrite addr bytes =>
    simp only [hostAct] at h
    split at h
    · cases h
    · cases h; exact .inr ⟨addr, bytes, by omega, rfl⟩
  | memRead addr len =>
    simp only [hostAct] at h
    split at h
    · cases h
    · cases h; exact .inl rfl
  | jmp target => cases h; exact .inl rfl
  | halt => cases h; exact .inl rfl

theorem hostAct_memory (h : Sound s) (hact : hostAct op s = .next t) :
    Memory.wf t.dmem ∧ Memory.within t.dmem s.params.memBytes := by
  obtain hm | ⟨addr, bytes, hfits, hm⟩ := hostAct_dmem hact <;> rw [hm]
  · exact ⟨h.memory, h.inside⟩
  · exact ⟨memWriteBytes_wf _ _ h.memory, memWriteBytes_within _ _ h.inside hfits⟩

theorem hostAct_sound (h : Sound s) (hact : hostAct op s = .next t) : Sound t := by
  obtain ⟨hwf, hin⟩ := hostAct_memory h hact
  obtain ⟨r, w, ht⟩ | ht := hostAct_next hact
  · have hw := writeReg_sound h r w
    rw [ht]
    exact hw.of_parts rfl hw.memory hw.inside hw.reader hw.writer rfl rfl
      (hw.status.congr rfl rfl)
  · rw [ht]
    exact h.of_parts rfl hwf hin h.reader h.writer rfl rfl (h.status.congr rfl rfl)

/-- No action of the host faults: what it may not do is refused (log entry 14). -/
theorem hostAct_ne_fault (op : HostOp) (s : State) (f : Fault) : hostAct op s ≠ .fault f := by
  cases op with
  | jmp target => nofun
  | halt => nofun
  | regRead addr width => simp only [hostAct, hostRead]; split <;> nofun
  | branch test addr target => simp only [hostAct, hostRead]; split <;> nofun
  | regWrite addr width w => simp only [hostAct]; split <;> nofun
  | memWrite addr bytes => simp only [hostAct]; split <;> nofun
  | memRead addr len => simp only [hostAct]; split <;> nofun

theorem hostStep_sound (h : Sound s) (hstep : hostStep s = .next t) : Sound t := by
  obtain ⟨op, -, hact⟩ | ⟨-, rfl⟩ := hostStep_next hstep
  · exact hostAct_sound h hact
  · exact h

theorem hostStep_ne_fault (s : State) (f : Fault) : hostStep s ≠ .fault f := by
  unfold hostStep
  split
  · exact hostAct_ne_fault _ s f
  · nofun

/-! ### The machine's step -/

/-- The list of turns is no part of the invariant. -/
theorem Sound.with_turns (h : Sound s) (ts : List Turn) : Sound { s with turns := ts } :=
  h.of_parts rfl h.memory h.inside h.reader h.writer rfl rfl (h.status.congr rfl rfl)

theorem step_sound (h : Sound s) (hstep : step s = .next t) : Sound t := by
  obtain ⟨-, rfl⟩ | ⟨-, hengine⟩ | ⟨-, hhost⟩ := step_next hstep
  · exact applyReset_sound (h.with_turns _)
  · exact engineStep_sound (h.with_turns _) hengine
  · exact hostStep_sound (h.with_turns _) hhost

theorem engineStep_ne_fault (h : Sound s) (f : Fault) : engineStep s ≠ .fault f := by
  obtain ⟨t, ht⟩ := engineStep_total h
  rw [ht]
  nofun

theorem step_ne_fault (h : Sound s) (f : Fault) : step s ≠ .fault f := by
  unfold step takeTurn
  split
  · split
    · exact engineStep_ne_fault h f
    · exact hostStep_ne_fault s f
  · exact engineStep_ne_fault (h.with_turns _) f
  · exact hostStep_ne_fault _ f
  · nofun

/-- A run of any machine that faults does so at its first step or after it. -/
theorem run_fault_succ {M : Host.Core} {k : Nat} {x : M.State} {f : M.Fault}
    (h : M.run (k + 1) x = .fault f) :
    M.step x = .fault f ∨ ∃ y, M.step x = .next y ∧ M.run k y = .fault f := by
  rw [Host.Core.run] at h
  split at h
  · exact .inr ⟨_, ‹_›, h⟩
  · cases h; exact .inl ‹_›
  · cases h

end Sys2Proof.Machine
end

section
/-! CERTIFICATES. The statements on the invariant settled: reset establishes it, every step keeps
it, and with it a pending command completes and no run faults. -/

namespace Sys2Proof.Machine

/-- Settles O9: a step is the reset, the engine's or the host's, and each keeps the invariant. -/
theorem stepKeepsSoundness : Obligations.StepKeepsSoundness :=
  fun _ _ h hstep => step_sound h hstep

/-- Settles O8: the reset values over the reference parameters and an empty memory. -/
theorem resetStateIsSound : Obligations.ResetStateIsSound :=
  afterReset_sound (by decide) ⟨List.Pairwise.nil, nofun⟩ nofun _ _ _

/-- Settles O7: in a sound state the engine's step has a next state, and the end of a command writes
BUSY, DONE and the error fields alone of STATUS and no latch. -/
theorem pendingCommandCompletes : Obligations.PendingCommandCompletes := by
  intro s h hbusy
  obtain ⟨t, ht⟩ := engineStep_total h
  refine ⟨t, ht, ?_⟩
  obtain ⟨hidle, -⟩ | ⟨-, ⟨i, -, hexec⟩ | ⟨x, -, rfl⟩⟩ := engineStep_next ht
  · rw [hbusy] at hidle; cases hidle
  · rw [exec_frame hexec]
    obtain hst | ⟨e, hst⟩ := exec_status hexec <;> rw [hst] <;>
      exact ⟨rfl, rfl, rfl, rfl, rfl, rfl, rfl, rfl⟩
  · exact ⟨rfl, rfl, rfl, rfl, rfl, rfl, rfl, rfl⟩

/-- Settles O10, by induction on the number of steps: the next state is sound again. -/
theorem soundRunIsSafe : Obligations.SoundRunIsSafe := by
  intro s k h
  induction k generalizing s with
  | zero => exact fun f => nofun
  | succ k ih =>
    intro f hrun
    obtain hfault | ⟨t, hstep, hrest⟩ := run_fault_succ hrun
    · exact step_ne_fault h f hfault
    · exact ih t (step_sound h hstep) f hrest

end Sys2Proof.Machine
end

section
/-! SUPPORT. What a command's answer can be against the state before it: its error, its completion,
and its independence of ARG0 to ARG2. -/

namespace Sys2Proof.Machine

variable {i : Instr} {s t u : State} {a b c : Word}

/-- A command that gives a next state completed, its rule's changes made, or recorded an error on
the state before it (60_exceptions.md R153, R160). -/
theorem exec_done_or_error (h : exec i s = .next t) :
    (t.status = statusDone s.status ∧ ∃ u, commandRule i s = .ok u ∧ t = complete u) ∨
      ∃ e : CmdError, t = { s with status := statusError s.status e.code } := by
  obtain ⟨u, hu, rfl⟩ | ⟨e, -, rfl⟩ := exec_next h
  · refine .inl ⟨?_, u, hu, rfl⟩
    rw [complete_status, commandRule_status hu]
    rfl
  · exact .inr ⟨e, rfl⟩

/-- With ERR 0 before it, a command that leaves ERR 1 recorded an error. -/
theorem exec_error_of_err (h : exec i s = .next t) (hbefore : s.status.err = false)
    (hafter : t.status.err = true) :
    ∃ e : CmdError, t = { s with status := statusError s.status e.code } := by
  obtain ⟨hdone, -⟩ | herror := exec_done_or_error h
  · rw [hdone] at hafter
    exact absurd hafter (by simp [statusDone, hbefore])
  · exact herror

theorem exec_not_refused (i : Instr) (s : State) (r : Refusal) : exec i s ≠ .refused r := by
  rw [exec_eq_finish]
  exact finish_not_refused

/-! ### The ARG registers -/

/-- The three ARG registers with new values (10_state.md R29). -/
def setArgs (a b c : Word) (s : State) : State := { s with arg0 := a, arg1 := b, arg2 := c }

theorem finish_setArgs (s : State) (r : Cmd State) :
    finish (setArgs a b c s) (r.map (setArgs a b c)) = mapNext (setArgs a b c) (finish s r) := by
  cases r with
  | ok u => rfl
  | error x => cases x <;> rfl

theorem check_bind_map {α : Type} {bad : Prop} [Decidable bad] {e : CmdError} {g : α → α}
    {f f' : Unit → Cmd α} (h : f' () = (f ()).map g) :
    (check bad e >>= f') = (check bad e >>= f).map g := by
  rw [check_bind, check_bind]
  split
  · rfl
  · exact h

theorem cmd_bind_map {α β : Type} {x : Cmd α} {g : β → β} {f f' : α → Cmd β}
    (h : ∀ y, f' y = (f y).map g) : (x >>= f') = (x >>= f).map g := by
  cases x with
  | ok y => exact h y
  | error e => rfl

/-- A rule that reads its operands from the latch sees nothing of the ARG registers
(30_encoding.md R71). -/
theorem commandRule_setArgs (i : Instr) (s : State) :
    commandRule i (setArgs a b c s) = (commandRule i s).map (setArgs a b c) := by
  cases i with
  | nop | bsGood | bsInbytes | bsNextbyte | wsAlign => rfl
  | fbLoad =>
    show fbLoad _ = (fbLoad s).map _
    unfold fbLoad
    repeat refine check_bind_map ?_
    rfl
  | xfSelect =>
    show xfSelect _ = (xfSelect s).map _
    unfold xfSelect
    repeat refine check_bind_map ?_
    rfl
  | xfFwd | xfInv | vdec => exact cmd_bind_map fun _ => rfl
  | bsInit | wsInit => exact check_bind_map rfl
  | bsReadbit | venc => exact check_bind_map (cmd_bind_map fun _ => rfl)
  | wsPutbit => exact check_bind_map (check_bind_map (cmd_bind_map fun _ => rfl))

theorem exec_setArgs (i : Instr) (s : State) :
    exec i (setArgs a b c s) = mapNext (setArgs a b c) (exec i s) := by
  rw [exec_eq_finish, exec_eq_finish, commandRule_setArgs, finish_setArgs]

/-! ### STRAT and the bank -/

theorem exec_strat (h : exec i s = .next t) (hi : i ≠ .xfSelect) : t.strat = s.strat := by
  obtain ⟨u, hu, rfl⟩ | ⟨e, -, rfl⟩ := exec_next h
  · obtain ⟨-, -, -, -, -, hstrat, -⟩ := commandRule_parts hu
    exact hstrat hi
  · rfl

/-- A command that changes the bank is an FB_LOAD that completed (40_filter_bank.md R88). -/
theorem exec_bank_changed (h : exec i s = .next t)
    (hchanged : t.coef ≠ s.coef ∨ t.fbInfo ≠ s.fbInfo) :
    i = .fbLoad ∧ t.status = statusDone s.status := by
  obtain ⟨hdone, u, hu, rfl⟩ | ⟨e, rfl⟩ := exec_done_or_error h
  · refine ⟨?_, hdone⟩
    by_contra hi
    obtain ⟨-, -, -, -, hbank, -⟩ := commandRule_parts hu
    obtain ⟨hcoef, hinfo⟩ := hbank hi
    exact hchanged.elim (fun hne => hne hcoef) fun hne => hne hinfo
  · exact hchanged.elim (fun hne => absurd rfl hne) fun hne => absurd rfl hne

/-- An engine step that changes the bank ran FB_LOAD, which completed. -/
theorem engineStep_bank_changed (h : engineStep s = .next t)
    (hchanged : t.coef ≠ s.coef ∨ t.fbInfo ≠ s.fbInfo) :
    s.status.busy = true ∧ decode s.cmdLatch = .ok .fbLoad ∧
      t.status = statusDone s.status := by
  obtain ⟨-, rfl⟩ | ⟨hbusy, ⟨i, hdecode, hexec⟩ | ⟨x, -, rfl⟩⟩ := engineStep_next h
  · exact hchanged.elim (fun hne => absurd rfl hne) fun hne => absurd rfl hne
  · obtain ⟨rfl, hdone⟩ := exec_bank_changed hexec hchanged
    exact ⟨hbusy, hdecode, hdone⟩
  · exact hchanged.elim (fun hne => absurd rfl hne) fun hne => absurd rfl hne

theorem hostStep_bank (h : hostStep s = .next t) : t.coef = s.coef ∧ t.fbInfo = s.fbInfo := by
  obtain ⟨op, -, hact⟩ | ⟨-, rfl⟩ := hostStep_next h
  · obtain ⟨r, w, ht⟩ | ht := hostAct_next hact
    · rw [ht, writeReg_frame]; exact ⟨rfl, rfl⟩
    · rw [ht]; exact ⟨rfl, rfl⟩
  · exact ⟨rfl, rfl⟩

end Sys2Proof.Machine
end

section
/-! CERTIFICATES. The statements on errors and on what commands leave alone settled. -/

namespace Sys2Proof.Machine

/-- Settles O13: ERR 1 after ERR 0 is a recorded error, which writes STATUS alone. -/
theorem errorChangesStatusOnly : Obligations.ErrorChangesStatusOnly :=
  fun _ _ _ hbefore h hafter => exec_error_of_err h hbefore hafter

/-- Settles O14: a rule's answer is completed or recorded, and never refused. -/
theorem commandCompletesOrRaises : Obligations.CommandCompletesOrRaises := by
  refine fun i s => ⟨fun t h => ?_, exec_not_refused i s⟩
  obtain ⟨hdone, -⟩ | herror := exec_done_or_error h
  · exact .inl hdone
  · exact .inr herror

/-- Settles O17: the host's writes, the reset values, and a command on other ARG values. -/
theorem argsAreOnlyTheHosts : Obligations.ArgsAreOnlyTheHosts := by
  refine ⟨fun s w => ⟨rfl, rfl, rfl, rfl, rfl, rfl⟩, ⟨rfl, rfl, rfl⟩, fun i s t h => ?_,
    fun i s a b c => exec_setArgs i s⟩
  rw [exec_frame h]
  exact ⟨rfl, rfl, rfl⟩

/-- Settles O19: a host write leaves STRAT alone, and so does a command that is not XF_SELECT or
records an error. -/
theorem stratWrittenBySelectOnly : Obligations.StratWrittenBySelectOnly := by
  refine ⟨fun s => ?_, rfl, fun r w s => ?_, fun i s t h hcase => ?_⟩
  · show stratWord s.strat = _
    cases s.strat <;> rfl
  · rw [writeReg_frame]
  · obtain hi | ⟨hbefore, hafter⟩ := hcase
    · exact exec_strat h hi
    · obtain ⟨e, rfl⟩ := exec_error_of_err h hbefore hafter
      rfl

/-- Settles O20: a step that is not the reset changes the bank only as an engine step on FB_LOAD
that completed. -/
theorem bankChangesByLoadOrReset : Obligations.BankChangesByLoadOrReset := by
  intro s t h hchanged
  obtain ⟨hrst, -⟩ | ⟨hturn, hengine⟩ | ⟨-, hhost⟩ := step_next h
  · exact .inl hrst
  · obtain ⟨hbusy, hdecode, hdone⟩ := engineStep_bank_changed hengine hchanged
    refine .inr ⟨hbusy, hdecode, ?_, fun herr => ?_⟩
    · obtain hhead | ⟨hnil, -⟩ := hturn
      · rw [hhead]; simp
      · rw [hnil]; simp
    · rw [hdone]; exact herr
  · obtain ⟨hcoef, hinfo⟩ := hostStep_bank hhost
    exact hchanged.elim (fun hne => absurd hcoef hne) fun hne => absurd hinfo hne

/-- Settles O21: the parts that no rule names, and those that each rule may write. -/
theorem commandsWriteOnlyTheirParts : Obligations.CommandsWriteOnlyTheirParts := by
  intro i s t h
  refine ⟨?_, ?_⟩
  · rw [exec_frame h]
    exact ⟨rfl, rfl, rfl, rfl, rfl, rfl, rfl, rfl, rfl, rfl, rfl⟩
  · obtain ⟨u, hu, rfl⟩ | ⟨e, -, rfl⟩ := exec_next h
    · have hparts := commandRule_parts hu
      exact hparts
    · exact ⟨fun _ => rfl, fun _ => rfl, fun _ => rfl, fun _ => rfl, fun _ => ⟨rfl, rfl⟩,
        fun _ => rfl, fun _ => rfl⟩

/-- Settles O29: the end of a command sets DONE; an issue and the write of 1 to DONE clear it. -/
theorem irqFollowsCompletion : Obligations.IrqFollowsCompletion := by
  refine ⟨fun i s t h => ?_, fun s w hidle => ?_, fun s w hw => ?_, fun s w hw hdone => ?_⟩
  · rw [irq, exec_frame h]
    obtain hst | ⟨e, hst⟩ := exec_status h <;> simp [hst, statusDone, statusError]
  · rw [writeReg_cmd_idle w hidle]
    simp [irq]
  · rw [writeReg, writeStatus_eq]
    simp [irq, hw]
  · simp [irq, writeReg, hw, hdone]

/-- Settles O32: its rule is the state itself. -/
theorem nopOnlyCompletes : Obligations.NopOnlyCompletes :=
  fun _ => rfl

end Sys2Proof.Machine
end

section
/-! SUPPORT. Steps as equations by the turn, the placed word, and the words that STATUS and FB_INFO
read as. -/

namespace Sys2Proof.Machine

variable {i : Instr} {s t : State} {ts : List Turn}

/-! ### The step by its turn -/

theorem step_engine (hturns : s.turns = .engine :: ts) :
    step s = engineStep { s with turns := ts } := by
  rw [step, takeTurn, hturns]

theorem step_host (hturns : s.turns = .host :: ts) : step s = hostStep { s with turns := ts } := by
  rw [step, takeTurn, hturns]

theorem step_default_busy (hturns : s.turns = []) (hbusy : s.status.busy = true) :
    step s = engineStep s := by
  rw [step, takeTurn, hturns]
  exact if_pos hbusy

theorem step_default_idle (hturns : s.turns = []) (hidle : s.status.busy = false) :
    step s = hostStep s := by
  rw [step, takeTurn, hturns]
  exact if_neg (by simp [hidle])

/-- The engine's step on a legal word (60_exceptions.md R160). -/
theorem engineStep_legal (hbusy : s.status.busy = true) (hword : decode s.cmdLatch = .ok i) :
    engineStep s = exec i s := by
  rw [engineStep, if_pos hbusy, hword]

theorem hostStep_of_some {op : HostOp} (hop : s.host.prog[s.host.pc]? = some op) :
    hostStep s = hostAct op s := by
  rw [hostStep, hop]

theorem hostStep_halted (hend : s.host.prog.length ≤ s.host.pc) : hostStep s = .next s := by
  rw [hostStep, List.getElem?_eq_none hend]

/-! ### Command words -/

/-- A word whose RSV or OPC is none of the table's decodes to no command (30_encoding.md R74). -/
theorem decode_ne_ok_of_illegal {w : Word}
    (h : w.extractLsb' 8 56 ≠ 0 ∨
      (0x05 ≤ (w.extractLsb' 0 8).toNat ∧ (w.extractLsb' 0 8).toNat ≤ 0x0F) ∨
      (0x15 ≤ (w.extractLsb' 0 8).toNat ∧ (w.extractLsb' 0 8).toNat ≤ 0x17) ∨
      (0x1B ≤ (w.extractLsb' 0 8).toNat ∧ (w.extractLsb' 0 8).toNat ≤ 0x1F) ∨
      0x22 ≤ (w.extractLsb' 0 8).toNat) (i : Instr) : decode w ≠ .ok i := by
  intro hword
  obtain ⟨hrsv, hopc⟩ := Laws.decode_eq_ok_iff.mp hword
  obtain hne | hranges := h
  · exact hne hrsv
  · have hcode : (w.extractLsb' 0 8).toNat = i.opc.toNat := congrArg BitVec.toNat hopc
    rw [hcode] at hranges
    cases i <;> simp [Instr.opc] at hranges

theorem tableWord_toNat (w : Word) : tableWord 64 w.toNat = w := by
  rw [tableWord, Nat.mod_eq_of_lt w.isLt, BitVec.ofNat_toNat, BitVec.setWidth_eq]

theorem opcOf_encode (i : Instr) : opcOf (encode i) = i.opc := by
  obtain ⟨-, -, hopc, -, -⟩ := Laws.wordFields i
  exact hopc

/-! ### Register words -/

theorem toNat_append_add {m n : Nat} (x : BitVec m) (y : BitVec n) :
    (x ++ y).toNat = 2 ^ n * x.toNat + y.toNat := by
  rw [BitVec.toNat_append, ← Nat.shiftLeft_add_eq_or_of_lt y.isLt, Nat.shiftLeft_eq, Nat.mul_comm]

theorem toNat_statusWord (x : Status) :
    (statusWord x).toNat =
      x.busy.toNat + 2 * x.done.toNat + 4 * x.err.toNat + 8 * x.overrun.toNat +
        2 ^ 8 * x.errcode.toNat + 2 ^ 16 * x.lastOpc.toNat := by
  simp only [statusWord, toNat_append_add, BitVec.toNat_ofBool, BitVec.ofNat_eq_ofNat,
    BitVec.toNat_ofNat, Nat.zero_mod]
  omega

theorem toNat_fbInfoWord (f : FbInfo) :
    (fbInfoWord f).toNat = f.valid.toNat + 2 ^ 8 * f.family.toNat + 2 ^ 16 * f.size.toNat := by
  simp only [fbInfoWord, toNat_append_add, BitVec.toNat_ofBool, BitVec.ofNat_eq_ofNat,
    BitVec.toNat_ofNat, Nat.zero_mod]
  omega

theorem toNat_maskWord (m : BitVec 8) : (maskWord m).toNat = m.toNat := by
  rw [maskWord, BitVec.toNat_setWidth, Nat.mod_eq_of_lt (by have := m.isLt; omega)]

/-- Beside the parameters, every register reads after any reset what it reads at power-on
(70_reset_and_hazards.md R171). -/
theorem regValue_applyReset (s : State) {r : Reg} (h : r ∉ [Reg.param0, .param1, .param2]) :
    regValue (applyReset s) r = regValue State.reset r := by
  cases r with
  | param0 | param1 | param2 => simp at h
  | _ => rfl

/-! ### The register map -/

/-- The registers that a command may write (10_state.md R42 (b)). -/
theorem engineWritten_iff (r : Reg) :
    engineWritten r = true ↔
      r ∈ [Reg.result, .strat, .fbInfo, .bsBase, .bsPos, .bsEnd, .bsMask, .bsTotal,
        .wsBase, .wsPos, .wsEnd, .wsMask, .wsTotal] := by
  cases r <;> decide

theorem readIsDraw_iff (s : State) (r : Reg) :
    readIsDraw s r = true ↔ s.status.busy = true ∧
      r ∈ [Reg.result, .strat, .fbInfo, .bsBase, .bsPos, .bsEnd, .bsMask, .bsTotal,
        .wsBase, .wsPos, .wsEnd, .wsMask, .wsTotal] := by
  rw [readIsDraw, Bool.and_eq_true, engineWritten_iff]

/-- A register's offset is 8-byte aligned and in the block (10_state.md R24). -/
theorem regOffset_in_block (r : Reg) : regOffset r < 4096 ∧ regOffset r % 8 = 0 := by
  cases r <;> decide

theorem hostTarget_reg (p : Params) (r : Reg) :
    hostTarget p (p.regBase + regOffset r) 64 = .ok (some r) := by
  obtain ⟨hin, h8⟩ := regOffset_in_block r
  rw [hostTarget_aligned p hin h8, regAt_eq_some_iff.mpr rfl]

/-- A host read of a register by its offset (10_state.md R24, R43). -/
theorem hostAct_regRead_reg (s : State) (r : Reg) :
    hostAct (.regRead (s.params.regBase + regOffset r) 64) s =
      .next { s with
        draws := if readIsDraw s r = true then s.draws + 1 else s.draws
        host := { s.host with rdata := readReg s r, pc := s.host.pc + 1 } } := by
  simp only [hostAct, hostRead, hostTarget_reg, readTarget, countDraw]
  split <;> rfl

/-- A host write of a register by its offset (10_state.md R24). -/
theorem hostAct_regWrite_reg (s : State) (r : Reg) (w : Word) :
    hostAct (.regWrite (s.params.regBase + regOffset r) 64 w) s =
      .next (hostAt (s.host.pc + 1) (writeReg r w s)) := by
  simp only [hostAct, hostTarget_reg, writeTarget, hostNext]
  rw [writeReg_frame]

end Sys2Proof.Machine
end

section
/-! CERTIFICATES. The statements on the step, on illegal and placed words, on what registers read as
and on reset settled. -/

namespace Sys2Proof.Machine

/-- Settles O4: the word is issued, and a word that decodes to no command fails at the engine's
step. -/
theorem illegalWordRaisesIllegalCmd : Obligations.IllegalWordRaisesIllegalCmd := by
  intro s w hidle hillegal
  rw [writeReg_cmd_idle w hidle]
  exact ⟨rfl, rfl, engineStep_illegal rfl (decode_ne_ok_of_illegal hillegal)⟩

/-- Settles O5: the step by the turn that is next, and by what that agent finds to do. -/
theorem stepRunsDecodedCommandOrHostAction : Obligations.StepRunsDecodedCommandOrHostAction := by
  refine ⟨fun s i hbusy hword _ => ⟨fun hnil => ?_, fun ts hturns => ?_⟩,
    fun s hbusy hillegal => ⟨fun hnil => ?_, fun ts hturns => ?_⟩,
    fun s ts hidle hturns => ?_,
    fun s op hop => ⟨fun hnil hidle => ?_, fun ts hturns => ?_⟩,
    fun s hend => ⟨fun hnil hidle => ?_, fun ts hturns => ?_⟩⟩
  · rw [step_default_busy hnil hbusy, engineStep_legal hbusy hword]
  · exact (step_engine hturns).trans (engineStep_legal (s := { s with turns := ts }) hbusy hword)
  · rw [step_default_busy hnil hbusy, engineStep_illegal hbusy hillegal]
    rfl
  · exact (step_engine hturns).trans
      (engineStep_illegal (s := { s with turns := ts }) hbusy hillegal)
  · exact (step_engine hturns).trans (engineStep_idle (s := { s with turns := ts }) hidle)
  · rw [step_default_idle hnil hidle, hostStep_of_some hop]
  · exact (step_host hturns).trans (hostStep_of_some (s := { s with turns := ts }) hop)
  · rw [step_default_idle hnil hidle, hostStep_halted hend]
  · exact (step_host hturns).trans (hostStep_halted (s := { s with turns := ts }) hend)

/-- Settles O6: the placed word is latched and pending, and no turn comes before the engine's. -/
theorem placedWordRunsNext : Obligations.PlacedWordRunsNext := by
  intro s i
  have hplaced : s.withFetchWord 64 (encode i).toNat = placeCommand (encode i) s := by
    rw [State.withFetchWord, tableWord_toNat]
  rw [hplaced]
  constructor
  · rw [placeCommand, issue, opcOf_encode]
  · have hlatch : decode (placeCommand (encode i) s).cmdLatch = .ok i := Laws.decode_encode i
    exact (step_default_busy (s := placeCommand (encode i) s) rfl rfl).trans
      (engineStep_legal rfl hlatch)

/-- Settles O23: the words of STATUS, FB_INFO and the masks by their fields. -/
theorem registerContentsAsRead : Obligations.RegisterContentsAsRead :=
  fun s => ⟨toNat_statusWord s.status, toNat_fbInfoWord s.fbInfo, toNat_maskWord s.bs.mask,
    toNat_maskWord s.ws.mask, rfl, rfl, rfl, rfl, rfl, rfl, rfl, rfl⟩

/-- Settles O26: an entry of the map is a register at its offset, which an aligned access
reaches. -/
theorem everyRegisterIsReachedAtItsOffset : Obligations.EveryRegisterIsReachedAtItsOffset := by
  refine ⟨fun r => by cases r <;> decide, fun s off r w hmem => ?_⟩
  have hoff : off = regOffset r := by
    simp only [List.mem_cons, List.not_mem_nil, or_false, Prod.mk.injEq] at hmem
    rcases hmem with h | h | h | h | h | h | h | h | h | h | h | h | h | h | h | h | h | h | h | h |
      h | h | h <;> obtain ⟨rfl, rfl⟩ := h <;> rfl
  subst hoff
  refine ⟨?_, fun hidle => readReg_of_not_draw ?_, hostAct_regWrite_reg s r w, ?_⟩
  · rw [hostAct_regRead_reg]
    simp only [readIsDraw_iff]
  · simp [readIsDraw, hidle]
  · rw [writeReg_frame]

/-- Settles O30: each listed register reads its reset value whatever the state was. -/
theorem resetGivesTheListedValues : Obligations.ResetGivesTheListedValues := by
  have hzero : ∀ r ∈ [Reg.ctrl, .cmd, .status, .arg0, .arg1, .arg2, .result, .strat, .fbInfo,
      .bsBase, .bsPos, .bsEnd, .bsTotal, .wsBase, .wsPos, .wsEnd, .wsTotal],
      r ∉ [Reg.param0, .param1, .param2] ∧ regValue State.reset r = 0 := by decide
  have hmask : ∀ r ∈ [Reg.bsMask, .wsMask],
      r ∉ [Reg.param0, .param1, .param2] ∧ regValue State.reset r = 0x80 := by decide
  refine fun s => ⟨fun r hr => ?_, fun r hr => ?_, fun r hr => regValue_identification hr rfl, rfl,
    fun ts hturns => step_rst hturns⟩
  · obtain ⟨hfree, hvalue⟩ := hzero r hr
    rw [regValue_applyReset s hfree, hvalue]
  · obtain ⟨hfree, hvalue⟩ := hmask r hr
    rw [regValue_applyReset s hfree, hvalue]

end Sys2Proof.Machine
end

section
/-! SUPPORT. The host's DMEM accesses, its poll of STATUS, and the expansion of a command
statement. -/

namespace Sys2Proof.Machine

/-- WAIT reads STATUS, which is never a draw, and branches on its DONE bit (30_encoding.md R78). -/
theorem hostAct_waitOp (s : State) (pos : Nat) :
    hostAct (waitOp s.params pos) s =
      .next { s with host := { s.host with
        rdata := regValue s .status
        pc := if branchTaken (.bitClear 1) (regValue s .status) then pos
          else s.host.pc + 1 } } := by
  have hdraw : readIsDraw s .status = false := Bool.and_false _
  simp only [waitOp, hostAct, hostRead, regAddr, hostTarget_reg, readTarget, countDraw,
    readReg_of_not_draw hdraw, hdraw]
  cases branchTaken (.bitClear 1) (regValue s .status) <;> rfl

/-- Bit 1 of STATUS is DONE (10_state.md R27). -/
theorem statusWord_getLsbD_done (x : Status) : (statusWord x).getLsbD 1 = x.done := by
  have hbusy := x.busy.toNat_lt
  rw [← BitVec.testBit_toNat, toNat_statusWord, Nat.testBit_eq_decide_div_mod_eq]
  cases x.done with
  | false => exact decide_eq_false (by rw [Bool.toNat_false]; omega)
  | true => exact decide_eq_true (by rw [Bool.toNat_true]; omega)

/-- The operand writes of an expansion, at the offsets of ARG0 to ARG2 (30_encoding.md R78). -/
theorem operandWrites_eq (p : Params) {operands : List Nat} (h : operands.length ≤ 3) :
    operandWrites p operands =
      List.zipWith (fun off a => HostOp.regWrite (p.regBase + off) 64 (BitVec.ofNat 64 a))
        [0x040, 0x048, 0x050] operands := by
  match operands, h with
  | [], _ => rfl
  | [_], _ => rfl
  | [_, _], _ => rfl
  | [_, _, _], _ => rfl

theorem operandWrites_length (p : Params) {operands : List Nat} (h : operands.length ≤ 3) :
    (operandWrites p operands).length = operands.length := by
  rw [operandWrites_eq p h, List.length_zipWith]
  exact Nat.min_eq_right h

/-- A command statement is accepted exactly with its number of operands, each of 64 bits
(30_encoding.md R77). -/
theorem wellFormed_cmd (i : Instr) {operands : List Nat} (h : ∀ a ∈ operands, a < 2 ^ 64) :
    (Stmt.cmd i operands).wellFormed = true ↔ operands.length = i.operandCount := by
  have himm : operands.all immOk = true :=
    List.all_eq_true.mpr fun a ha => decide_eq_true (h a ha)
  rw [Stmt.wellFormed, himm, Bool.and_true, beq_iff_eq]

theorem assemble_cmd (p : Params) (i : Instr) (operands : List Nat) :
    assemble p [.cmd i operands] =
      if (Stmt.cmd i operands).wellFormed = true then .ok (commandOps p 0 i operands)
      else .error (.illFormed (.cmd i operands)) := by
  rw [assemble, assembleFrom]
  split
  · simp [expandStmt, assembleFrom, bind, Except.bind, pure, Except.pure]
  · rfl

end Sys2Proof.Machine
end

section
/-! CERTIFICATES. The statements on the host's side settled: DMEM accesses, WAIT, and the expansion
of command statements. -/

namespace Sys2Proof.Machine

/-- Settles O58: an access inside DMEM is the write or the read of its bytes, any other is
refused. -/
theorem hostMemoryAccess : Obligations.HostMemoryAccess := by
  intro s addr bytes len
  refine ⟨fun hwf hin =>
      ⟨memWriteBytes s.dmem addr bytes, ?_, memRead_memWriteBytes hwf addr bytes⟩,
    fun hin => ?_, fun hout => ?_, fun hout => ?_⟩
  · rw [hostAct, if_neg (by omega)]
    rfl
  · rw [hostAct, if_neg (by omega)]
    rfl
  · rw [hostAct, if_pos hout]
  · rw [hostAct, if_pos hout]

/-- Settles O59: the branch of WAIT goes back exactly while DONE reads 0. -/
theorem waitPollsUntilDone : Obligations.WaitPollsUntilDone := by
  intro s pos hpc
  have hbranch : branchTaken (.bitClear 1) (regValue s .status) = !s.status.done := by
    rw [branchTaken, regValue, statusWord_getLsbD_done]
  rw [hostAct_waitOp, hbranch, hpc]
  cases s.status.done <;> rfl

/-- Settles O60: with its number of operands the statement is well formed and expands, and with any
other it is ill formed. -/
theorem commandStatementExpands : Obligations.CommandStatementExpands := by
  intro p i operands himm
  rw [assemble_cmd]
  constructor
  · intro hcount
    obtain ⟨-, -, -, -, hthree⟩ := Laws.wordFields i
    have hlen : operands.length ≤ 3 := hcount ▸ hthree
    rw [if_pos ((wellFormed_cmd i himm).mpr hcount), commandOps, operandWrites_length p hlen,
      operandWrites_eq p hlen, Nat.zero_add]
    rfl
  · intro hcount
    rw [if_neg (mt (wellFormed_cmd i himm).mp hcount)]

end Sys2Proof.Machine
end

section
/-! SUPPORT. The reader and the writer one bit at a time: where a cursor's mask stands, the bit
there, and a run of reads. -/

namespace Sys2Proof.Machine

variable {s t : State} {p : Params} {c : Cursor}

/-! ### The bit under the mask -/

/-- A mask with bit k set stands `7 - k` places below the top (10_state.md R37). -/
theorem log2m_one_shift {k : Nat} (hk : k < 8) : log2m ((1 : BitVec 8) <<< k) = k := by
  interval_cases k <;> decide

/-- One bit on, by the mask's bit: past bit 0 the next byte's first bit (43_bitstream.md R120,
R129). -/
theorem cursorAdvance_of_mask {k : Nat} (hk : k < 8) (hmask : c.mask = (1 : BitVec 8) <<< k) :
    cursorAdvance c =
      { c with
        pos := if k = 0 then c.pos + 1 else c.pos
        mask := if k = 0 then 128 else (1 : BitVec 8) <<< (k - 1)
        total := c.total + 1 } := by
  have hone : (1 : BitVec 8) <<< k = 1 ↔ k = 0 := by
    interval_cases k <;> decide
  have hshift : k ≠ 0 → ((1 : BitVec 8) <<< k) >>> 1 = (1 : BitVec 8) <<< (k - 1) := by
    interval_cases k <;> decide
  simp only [cursorAdvance, hmask, hone]
  split
  · rfl
  · rw [hshift ‹_›]

theorem bitPos_mod_of_mask {k : Nat} (hk : k < 8) (hmask : c.mask = (1 : BitVec 8) <<< k) :
    bitPos c % 8 = 7 - k := by
  rw [bitPos_mod, hmask, log2m_one_shift hk]

/-- The next bit in stream order is the mask's bit of the byte at the position
(20_memory.md R53). -/
theorem streamBit_bitPos_of_mask (m : Memory) {k : Nat} (hk : k < 8)
    (hmask : c.mask = (1 : BitVec 8) <<< k) :
    streamBit m (bitPos c) = (memRead m c.pos.toNat).getLsbD k := by
  have hmod := bitPos_mod_of_mask hk hmask
  rw [streamBit, bitPos_div]
  congr 1
  omega

/-- Bit j of a byte by its place in stream order. -/
theorem getLsbD_eq_streamBit (m : Memory) (a : Nat) {j : Nat} (hj : j < 8) :
    (memRead m a).getLsbD j = streamBit m (8 * a + (7 - j)) := by
  have hdiv : (8 * a + (7 - j)) / 8 = a := by omega
  have hmod : 7 - (8 * a + (7 - j)) % 8 = j := by omega
  rw [streamBit, hdiv, hmod]

/-! ### Reads one after another -/

theorem exec_bsReadbit_good (hc : CursorOk s.params s.bs) (hlt : s.bs.pos < s.bs.limit) :
    exec .bsReadbit s =
      .next { s with
        result := bitWord (streamBit s.dmem (bitPos s.bs))
        bs := cursorForward s.bs 1
        status := statusDone s.status } :=
  exec_of_ok (i := .bsReadbit) (bsReadbit_good hc hlt)

/-- `k` reads that lie inside the buffer move the reader `k` bits on and leave the last bit read in
RESULT (43_bitstream.md R126). -/
theorem execTimes_bsReadbit (k : Nat) (hc : CursorOk s.params s.bs)
    (hk : bitPos s.bs + k ≤ 8 * s.bs.limit.toNat) :
    ∃ t, execTimes .bsReadbit k s = .next t ∧ t.bs = cursorForward s.bs k ∧ t.dmem = s.dmem ∧
      ∀ j, k = j + 1 → t.result = bitWord (streamBit s.dmem (bitPos s.bs + j)) := by
  induction k generalizing s with
  | zero => exact ⟨s, rfl, (cursorForward_zero hc.mask_power).symm, rfl, nofun⟩
  | succ k ih =>
    have hlim := s.bs.limit.isLt
    have hone : bitPos (cursorForward s.bs 1) = bitPos s.bs + 1 := bitPos_cursorForward (by omega)
    have hread := exec_bsReadbit_good hc (bitPos_lt_limit_iff.mp (by omega))
    obtain ⟨t, hrun, hbs, hmem, hresult⟩ :=
      ih (s := { s with
          result := bitWord (streamBit s.dmem (bitPos s.bs))
          bs := cursorForward s.bs 1
          status := statusDone s.status })
        (cursorForward_ok hc (by omega)) (by rw [hone, cursorForward_limit]; omega)
    refine ⟨t, ?_, ?_, hmem, fun j hj => ?_⟩
    · rw [execTimes, hread]
      exact hrun
    · rw [hbs]
      show cursorForward (cursorForward s.bs 1) k = _
      rw [cursorForward_add (by omega), Nat.add_comm]
    · obtain rfl : k = j := by omega
      cases k with
      | zero =>
        cases hrun
        rfl
      | succ j =>
        rw [hresult j rfl]
        show bitWord (streamBit s.dmem (bitPos (cursorForward s.bs 1) + j)) = _
        rw [hone, Nat.add_right_comm, Nat.add_assoc]

/-! ### A fresh cursor -/

theorem bitPos_cursorInit {base len : Nat} (hwrap : base + len < 2 ^ 64) :
    bitPos (cursorInit base len) = 8 * base := by
  have hbase : (BitVec.ofNat 64 base).toNat = base := by
    rw [BitVec.toNat_ofNat, Nat.mod_eq_of_lt (by omega)]
  have hlog : log2m (128 : BitVec 8) = 7 := by decide
  rw [bitPos]
  show 8 * (BitVec.ofNat 64 base).toNat + (7 - log2m 128) = _
  rw [hbase, hlog]
  rfl

theorem cursorInit_limit_toNat {base len : Nat} (hwrap : base + len < 2 ^ 64) :
    (cursorInit base len).limit.toNat = base + len := by
  show (BitVec.ofNat 64 (base + len)).toNat = _
  rw [BitVec.toNat_ofNat, Nat.mod_eq_of_lt hwrap]

/-- A fresh cursor `m` bits on (43_bitstream.md R126). -/
theorem cursorForward_cursorInit {base len : Nat} (m : Nat) (hwrap : base + len < 2 ^ 64) :
    cursorForward (cursorInit base len) m =
      { base := BitVec.ofNat 64 base, pos := BitVec.ofNat 64 (base + m / 8),
        limit := BitVec.ofNat 64 (base + len), mask := (128 : BitVec 8) >>> (m % 8),
        total := BitVec.ofNat 64 m } := by
  have hdiv : (8 * base + m) / 8 = base + m / 8 := by omega
  have hmod : (8 * base + m) % 8 = m % 8 := by omega
  rw [cursorForward, bitPos_cursorInit hwrap, hdiv, hmod]
  show Cursor.mk _ _ _ _ (0 + BitVec.ofNat 64 m) = _
  rw [zero_add]
  rfl

/-- A cursor set from two operands holds them (43_bitstream.md R121, R127). -/
theorem cursorInit_operands (x y : Word) :
    cursorInit x.toNat y.toNat =
      { base := x, pos := x, limit := x + y, mask := 0x80, total := 0 } := by
  have hx : BitVec.ofNat 64 x.toNat = x := by rw [BitVec.ofNat_toNat, BitVec.setWidth_eq]
  have hxy : BitVec.ofNat 64 (x.toNat + y.toNat) = x + y := by
    rw [BitVec.ofNat_add, hx, BitVec.ofNat_toNat, BitVec.setWidth_eq]
  rw [cursorInit, hx, hxy]

/-- A buffer inside DMEM whose end does not wrap is in range (43_bitstream.md R121, R127). -/
theorem not_bufferOutside {base len : Nat} (hin : base + len ≤ p.memBytes)
    (hwrap : base + len < 2 ^ 64) : ¬bufferOutside p base len := by
  unfold bufferOutside
  omega

theorem cursorAlign_eq (c : Cursor) :
    cursorAlign c =
      { c with pos := if c.mask = 128 then c.pos else c.pos + 1, mask := 128 } := by
  rw [cursorAlign]
  split
  · next h => rw [← h]
  · rfl

end Sys2Proof.Machine
end

section
/-! CERTIFICATES. The statements of 43_bitstream.md settled: the reader's and the writer's
commands. -/

namespace Sys2Proof.Machine

/-- Settles O46: the one check of each command, which both conditions of RANGE make up. -/
theorem streamInitSetsTheCursor : Obligations.StreamInitSetsTheCursor := by
  refine fun s => ⟨fun hin hwrap => ?_, fun hout => ?_⟩
  · have hok := not_bufferOutside hin hwrap
    constructor
    · refine (exec_of_ok (i := .bsInit) (check_bind_of_not hok)).trans ?_
      rw [operand0, operand1, cursorInit_operands]
      rfl
    · refine (exec_of_ok (i := .wsInit) (check_bind_of_not hok)).trans ?_
      rw [operand0, operand1, cursorInit_operands]
      rfl
  · have hbad : bufferOutside s.params (operand0 s) (operand1 s) := hout
    exact ⟨exec_of_error (i := .bsInit) (check_bind_of hbad),
      exec_of_error (i := .wsInit) (check_bind_of hbad)⟩

/-- Settles O47: the bit at the reader's stream position is the mask's bit of its byte. -/
theorem bsReadbitReturnsNextBit : Obligations.BsReadbitReturnsNextBit := by
  refine ⟨fun s k hc hlt hk hmask => ?_,
    fun s hend => exec_of_error (i := .bsReadbit) (bsReadbit_exhausted hend)⟩
  rw [exec_bsReadbit_good hc hlt, ← cursorAdvance_eq hc.mask_power, cursorAdvance_of_mask hk hmask,
    streamBit_bitPos_of_mask _ hk hmask, bitWord_eq]

/-- Settles O48: the two queries, and the distance from a sound cursor's base. -/
theorem bsQueriesReportTheCursor : Obligations.BsQueriesReportTheCursor := by
  refine fun s => ⟨?_, rfl, fun hc => ⟨cursorOffset_toNat hc, ?_⟩⟩
  · refine (exec_of_ok (i := .bsGood) rfl).trans ?_
    simp only [bitWord_eq, cursorGood, BitVec.lt_def, decide_eq_true_eq]
    rfl
  · have hle := hc.pos_le_limit
    omega

/-- Settles O49: the boundary move on both cursors. -/
theorem alignMovesToByteBoundary : Obligations.AlignMovesToByteBoundary := by
  refine fun s => ⟨?_, ?_, fun hc t ht => ?_, fun hc t ht => ?_⟩
  · refine (exec_of_ok (i := .bsNextbyte) rfl).trans ?_
    rw [cursorAlign_eq]
    rfl
  · refine (exec_of_ok (i := .wsAlign) rfl).trans ?_
    rw [cursorAlign_eq]
    rfl
  · cases ht
    exact (cursorAlign_ok hc).pos_le_limit
  · cases ht
    exact (cursorAlign_ok hc).pos_le_limit

/-- Settles O50: a fresh reader, moved as many bits on as were read, and the last bit read. -/
theorem readerReturnsTheBufferBitByBit : Obligations.ReaderReturnsTheBufferBitByBit := by
  intro s base len m hin hwrap hm hbs
  have hc : CursorOk s.params s.bs := hbs ▸ cursorInit_ok hin hwrap
  have hpos : bitPos s.bs = 8 * base := hbs ▸ bitPos_cursorInit hwrap
  have hlim : s.bs.limit.toNat = base + len := hbs ▸ cursorInit_limit_toNat hwrap
  obtain ⟨t, hrun, htbs, hmem, hresult⟩ := execTimes_bsReadbit m hc (by omega)
  have hcursor := htbs.trans (hbs ▸ cursorForward_cursorInit m hwrap)
  refine ⟨t, hrun, hcursor, hmem, fun j hj => ?_, ?_⟩
  · have hbit : streamBit s.dmem (bitPos s.bs + j) =
        (memRead s.dmem (base + j / 8)).getLsbD (7 - j % 8) := by
      have hdiv : (8 * base + j) / 8 = base + j / 8 := by omega
      have hmod : (8 * base + j) % 8 = j % 8 := by omega
      rw [hpos, streamBit, hdiv, hmod]
    rw [hresult j hj, bitWord_eq, hbit]
  · refine ⟨_, exec_of_ok (i := .bsGood) rfl, ?_⟩
    have hgood : cursorGood t.bs = decide (m < 8 * len) := by
      rw [cursorGood]
      refine decide_eq_decide.mpr ?_
      have hleft : bitPos t.bs = 8 * base + m := by
        rw [htbs, bitPos_cursorForward (by omega), hpos]
      have hend : t.bs.limit.toNat = base + len := by rw [htbs, cursorForward_limit, hlim]
      rw [← bitPos_lt_limit_iff, hleft, hend]
      omega
    show bitWord (cursorGood t.bs) = _
    rw [hgood, bitWord_eq]
    simp only [decide_eq_true_eq]

/-- Settles O51: the one byte written is read back bit by bit in stream order. -/
theorem wsPutbitWritesOneBit : Obligations.WsPutbitWritesOneBit := by
  refine ⟨fun s k hc hwf hbit hroom hk hmask => ?_,
    fun s hbit => exec_of_error (i := .wsPutbit) (wsPutbit_badArg hbit),
    fun s hbit hc hroom => exec_of_error (i := .wsPutbit) (wsPutbit_overflow hbit (by omega))⟩
  have hmod := bitPos_mod_of_mask hk hmask
  have hdiv := bitPos_div s.ws
  refine ⟨putBitMemory s.dmem s.ws (decide (operand0 s = 1)),
    (exec_of_ok (i := .wsPutbit) (wsPutbit_room hc hbit hroom)).trans ?_, fun a ha => ?_,
    fun j hj => ?_⟩
  · rw [← cursorAdvance_eq hc.mask_power, cursorAdvance_of_mask hk hmask]
    rfl
  · rw [putBitMemory, memRead_memWrite hwf, if_neg ha]
  · rw [getLsbD_eq_streamBit _ _ hj, streamBit_putBitMemory hwf hc.mask_power,
      getLsbD_eq_streamBit _ _ hj]
    by_cases hjk : j = k
    · rw [if_pos (by omega), if_pos hjk]
      rfl
    · rw [if_neg (by omega), if_neg hjk]
      by_cases h7 : k = 7
      · rw [if_pos (by omega), if_pos h7]
      · rw [if_neg (by omega), if_neg h7]

end Sys2Proof.Machine
end

section
/-! SUPPORT. The codec's wire format in numbers: unit counts by magnitude, units as bytes, and the
loop of VDEC over units that are known. -/

namespace Sys2Proof.Machine

variable {p : Params} {m : Memory} {c : Cursor} {u : Byte} {us : List Byte}

/-! ### Unit counts -/

theorem bitLen_le_iff {v k : Nat} : bitLen v ≤ k ↔ v < 2 ^ k := by
  unfold bitLen
  split
  · next h => simp [h]
  · next h => rw [Nat.succ_le_iff, Nat.log2_lt h]

/-- `j` units hold the values below 128^j (44_varint.md R141). -/
theorem unitCount_le_iff {v j : Nat} (hj : 1 ≤ j) : unitCount v ≤ j ↔ v < 2 ^ (7 * j) := by
  rw [← bitLen_le_iff, unitCount]
  omega

theorem one_le_unitCount (v : Nat) : 1 ≤ unitCount v := le_max_left _ _

theorem lt_of_unitCount (v : Nat) : v < 2 ^ (7 * unitCount v) :=
  (unitCount_le_iff (one_le_unitCount v)).mp le_rfl

theorem unitCount_mono {v w : Nat} (h : v ≤ w) : unitCount v ≤ unitCount w :=
  (unitCount_le_iff (one_le_unitCount w)).mpr (h.trans_lt (lt_of_unitCount w))

/-- A value from 128^(j-1) up to 128^j has `j` units (44_varint.md R141). -/
theorem unitCount_eq {v j : Nat} (hj : 2 ≤ j) (hlow : 2 ^ (7 * (j - 1)) ≤ v)
    (hhigh : v < 2 ^ (7 * j)) : unitCount v = j := by
  have hle := (unitCount_le_iff (by omega)).mpr hhigh
  have hnot : ¬unitCount v ≤ j - 1 := fun h =>
    absurd ((unitCount_le_iff (by omega)).mp h) (by omega)
  omega

theorem unitCount_small {v : Nat} (h : v < 2 ^ 7) : unitCount v = 1 :=
  le_antisymm ((unitCount_le_iff le_rfl).mpr h) (one_le_unitCount v)

theorem unitCount_le_ten {v : Nat} (h : v < 2 ^ 64) : unitCount v ≤ 10 :=
  (unitCount_range h).2

theorem unitCount_top {v : Nat} (hlow : 2 ^ 63 ≤ v) (hhigh : v < 2 ^ 64) : unitCount v = 10 :=
  unitCount_eq (by decide) hlow (hhigh.trans (by decide))

/-! ### Units as bytes -/

/-- A unit by its flag and its group (44_varint.md R140). -/
theorem varintUnit_eq (v k : Nat) :
    varintUnit v k = (if k + 1 < unitCount v then 128 else 0) + v / 2 ^ (7 * k) % 128 := by
  have hgroup : unitGroup v k = v / 2 ^ (7 * k) % 128 := by
    rw [unitGroup, Nat.shiftRight_eq_div_pow]
    exact Nat.and_two_pow_sub_one_eq_mod _ 7
  have hlt : unitGroup v k < 2 ^ 7 := by omega
  rw [varintUnit, ← Nat.shiftLeft_add_eq_or_of_lt hlt, hgroup]
  split <;> rfl

/-- The units of a value as bytes, unit 0 first (44_varint.md R140). -/
def encodeUnits (v : Nat) : List Byte :=
  (List.range (unitCount v)).map fun k => BitVec.ofNat 8 (varintUnit v k)

theorem encodeUnits_length (v : Nat) : (encodeUnits v).length = unitCount v := by
  simp [encodeUnits]

theorem varintUnit_lt (v k : Nat) : varintUnit v k < 256 := by
  rw [varintUnit_eq]
  split <;> omega

theorem toNat_varintUnit (v k : Nat) : (BitVec.ofNat 8 (varintUnit v k)).toNat = varintUnit v k :=
  (BitVec.toNat_ofNat _ _).trans (Nat.mod_eq_of_lt (varintUnit_lt v k))

theorem encodeUnits_getD {v k : Nat} (hk : k < unitCount v) :
    ((encodeUnits v).getD k 0).toNat = varintUnit v k := by
  rw [List.getD_eq_getElem _ _ (by rwa [encodeUnits_length])]
  simp only [encodeUnits, List.getElem_map, List.getElem_range, toNat_varintUnit]

/-- The eight bits of a unit are the bits of its byte. -/
theorem unitBits_eq (n : Nat) :
    unitBits n = [7, 6, 5, 4, 3, 2, 1, 0].map (BitVec.ofNat 8 n).getLsbD := by
  refine List.map_congr_left fun i hi => ?_
  have hlt : i < 8 := by simp only [List.mem_cons, List.not_mem_nil, or_false] at hi; omega
  rw [BitVec.getLsbD_ofNat, decide_eq_true hlt, Bool.true_and]

theorem encodeBits_eq_unitStream (v : Nat) : encodeBits v = unitStream (encodeUnits v) := by
  rw [encodeBits, unitStream, encodeUnits, List.flatMap_map]
  simp only [unitBits_eq]

/-! ### The continuation flag -/

theorem getLsbD_seven (u : Byte) : u.getLsbD 7 = decide (128 ≤ u.toNat) := by
  have hlt := u.isLt
  rw [← BitVec.testBit_toNat, Nat.testBit_eq_decide_div_mod_eq]
  exact decide_eq_decide.mpr (by omega)

/-- Units end with the first clear flag exactly when all but the last have it set. -/
theorem terminated_append_singleton (us : List Byte) (u : Byte) :
    terminated (us ++ [u]) = (continuing us && !u.getLsbD 7) := by
  induction us with
  | nil => rfl
  | cons x us ih =>
    have hne : us ++ [u] ≠ [] := by simp
    have hcons : terminated (x :: (us ++ [u])) = (x.getLsbD 7 && terminated (us ++ [u])) := by
      cases hus : us ++ [u] with
      | nil => exact absurd hus hne
      | cons y ys => rfl
    rw [List.cons_append, hcons, ih, continuing, continuing, List.all_cons, Bool.and_assoc]

theorem encodeUnits_terminated (v : Nat) : terminated (encodeUnits v) = true := by
  obtain ⟨n, hn⟩ := Nat.exists_eq_add_of_le' (one_le_unitCount v)
  rw [encodeUnits, hn, List.range_succ, List.map_append, List.map_singleton,
    terminated_append_singleton, Bool.and_eq_true]
  constructor
  · rw [continuing, List.all_eq_true]
    intro x hx
    obtain ⟨k, hk, rfl⟩ := List.mem_map.mp hx
    rw [List.mem_range] at hk
    rw [getLsbD_seven, toNat_varintUnit, varintUnit_eq, if_pos (by omega)]
    exact decide_eq_true (by omega)
  · rw [getLsbD_seven, toNat_varintUnit, varintUnit_eq, if_neg (by omega)]
    have hgroup : ¬128 ≤ 0 + v / 2 ^ (7 * n) % 128 := by omega
    rw [decide_eq_false hgroup]
    rfl

/-! ### The value of units -/

theorem pow_seven_succ (n : Nat) : 2 ^ (7 * (n + 1)) = 128 * 2 ^ (7 * n) := by
  rw [Nat.mul_add, pow_add, Nat.mul_comm]
  norm_num

/-- A value of k groups with one more group above them has k + 1 groups. -/
theorem add_group_lt {v k g : Nat} (hv : v < 2 ^ (7 * k)) (hg : g < 128) :
    v + 2 ^ (7 * k) * g < 2 ^ (7 * (k + 1)) := by
  have hle : 2 ^ (7 * k) * g ≤ 2 ^ (7 * k) * 127 := Nat.mul_le_mul_left _ (by omega)
  rw [pow_seven_succ]
  omega

/-- Groups in base 128 add up to the value they are the groups of (44_varint.md R140). -/
theorem unitsValue_map_range (n v : Nat) (f : Nat → Byte)
    (h : ∀ k < n, (f k).toNat % 128 = v / 2 ^ (7 * k) % 128) :
    unitsValue ((List.range n).map f) = v % 2 ^ (7 * n) := by
  induction n generalizing v f with
  | zero => simp [unitsValue, Nat.mod_one]
  | succ n ih =>
    have hhead := h 0 (by omega)
    have htail := ih (v / 128) (fun k => f (k + 1)) fun k hk => by
      rw [h (k + 1) (by omega), Nat.div_div_eq_div_mul]
      rw [pow_seven_succ]
    rw [List.range_succ_eq_map, List.map_cons, List.map_map, unitsValue]
    rw [Function.comp_def, htail, hhead, pow_seven_succ, Nat.mod_mul]
    simp

theorem encodeUnits_value (v : Nat) : unitsValue (encodeUnits v) = v := by
  rw [encodeUnits, unitsValue_map_range _ v, Nat.mod_eq_of_lt (lt_of_unitCount v)]
  intro k _
  rw [toNat_varintUnit, varintUnit_eq]
  split <;> omega

theorem unitsValue_append_singleton (us : List Byte) (u : Byte) :
    unitsValue (us ++ [u]) = unitsValue us + 2 ^ (7 * us.length) * (u.toNat % 128) := by
  induction us with
  | nil => simp [unitsValue]
  | cons x us ih =>
    rw [List.cons_append, unitsValue, ih, unitsValue, List.length_cons, pow_seven_succ]
    ring

theorem unitsValue_lt (us : List Byte) : unitsValue us < 2 ^ (7 * us.length) := by
  induction us with
  | nil => simp [unitsValue]
  | cons x us ih =>
    rw [unitsValue, List.length_cons, pow_seven_succ]
    omega

/-! ### The bits of units -/

/-- The bits of one unit, bit 7 first (44_varint.md R140). -/
def byteBits (u : Byte) : List Bool := [7, 6, 5, 4, 3, 2, 1, 0].map u.getLsbD

theorem unitStream_cons (u : Byte) (us : List Byte) :
    unitStream (u :: us) = byteBits u ++ unitStream us := rfl

theorem unitStream_append (us ws : List Byte) :
    unitStream (us ++ ws) = unitStream us ++ unitStream ws := List.flatMap_append

theorem unitStream_length (us : List Byte) : (unitStream us).length = 8 * us.length := by
  induction us with
  | nil => rfl
  | cons u us ih =>
    rw [unitStream_cons, List.length_append, ih, List.length_cons]
    have hbyte : (byteBits u).length = 8 := rfl
    omega

/-- Bit 7 first, the eight bits of a byte are its value (44_varint.md R143). -/
theorem bitsValue_byteBits : ∀ u : Byte, bitsValue (byteBits u) = u.toNat := by
  decide +kernel

/-- Stream bits that are two groups of units are the first group, then the second. -/
theorem streamBits_eq_append {q : Nat} {us ws : List Byte}
    (h : streamBits m q (8 * (us ++ ws).length) = unitStream (us ++ ws)) :
    streamBits m q (8 * us.length) = unitStream us ∧
      streamBits m (q + 8 * us.length) (8 * ws.length) = unitStream ws := by
  rw [List.length_append, Nat.mul_add, streamBits_add, unitStream_append] at h
  exact List.append_inj h (by rw [streamBits_length, unitStream_length])

/-! ### The loop of VDEC -/

/-- One turn of VDEC's loop on a unit that is there (44_varint.md R143): its check, then the end at
a clear flag or the rest of the loop. -/
theorem decodeUnits_unit {fuel k v : Nat} (hc : CursorOk p c)
    (hroom : bitPos c + 8 ≤ 8 * c.limit.toNat) (hbits : streamBits m (bitPos c) 8 = byteBits u)
    (hv : v < 2 ^ (7 * k)) :
    decodeUnits p m (fuel + 1) k v c =
      if k = 9 ∧ 1 < u.toNat then .error (.error .varintOverflow)
      else if u.toNat < 128 then .ok (v + 2 ^ (7 * k) * (u.toNat % 128), cursorForward c 8)
      else decodeUnits p m fuel (k + 1) (v + 2 ^ (7 * k) * (u.toNat % 128))
        (cursorForward c 8) := by
  have hlt := u.isLt
  have hgroup : u.toNat &&& 0x7F = u.toNat % 128 := Nat.and_two_pow_sub_one_eq_mod _ 7
  have hflag : u.toNat >>> 7 = u.toNat / 128 := Nat.shiftRight_eq_div_pow _ _
  have hvalue : v ||| (u.toNat % 128) <<< (7 * k) = v + 2 ^ (7 * k) * (u.toNat % 128) := by
    rw [Nat.or_comm, ← Nat.shiftLeft_add_eq_or_of_lt hv, Nat.shiftLeft_eq, Nat.add_comm,
      Nat.mul_comm]
  rw [decodeUnits, readUnit_eq hc hroom, cmd_ok_bind, hbits, bitsValue_byteBits]
  simp only [hgroup, hflag, hvalue, check_bind]
  have hover : k = 9 ∧ (u.toNat % 128 > 1 ∨ u.toNat / 128 = 1) ↔ k = 9 ∧ 1 < u.toNat := by omega
  have hend : u.toNat / 128 = 0 ↔ u.toNat < 128 := by omega
  simp only [hover, hend]

theorem decodeUnits_exhausted {fuel k v : Nat} (h : 8 * c.limit.toNat < bitPos c + 8) :
    decodeUnits p m (fuel + 1) k v c = .error (.error .streamExhausted) := by
  rw [decodeUnits, readUnit_exhausted h, cmd_error_bind]

/-- VDEC's loop over units with the flag set, below the tenth, collects their groups
(44_varint.md R143). -/
theorem decodeUnits_continuing {fuel k v : Nat} (hc : CursorOk p c) (hus : continuing us = true)
    (hk : k + us.length ≤ 9) (hroom : bitPos c + 8 * us.length ≤ 8 * c.limit.toNat)
    (hbits : streamBits m (bitPos c) (8 * us.length) = unitStream us) (hv : v < 2 ^ (7 * k)) :
    decodeUnits p m (fuel + us.length) k v c =
      decodeUnits p m fuel (k + us.length) (v + 2 ^ (7 * k) * unitsValue us)
        (cursorForward c (8 * us.length)) := by
  induction us generalizing k v c with
  | nil => simp only [List.length_nil, Nat.add_zero, Nat.mul_zero, unitsValue,
      cursorForward_zero hc.mask_power]
  | cons u us ih =>
    have hwidth := c.limit.isLt
    simp only [List.length_cons] at hk hroom
    obtain ⟨hhead, htail⟩ := streamBits_eq_append (us := [u]) (ws := us) hbits
    rw [continuing, List.all_cons, Bool.and_eq_true, getLsbD_seven, decide_eq_true_eq] at hus
    obtain ⟨hflag, hrest⟩ := hus
    have hpos : bitPos (cursorForward c 8) = bitPos c + 8 := bitPos_cursorForward (by omega)
    have hgroup := add_group_lt hv (g := u.toNat % 128) (by omega)
    rw [List.length_cons, ← Nat.add_assoc fuel,
      decodeUnits_unit hc (by omega) (hhead.trans (List.append_nil _)) hv, if_neg (by omega),
      if_neg (by omega),
      ih (cursorForward_ok hc (by omega)) hrest (by omega)
        (by rw [hpos, cursorForward_limit]; omega) (by rw [hpos]; exact htail) hgroup,
      cursorForward_add (by omega), unitsValue]
    congr 1
    · omega
    · rw [pow_seven_succ]
      ring
    · congr 1
      omega

end Sys2Proof.Machine
end

section
/-! SUPPORT. VENC and VDEC on units that are known: where the bits go, and the loop's three ends. -/

namespace Sys2Proof.Machine

variable {s : State} {m : Memory} {us : List Byte}

/-- Bits put at a cursor are read back from there (44_varint.md R142). -/
theorem streamBits_putBitsMemory (h : Memory.wf m) {c : Cursor} (bits : List Bool)
    (hm : c.mask ∈ [1, 2, 4, 8, 16, 32, 64, 128])
    (hw : bitPos c + bits.length < 8 * 2 ^ 64) :
    streamBits (putBitsMemory m c bits) (bitPos c) bits.length = bits := by
  refine List.ext_getElem (streamBits_length _ _ _) fun j hj hbits => ?_
  simp only [streamBits, List.getElem_map, List.getElem_range]
  rw [streamBit_putBitsMemory h bits hm hw, if_pos ⟨by omega, by omega⟩, Nat.add_sub_cancel_left,
    List.getD_eq_getElem _ _ hbits]

/-- The tenth unit of a 64-bit value holds its bit 63 alone (44_varint.md R141). -/
theorem encodeUnits_tenth {v : Nat} (hv : v < 2 ^ 64) (hten : unitCount v = 10) :
    ((encodeUnits v).getD 9 0).toNat ≤ 1 := by
  rw [encodeUnits_getD (by omega), varintUnit_eq, if_neg (by omega)]
  omega

/-- The last byte of terminated units, and the units before it. -/
theorem terminated_split (h : terminated us = true) :
    ∃ init last, us = init ++ [last] ∧ continuing init = true ∧ last.toNat < 128 := by
  obtain rfl | ⟨init, last, rfl⟩ := us.eq_nil_or_concat'
  · cases h
  · rw [terminated_append_singleton, Bool.and_eq_true, getLsbD_seven, Bool.not_eq_true',
      decide_eq_false_iff_not, not_le] at h
    exact ⟨init, last, rfl, h⟩

/-- Terminated units whose tenth is at most 1 stand for a 64-bit value (44_varint.md R140). -/
theorem unitsValue_lt_two_pow_64 {init : List Byte} {last : Byte} (hlen : init.length ≤ 9)
    (hten : init.length = 9 → last.toNat ≤ 1) : unitsValue (init ++ [last]) < 2 ^ 64 := by
  have hinit := unitsValue_lt init
  rw [unitsValue_append_singleton]
  by_cases h9 : init.length = 9
  · have hlast := hten h9
    rw [h9] at hinit ⊢
    omega
  · calc unitsValue init + 2 ^ (7 * init.length) * (last.toNat % 128)
        < 2 ^ (7 * (init.length + 1)) := add_group_lt hinit (by omega)
      _ ≤ 2 ^ 64 := Nat.pow_le_pow_right (by omega) (by omega)

/-- VDEC's loop from its start over units with the flag set. -/
theorem decodeUnits_start {init : List Byte} (hc : CursorOk s.params s.bs)
    (hinit : continuing init = true) (hlen : init.length ≤ 9)
    (hroom : 8 * (init.length : Int) ≤ bitsLeft s.bs)
    (hbits : streamBits s.dmem (bitPos s.bs) (8 * init.length) = unitStream init) :
    decodeUnits s.params s.dmem 10 0 0 s.bs =
      decodeUnits s.params s.dmem (9 - init.length + 1) init.length (unitsValue init)
        (cursorForward s.bs (8 * init.length)) := by
  have hleft := bitsLeft_eq s.bs
  have hrun := decodeUnits_continuing (fuel := 9 - init.length + 1) (k := 0) (v := 0) hc hinit
    (by omega) (by omega) hbits (by decide)
  have hfuel : 9 - init.length + 1 + init.length = 10 := by omega
  rw [hfuel] at hrun
  simpa using hrun

/-- One more unit after those with the flag set: the loop's turn on it. -/
theorem decodeUnits_last {init : List Byte} {u : Byte} (hc : CursorOk s.params s.bs)
    (hinit : continuing init = true) (hlen : init.length ≤ 9)
    (hroom : 8 * (init.length : Int) + 8 ≤ bitsLeft s.bs)
    (hbits : streamBits s.dmem (bitPos s.bs) (8 * (init ++ [u]).length) = unitStream (init ++ [u]))
    (hend : u.toNat < 128 ∨ init.length = 9 ∧ 1 < u.toNat) :
    decodeUnits s.params s.dmem 10 0 0 s.bs =
      if init.length = 9 ∧ 1 < u.toNat then .error (.error .varintOverflow)
      else .ok (unitsValue (init ++ [u]), cursorForward s.bs (8 * (init ++ [u]).length)) := by
  have hleft := bitsLeft_eq s.bs
  have hwidth := s.bs.limit.isLt
  obtain ⟨hfirst, hlast⟩ := streamBits_eq_append hbits
  have hpos : bitPos (cursorForward s.bs (8 * init.length)) = bitPos s.bs + 8 * init.length :=
    bitPos_cursorForward (by omega)
  rw [decodeUnits_start hc hinit hlen (by omega) hfirst,
    decodeUnits_unit (u := u) (cursorForward_ok hc (by omega))
      (by rw [hpos, cursorForward_limit]; omega)
      (by rw [hpos]; exact hlast.trans (List.append_nil _)) (unitsValue_lt init),
    unitsValue_append_singleton, cursorForward_add (by omega), List.length_append,
    List.length_singleton, Nat.mul_add]
  split
  · rfl
  · rw [if_pos (by omega)]

end Sys2Proof.Machine
end

section
/-! CERTIFICATES. The statements of 44_varint.md settled: the wire format, VENC and VDEC. -/

namespace Sys2Proof.Machine

/-- Settles O52: a value has at most j units exactly when it is below 128^j. -/
theorem unitCountsByMagnitude : Obligations.UnitCountsByMagnitude :=
  ⟨fun _ => unitCount_small, fun _ _ hj _ => unitCount_eq hj, fun _ => unitCount_top,
    fun _ _ => unitCount_mono, fun _ => unitCount_le_ten, unitCount_small (by decide),
    unitCount_eq (by decide) (by decide) (by decide),
    unitCount_eq (by decide) (by decide) (by decide),
    unitCount_eq (by decide) (by decide) (by decide)⟩

/-- Settles O53: the units as bytes, whose groups are the value's digits in base 128. -/
theorem encodingIsTerminatedGroups : Obligations.EncodingIsTerminatedGroups := by
  refine fun v hv => ⟨encodeUnits v, encodeBits_eq_unitStream v, encodeUnits_length v,
    encodeUnits_terminated v, encodeUnits_value v, fun k hk => ?_, fun hten => ?_⟩
  · rw [encodeUnits_length] at hk
    rw [encodeUnits_getD hk, varintUnit_eq]
    split <;> omega
  · rw [encodeUnits_length] at hten
    exact encodeUnits_tenth hv hten

/-- Settles O54: the stream after the units' bits were put, in its parts. -/
theorem vencWritesTheUnits : Obligations.VencWritesTheUnits := by
  refine ⟨fun s hc hwf hroom => ?_,
    fun s hroom => exec_of_error (i := .venc) (encodeValue_overflow hroom)⟩
  have hleft := bitsLeft_eq s.ws
  have hwidth := s.ws.limit.isLt
  have hdiv := bitPos_div s.ws
  have hlen : (encodeBits s.argLatch0.toNat).length = 8 * unitCount s.argLatch0.toNat :=
    encodeBits_length _
  have hfits : bitPos s.ws + (encodeBits s.argLatch0.toNat).length < 8 * 2 ^ 64 := by omega
  have hstream := streamBit_putBitsMemory hwf _ hc.mask_power hfits
  rw [hlen] at hstream
  refine ⟨putBitsMemory s.dmem s.ws (encodeBits s.argLatch0.toNat),
    exec_of_ok (i := .venc) (encodeValue_room hc hroom), ?_, fun q hq => ?_, fun q hq hbyte => ?_,
    fun a ha => ?_⟩
  · rw [← hlen]
    exact streamBits_putBitsMemory hwf _ hc.mask_power hfits
  · rw [hstream, if_neg (by omega), if_neg (by omega)]
  · have hcount := one_le_unitCount s.argLatch0.toNat
    rw [hstream, if_neg (by omega), if_pos (by omega)]
  · exact memRead_putBitsMemory_out hwf _ hfits a (by omega)

/-- Settles O55: the units but the last are collected, and the last ends the loop. -/
theorem vdecReturnsTheUnitsValue : Obligations.VdecReturnsTheUnitsValue := by
  intro s us hc hterm hlen hten hroom hbits
  obtain ⟨init, last, rfl, hinit, hlast⟩ := terminated_split hterm
  simp only [List.length_append, List.length_singleton] at hlen hten hroom
  have hten' : init.length = 9 → last.toNat ≤ 1 := by
    intro h9
    have htop := hten (by omega)
    rwa [List.getD_append_right _ _ _ _ (by omega), h9] at htop
  refine ⟨unitsValue_lt_two_pow_64 (by omega) hten', ?_⟩
  have hloop := decodeUnits_last hc hinit (by omega) (by omega) hbits (.inl hlast)
  rw [if_neg (by omega)] at hloop
  exact exec_of_ok (i := .vdec) (decodeValue_of_ok hloop)

/-- Settles O56: after the units with the flag set, either no unit is left or the tenth is too
large. -/
theorem vdecRaisesOnMalformedStreams : Obligations.VdecRaisesOnMalformedStreams := by
  refine ⟨fun s us hc hus hlen hroom hshort hbits => ?_,
    fun s us u hc hus hlen hu hroom hbits => ?_⟩
  · have hleft := bitsLeft_eq s.bs
    have hwidth := s.bs.limit.isLt
    have hpos : bitPos (cursorForward s.bs (8 * us.length)) = bitPos s.bs + 8 * us.length :=
      bitPos_cursorForward (by omega)
    have hloop := (decodeUnits_start hc hus (by omega) hroom hbits).trans
      (decodeUnits_exhausted (by rw [hpos, cursorForward_limit]; omega))
    exact exec_of_error (i := .vdec) (decodeValue_of_error hloop)
  · have hten : 8 * (us ++ [u]).length = 80 := by
      rw [List.length_append, List.length_singleton, hlen]
    have hloop := decodeUnits_last hc hus (by omega) (by omega) (hten ▸ hbits) (.inr ⟨hlen, hu⟩)
    rw [if_pos ⟨hlen, hu⟩] at hloop
    exact exec_of_error (i := .vdec) (decodeValue_of_error hloop)

end Sys2Proof.Machine
end

section
/-! SUPPORT. The codec's round trip: an aligned cursor, a fresh reader, and the units between
them. -/

namespace Sys2Proof.Machine

variable {s : State}

theorem bitPos_of_aligned {c : Cursor} (h : c.mask = 128) : bitPos c = 8 * c.pos.toNat := by
  have hlog : log2m (128 : BitVec 8) = 7 := by decide
  rw [bitPos, h, hlog, Nat.sub_self, Nat.add_zero]

/-- Whole units keep an aligned cursor aligned. -/
theorem cursorForward_aligned {c : Cursor} (h : c.mask = 128) (n : Nat) :
    (cursorForward c (8 * n)).mask = 128 := by
  have hmod : (bitPos c + 8 * n) % 8 = 0 := by
    rw [bitPos_of_aligned h]
    omega
  show (128 : BitVec 8) >>> ((bitPos c + 8 * n) % 8) = 128
  rw [hmod]
  rfl

theorem cursorAlign_aligned {c : Cursor} (h : c.mask = 128) : cursorAlign c = c := by
  rw [cursorAlign, if_pos h]

/-- BS_INIT over a buffer inside DMEM (43_bitstream.md R121). -/
theorem exec_bsInit_ok (hin : operand0 s + operand1 s ≤ s.params.memBytes)
    (hwrap : operand0 s + operand1 s < 2 ^ 64) :
    exec .bsInit s =
      .next { s with
        bs := cursorInit (operand0 s) (operand1 s), status := statusDone s.status } :=
  exec_of_ok (i := .bsInit) (check_bind_of_not (not_bufferOutside hin hwrap))

/-- BS_INIT over exactly the units of a value, then VDEC: the value, all its bits consumed and none
left (44_varint.md, "Codec round trip"). -/
theorem bsInit_vdec_units {v : Nat} (hv : v < 2 ^ 64) (hlen : operand1 s = unitCount v)
    (hin : operand0 s + unitCount v ≤ s.params.memBytes)
    (hwrap : operand0 s + unitCount v < 2 ^ 64)
    (hbits : streamBits s.dmem (8 * operand0 s) (8 * unitCount v) = encodeBits v) :
    ∃ s4 s5, exec .bsInit s = .next s4 ∧ exec .vdec s4 = .next s5 ∧
      s5.result = BitVec.ofNat 64 v ∧ s5.bs.total = BitVec.ofNat 64 (8 * unitCount v) ∧
      cursorGood s5.bs = false ∧ s5.bs.pos = BitVec.ofNat 64 (operand0 s + unitCount v) := by
  have hinit := exec_bsInit_ok (s := s) (by omega) (by omega)
  rw [hlen] at hinit
  have hpos := bitPos_cursorInit hwrap
  have hlim := cursorInit_limit_toNat hwrap
  have hleft := bitsLeft_eq (cursorInit (operand0 s) (unitCount v))
  have hunits := encodeUnits_length v
  have hend : cursorForward (cursorInit (operand0 s) (unitCount v)) (8 * unitCount v) = _ :=
    cursorForward_cursorInit (8 * unitCount v) hwrap
  obtain ⟨-, hvdec⟩ := vdecReturnsTheUnitsValue
    { s with
      bs := cursorInit (operand0 s) (unitCount v), status := statusDone s.status }
    (encodeUnits v) (cursorInit_ok hin hwrap) (encodeUnits_terminated v)
    (hunits ▸ unitCount_le_ten hv) (fun hten => encodeUnits_tenth hv (hunits ▸ hten))
    (show _ ≤ bitsLeft (cursorInit (operand0 s) (unitCount v)) by omega)
    (show streamBits s.dmem (bitPos (cursorInit (operand0 s) (unitCount v))) _ = _ by
      rw [hpos, hunits, hbits, encodeBits_eq_unitStream])
  rw [encodeUnits_value, hunits, hend, Nat.mul_div_cancel_left _ (by decide)] at hvdec
  exact ⟨_, _, hinit, hvdec, rfl, rfl, cursorGood_eq_false_iff.mpr (BitVec.lt_irrefl _), rfl⟩

end Sys2Proof.Machine
end

section
/-! CERTIFICATES. The codec's round trip (44_varint.md) settled. -/

namespace Sys2Proof.Machine

/-- Settles O57: VENC leaves the units where the fresh reader starts, and VDEC reads exactly
them. -/
theorem encodeThenDecodeReturnsTheValue : Obligations.EncodeThenDecodeReturnsTheValue := by
  intro s h hmask hroom
  obtain ⟨hwrites, -⟩ := vencWritesTheUnits
  obtain ⟨m, hvenc, hbits, -⟩ := hwrites s h.writer h.memory hroom
  have hv := s.argLatch0.isLt
  have hleft := bitsLeft_eq s.ws
  have hlim := h.writer.limit_le_mem
  have hwidth := s.ws.limit.isLt
  have haligned := bitPos_of_aligned hmask
  have hcount := unitCount_le_ten hv
  have hunits : (BitVec.ofNat 64 (unitCount s.argLatch0.toNat)).toNat =
      unitCount s.argLatch0.toNat := by
    rw [BitVec.toNat_ofNat, Nat.mod_eq_of_lt (by omega)]
  have hend : cursorAlign (cursorForward s.ws (8 * unitCount s.argLatch0.toNat)) = _ :=
    cursorAlign_aligned (cursorForward_aligned hmask _)
  rw [haligned] at hbits
  obtain ⟨s2, halign, hparams, hdmem, hws⟩ : ∃ s2, exec .wsAlign { s with
      dmem := m
      ws := cursorForward s.ws (8 * unitCount s.argLatch0.toNat)
      status := statusDone s.status } = .next s2 ∧ s2.params = s.params ∧ s2.dmem = m ∧
      s2.ws = cursorForward s.ws (8 * unitCount s.argLatch0.toNat) := ⟨_, rfl, rfl, rfl, hend⟩
  obtain ⟨s4, s5, hinit, hvdec, hresult, htotal, hgood, hpos⟩ := bsInit_vdec_units
    (s := { s2 with
      argLatch0 := s.ws.pos, argLatch1 := BitVec.ofNat 64 (unitCount s.argLatch0.toNat) })
    hv hunits (show s.ws.pos.toNat + _ ≤ s2.params.memBytes by rw [hparams]; omega)
    (show s.ws.pos.toNat + _ < _ by omega) (by rw [← hbits, ← hdmem]; rfl)
  refine ⟨_, s2, _, s4, s5, hvenc, halign, rfl, hinit, hvdec, ?_, htotal, hgood, ?_⟩
  · rw [hresult, BitVec.ofNat_toNat, BitVec.setWidth_eq]
  · rw [hpos, hws]
    show BitVec.ofNat 64 (s.ws.pos.toNat + _) = BitVec.ofNat 64 ((bitPos s.ws + _) / 8)
    congr 1
    omega

end Sys2Proof.Machine
end

section
/-! SUPPORT. A rule's checks against a check table: the first check that fails raises its code, and
when none fails the rule goes on. FB_LOAD, XF_SELECT and the transforms follow their tables. -/

namespace Sys2Proof.Machine

variable {s u : State} {i : Instr} {α : Type} {table : List (Bool × BitVec 8)}

/-! ### Check tables -/

/-- The rule `x` raises the code of the first failure of the table, and is `y` when there is none
(60_exceptions.md R152). -/
def FollowsTable (x : Cmd α) (table : List (Bool × BitVec 8)) (y : Cmd α) : Prop :=
  (∀ code, firstFailure table = some code →
    ∃ e : CmdError, e.code = code ∧ x = .error (.error e)) ∧
  (firstFailure table = none → x = y)

theorem FollowsTable.nil (y : Cmd α) : FollowsTable y [] y := ⟨nofun, fun _ => rfl⟩

/-- A check is the table's next entry when its condition is the entry's. -/
theorem FollowsTable.check_bind {bad : Prop} [Decidable bad] {e : CmdError} {f : Unit → Cmd α}
    {b : Bool} {y : Cmd α} (hb : b = true ↔ bad)
    (hrest : ¬bad → FollowsTable (f ()) table y) :
    FollowsTable (check bad e >>= f) ((b, e.code) :: table) y := by
  by_cases hbad : bad
  · rw [check_bind_of hbad, hb.mpr hbad]
    exact ⟨fun code h => ⟨e, Option.some.inj h, rfl⟩, nofun⟩
  · rw [check_bind_of_not hbad, Bool.eq_false_of_not_eq_true (mt hb.mp hbad)]
    exact hrest hbad

theorem FollowsTable.check_last {bad : Prop} [Decidable bad] {e : CmdError} {b : Bool}
    (hb : b = true ↔ bad) : FollowsTable (check bad e) [(b, e.code)] (.ok ()) := by
  rw [← bind_pure (check bad e)]
  exact FollowsTable.check_bind hb fun _ => FollowsTable.nil _

theorem FollowsTable.bind {β : Type} {x y : Cmd α} (h : FollowsTable x table y) (f : α → Cmd β) :
    FollowsTable (x >>= f) table (y >>= f) := by
  obtain ⟨hsome, hnone⟩ := h
  refine ⟨fun code hcode => ?_, fun hcode => by rw [hnone hcode]⟩
  obtain ⟨e, he, rfl⟩ := hsome code hcode
  exact ⟨e, he, rfl⟩

/-- A check of two conditions is two checks with one code. -/
theorem check_or {a b : Prop} [Decidable a] [Decidable b] (e : CmdError) (f : Unit → Cmd α) :
    (check (a ∨ b) e >>= f) = check a e >>= fun _ => check b e >>= f := by
  simp only [Machine.check_bind]
  by_cases ha : a
  · rw [if_pos (.inl ha), if_pos ha]
  · simp only [ha, false_or, if_false]

theorem exec_raises (h : FollowsTable (commandRule i s) table (.ok u)) {code : BitVec 8}
    (hcode : firstFailure table = some code) :
    exec i s = .next { s with status := statusError s.status code } := by
  obtain ⟨e, rfl, he⟩ := h.1 code hcode
  exact exec_of_error he

theorem exec_completes (h : FollowsTable (commandRule i s) table (.ok u))
    (hnone : firstFailure table = none) : exec i s = .next (complete u) :=
  exec_of_ok (h.2 hnone)

/-! ### The tables of the rules -/

/-- FB_LOAD's checks are its table's (40_filter_bank.md R87). -/
theorem fbLoad_followsTable (s : State) :
    FollowsTable (fbLoad s) (bankFailures s)
      (.ok (commitBank (operand0 s) (headerWord s.dmem (operand0 s) 0)
        (headerWord s.dmem (operand0 s) 5) s)) := by
  unfold fbLoad
  simp only [check_or]
  repeat refine FollowsTable.check_bind decide_eq_true_iff fun _ => ?_
  refine FollowsTable.check_bind ?_ fun _ => FollowsTable.nil _
  rw [decide_eq_true_iff, descriptorBytes, headerBytes, ← Nat.add_assoc]
  rfl

theorem liftCompatible_of_valid (hvalid : s.fbInfo.valid = true) :
    liftCompatible s = false ↔ s.fbInfo.family ≠ 1 := by
  simp [liftCompatible, hvalid]

/-- XF_SELECT's checks are its table's: the third is made with a bank loaded
(40_filter_bank.md R89, R90). -/
theorem xfSelect_followsTable (s : State) :
    FollowsTable (xfSelect s) (selectFailures s)
      (.ok { s with strat := if operand0 s = 1 then .lifting else .direct }) := by
  unfold xfSelect
  refine FollowsTable.check_bind decide_eq_true_iff fun _ =>
    FollowsTable.check_bind (by simp [operand0]) fun hbank =>
    FollowsTable.check_bind ?_ fun _ => FollowsTable.nil _
  rw [Bool.and_eq_true, decide_eq_true_iff, decide_eq_true_iff]
  refine and_congr_right fun hsel => (liftCompatible_of_valid ?_).symm
  exact Bool.eq_true_of_not_eq_false fun hvalid => hbank ⟨hsel, hvalid⟩

/-- The checks of both transforms are their table's (41_transform_direct.md R96). -/
theorem transformChecks_followsTable (s : State) :
    FollowsTable (transformChecks s) (transformFailures s) (.ok ()) := by
  unfold transformChecks
  refine FollowsTable.check_bind (by simp) fun hvalid => FollowsTable.check_bind ?_ fun _ => ?_
  · rw [decide_eq_true_iff]
    exact and_congr_right fun _ =>
      (liftCompatible_of_valid (Bool.eq_true_of_not_eq_false hvalid)).symm
  · repeat refine FollowsTable.check_bind decide_eq_true_iff fun _ => ?_
    exact FollowsTable.check_last decide_eq_true_iff

theorem transform_followsTable (dir : Direction) (s : State) :
    FollowsTable (transform dir s) (transformFailures s) (.ok (applyTransform dir s)) :=
  (transformChecks_followsTable s).bind _

theorem transformChecks_of_none (h : firstFailure (transformFailures s) = none) :
    transformChecks s = .ok () := (transformChecks_followsTable s).2 h

/-! ### The coefficient arrays -/

/-- Entries below the new length are the new ones, the others the old ones
(40_filter_bank.md R87). -/
theorem overlay_getD (new old : List F64) (d : Nat) :
    (overlay new old).getD d 0 = if d < new.length then new.getD d 0 else old.getD d 0 := by
  rw [overlay]
  split
  · next h => rw [List.getD_append _ _ _ _ h]
  · next h =>
    rw [List.getD_append_right _ _ _ _ (by omega), List.getD_eq_getElem?_getD,
      List.getElem?_drop, List.getD_eq_getElem?_getD]
    congr 2
    omega

/-- Entry `d` of a stored array: the descriptor's coefficient at its address, or what was there
(40_filter_bank.md R86, R87). -/
theorem overlay_descriptorArray_getD (m : Memory) (a size k d : Nat) (old : List F64) :
    (overlay (descriptorArray m a size k) old).getD d 0 =
      if d < size then memRead64 m (a + 48 + 8 * k * size + 8 * d) else old.getD d 0 := by
  rw [overlay_getD, descriptorArray_length]
  split
  · next h =>
    rw [descriptorArray, loadArray_getD _ _ _ _ _ h]
    rfl
  · rfl

/-! ### The transforms in place -/

/-- A transform command whose checks passed: its elements are transformed in place and every other
byte is kept (41_transform_direct.md R97). -/
theorem exec_transform {dir : Direction} (hi : commandRule i s = transform dir s) (h : Sound s)
    (hnone : firstFailure (transformFailures s) = none) :
    ∃ t : State,
      exec i s = .next t ∧
      t = { s with dmem := t.dmem, scratch := t.scratch, draws := t.draws,
                   status := statusDone s.status } ∧
      (transformInput s).length = operand1 s ∧ (transformOutput dir s).length = operand1 s ∧
      (∀ k < operand1 s,
        elem (transformInput s) k = loadF64 s.dmem (elemAddr (operand0 s) (operand2 s) k) ∧
        loadF64 t.dmem (elemAddr (operand0 s) (operand2 s) k) = elem (transformOutput dir s) k) ∧
      ∀ a, (∀ k < operand1 s, a < elemAddr (operand0 s) (operand2 s) k ∨
          elemAddr (operand0 s) (operand2 s) k + 8 ≤ a) →
        memRead t.dmem a = memRead s.dmem a := by
  have hchecks := transformChecks_of_none hnone
  obtain ⟨-, -, helems, hout⟩ := applyTransform_dmem (dir := dir) hchecks h.memory
  exact ⟨complete (applyTransform dir s), exec_completes (hi ▸ transform_followsTable dir s) hnone,
    rfl, loadArray_length _ _ _ _, transformOutput_length hchecks,
    fun k hk => ⟨loadArray_getD _ _ _ _ _ hk, helems k hk⟩, hout⟩

end Sys2Proof.Machine
end

section
/-! CERTIFICATES. The statements of 40_filter_bank.md and of the transform commands
(41_transform_direct.md R96 to R99) settled. -/

namespace Sys2Proof.Machine

/-- Settles O33: the commit of a descriptor whose table shows no failure. -/
theorem fbLoadStoresTheBank : Obligations.FbLoadStoresTheBank := by
  rintro s size fam hnone rfl rfl
  refine ⟨_, exec_completes (i := .fbLoad) (fbLoad_followsTable s) hnone, fun d => ⟨?_, ?_, ?_, ?_⟩⟩
  · exact (overlay_descriptorArray_getD _ _ _ 0 d _).trans (by rw [Nat.mul_zero, Nat.zero_mul]; rfl)
  · exact overlay_descriptorArray_getD _ _ _ 1 d _
  · exact overlay_descriptorArray_getD _ _ _ 2 d _
  · exact overlay_descriptorArray_getD _ _ _ 3 d _

/-- Settles O34: FB_LOAD follows its table. -/
theorem fbLoadRaisesFirstFailure : Obligations.FbLoadRaisesFirstFailure :=
  fun s _ hcode => exec_raises (i := .fbLoad) (fbLoad_followsTable s) hcode

/-- Settles O35: XF_SELECT follows its table, in which nothing fails for Direct. -/
theorem xfSelectSetsStrategy : Obligations.XfSelectSetsStrategy := by
  refine ⟨fun s hnone => exec_completes (i := .xfSelect) (xfSelect_followsTable s) hnone,
    fun s _ hcode => exec_raises (i := .xfSelect) (xfSelect_followsTable s) hcode,
    fun s hdirect => ?_⟩
  have hsel : operand0 s = 0 := by rw [operand0, hdirect]; rfl
  have hnone : firstFailure (selectFailures s) = none := by
    simp [selectFailures, firstFailure, hdirect]
  have hexec := exec_completes (i := .xfSelect) (xfSelect_followsTable s) hnone
  rw [hsel] at hexec
  exact hexec

/-- Settles O36: both transforms follow their table; what its checks leave when they pass, with the
bank's size from the invariant. -/
theorem transformsRaiseFirstFailure : Obligations.TransformsRaiseFirstFailure := by
  refine ⟨fun s _ hcode =>
    ⟨exec_raises (i := .xfFwd) (transform_followsTable .forward s) hcode,
      exec_raises (i := .xfInv) (transform_followsTable .inverse s) hcode⟩, fun s h hnone => ?_⟩
  have hchecks := transformChecks_of_none hnone
  obtain ⟨hvalid, heven, hshort, hlong, -⟩ := transformChecks_ok hchecks
  obtain ⟨-, htwo, -, -⟩ := h.bank.size_loaded hvalid
  exact ⟨heven, htwo, hshort, hlong, footprint_inside hchecks⟩

/-- Settles O37: the forward transform in place, by the selected strategy. -/
theorem xfFwdTransformsInPlace : Obligations.XfFwdTransformsInPlace := by
  intro s h hnone
  obtain ⟨t, hexec, hframe, hin, hout, helems, hrest⟩ :=
    exec_transform (i := .xfFwd) (dir := .forward) rfl h hnone
  refine ⟨t, _, _, hexec, hframe, hin, hout, helems, fun hstrat => ?_, fun hstrat => ?_, hrest⟩ <;>
    rw [transformOutput, hstrat] <;> rfl

/-- Settles O38: the inverse transform in place, by the selected strategy. -/
theorem xfInvTransformsInPlace : Obligations.XfInvTransformsInPlace := by
  intro s h hnone
  obtain ⟨t, hexec, hframe, hin, hout, helems, hrest⟩ :=
    exec_transform (i := .xfInv) (dir := .inverse) rfl h hnone
  refine ⟨t, _, _, hexec, hframe, hin, hout, helems, fun hstrat => ?_, fun hstrat => ?_, hrest⟩ <;>
    rw [transformOutput, hstrat] <;> rfl

end Sys2Proof.Machine
end

section
/-! SUPPORT. Arrays written in a loop, entry by entry; the symmetric extension and the lifting pass
in closed form. -/

namespace Sys2Proof.Machine

variable {x s t : List F64} {n h : Nat}

/-! ### Arrays -/

theorem elem_set_self {i : Nat} (hi : i < t.length) (v : F64) : elem (t.set i v) i = v := by
  rw [elem, List.getD_eq_getElem _ _ (by rwa [List.length_set]), List.getElem_set_self]

theorem elem_set_ne {i j : Nat} (h : i ≠ j) (v : F64) : elem (t.set i v) j = elem t j := by
  rw [elem, elem, List.getD_eq_getElem?_getD, List.getElem?_set_ne h, ← List.getD_eq_getElem?_getD]

theorem elem_map_range (f : Nat → F64) {k i : Nat} (hi : i < k) :
    elem ((List.range k).map f) i = f i := by
  rw [elem, List.getD_eq_getElem _ _ (by simpa using hi), List.getElem_map, List.getElem_range]

/-- The first half of an array of two halves. -/
theorem elem_halves_left (f g : Nat → F64) {k i : Nat} (hi : i < k) :
    elem ((List.range k).map f ++ (List.range k).map g) i = f i := by
  rw [elem, List.getD_append _ _ _ _ (by simpa using hi)]
  exact elem_map_range f hi

/-- The second half of an array of two halves. -/
theorem elem_halves_right (f g : Nat → F64) {k i : Nat} (hi : i < k) :
    elem ((List.range k).map f ++ (List.range k).map g) (k + i) = g i := by
  have hlen : ((List.range k).map f).length = k := by simp
  rw [elem, List.getD_append_right _ _ _ _ (by omega), hlen, Nat.add_sub_cancel_left]
  exact elem_map_range g hi

/-- Arrays of one length that agree at every index are equal. -/
theorem list_ext_elem {a b : List F64} (hlen : a.length = b.length)
    (h : ∀ i < a.length, elem a i = elem b i) : a = b := by
  refine List.ext_getElem hlen fun i ha hb => ?_
  have hi := h i ha
  rwa [elem, elem, List.getD_eq_getElem _ _ ha, List.getD_eq_getElem _ _ hb] at hi

/-- A loop none of whose turns writes entry `a` keeps it. -/
theorem elem_foldl_of_kept {f : List F64 → Nat → List F64} {k a : Nat}
    (h : ∀ i < k, ∀ t, elem (f t i) a = elem t a) :
    elem ((List.range k).foldl f t) a = elem t a := by
  induction k with
  | zero => rfl
  | succ k ih =>
    rw [List.range_succ, List.foldl_append, List.foldl_cons, List.foldl_nil, h k (by omega),
      ih fun i hi => h i (by omega)]

/-- An entry that no turn after turn `j` writes is what turn `j` leaves. -/
theorem elem_foldl_of_last {f : List F64 → Nat → List F64} {k j a : Nat} (hj : j < k)
    (h : ∀ i, j < i → i < k → ∀ t, elem (f t i) a = elem t a) :
    elem ((List.range k).foldl f t) a = elem (f ((List.range j).foldl f t) j) a := by
  induction k with
  | zero => omega
  | succ k ih =>
    rw [List.range_succ, List.foldl_append, List.foldl_cons, List.foldl_nil]
    obtain rfl | hlt : j = k ∨ j < k := by omega
    · rfl
    · rw [h k hlt (by omega), ih hlt fun i hi hik => h i hi (by omega)]

/-! ### SymExtend -/

/-- The copy of either mode is one element after another (41_transform_direct.md R100, R101). -/
theorem extendCopy_eq (mode : ExtendMode) (x : List F64) (h : Nat) (t : List F64)
    (hn : n % 2 = 0) :
    extendCopy mode x n h t =
      (List.range n).foldl (fun t i => t.set (h + i) (extendSource mode x n i)) t := by
  cases mode with
  | plain => rfl
  | interleaved =>
    have hpairs : ∀ k, (List.range k).foldl
        (fun t i => (t.set (h + 2 * i) (elem x i)).set (h + 2 * i + 1) (elem x (n / 2 + i))) t =
        (List.range (2 * k)).foldl
          (fun t i => t.set (h + i) (extendSource .interleaved x n i)) t := by
      intro k
      induction k with
      | zero => rfl
      | succ k ih =>
        have heven : extendSource .interleaved x n (2 * k) = elem x k := by
          rw [extendSource, if_pos (by omega), Nat.mul_div_cancel_left _ Nat.two_pos]
        have hodd : extendSource .interleaved x n (2 * k + 1) = elem x (n / 2 + k) := by
          have hhalf : (2 * k + 1) / 2 = k := by omega
          rw [extendSource, if_neg (by omega), hhalf]
        rw [Nat.mul_succ, List.range_succ, List.range_succ, List.range_succ]
        simp only [List.foldl_append, List.foldl_cons, List.foldl_nil]
        rw [ih, heven, hodd, Nat.add_assoc]
    have hdouble : 2 * (n / 2) = n := by omega
    rw [extendCopy, hpairs, hdouble]

theorem elem_extendCopy (mode : ExtendMode) (hn : n % 2 = 0) (ht : n + h ≤ t.length) {i : Nat}
    (hi : i < n) : elem (extendCopy mode x n h t) (h + i) = extendSource mode x n i := by
  rw [extendCopy_eq mode x h t hn,
    elem_foldl_of_last hi fun j hij _ t => elem_set_ne (by omega) _]
  refine elem_set_self ?_ _
  rw [foldl_set_length _ (by simp)]
  omega

/-- The left border mirrors the entries from h up (41_transform_direct.md R100). -/
theorem elem_extendLeft (ht : h ≤ t.length) (a : Nat) :
    elem (extendLeft h t) a = if a < h then elem t (2 * h - a) else elem t a := by
  unfold extendLeft
  split
  · next ha =>
    obtain ⟨j, rfl⟩ : ∃ j, a = h - (j + 1) := ⟨h - a - 1, by omega⟩
    rw [elem_foldl_of_last (j := h - (h - (j + 1)) - 1) (by omega)
      fun i hij hik t => elem_set_ne (by omega) _]
    have hj : h - (h - (h - (j + 1)) - 1 + 1) = h - (j + 1) := by omega
    rw [hj, elem_set_self (by rw [foldl_set_length _ (by simp)]; omega),
      elem_foldl_of_kept fun i hi t => elem_set_ne (by omega) _]
    congr 1
    omega
  · next ha => exact elem_foldl_of_kept fun i hi t => elem_set_ne (by omega) _

/-- The right border mirrors the entries below n + h (41_transform_direct.md R100). -/
theorem elem_extendRight (hn : 2 ≤ n) (hnh : h ≤ n) (ht : n + 2 * h < t.length) {a : Nat}
    (ha : a ≤ n + 2 * h) :
    elem (extendRight n h t) a =
      if n + h ≤ a then elem t (2 * n + 2 * h - 2 - a) else elem t a := by
  unfold extendRight
  split
  · next hright =>
    obtain ⟨j, rfl⟩ : ∃ j, a = n + h - 1 + (j + 1) := ⟨a - n - h, by omega⟩
    rw [elem_foldl_of_last (j := j) (by omega) fun i hij hik t => elem_set_ne (by omega) _,
      elem_set_self (by rw [foldl_set_length _ (by simp)]; omega),
      elem_foldl_of_kept fun i hi t => elem_set_ne (by omega) _]
    congr 1
    omega
  · next hright => exact elem_foldl_of_kept fun i hi t => elem_set_ne (by omega) _

theorem extendLeft_length (h : Nat) (t : List F64) : (extendLeft h t).length = t.length :=
  foldl_set_length _ (by simp) _ _

theorem extendCopy_length (mode : ExtendMode) (x : List F64) (n h : Nat) (t : List F64) :
    (extendCopy mode x n h t).length = t.length := by
  cases mode <;> exact foldl_set_length _ (by simp) _ _

/-! ### The mirror -/

theorem mirrorIndex_of_small {k : Int} (hn : 2 ≤ n) (hk : k.natAbs ≤ n - 1) :
    mirrorIndex n k = k.natAbs := by
  have hmod : k.natAbs % (2 * (n - 1)) = k.natAbs := Nat.mod_eq_of_lt (by omega)
  simp only [mirrorIndex, hmod, if_pos hk]

theorem mirrorIndex_of_second {k : Int} (hlow : n ≤ k.natAbs) (hhigh : k.natAbs ≤ 2 * (n - 1)) :
    mirrorIndex n k = 2 * (n - 1) - k.natAbs := by
  unfold mirrorIndex
  obtain heq | hlt : k.natAbs = 2 * (n - 1) ∨ k.natAbs < 2 * (n - 1) := by omega
  · simp only [heq, Nat.mod_self, Nat.zero_le, if_true, Nat.sub_self]
  · simp only [Nat.mod_eq_of_lt hlt]
    rw [if_neg (by omega)]

/-- The mirrored index over SymExtend's window: below the signal, in it, above it; the last case is
the one entry that two reflections reach. -/
theorem mirrorIndex_window {j : Nat} (hh : 1 ≤ h) (hn : n % 2 = 0) (hhn : 2 * h ≤ n)
    (hj : j ≤ n + 2 * h) :
    (j < h ∧ mirrorIndex n ((j : Int) - h) = h - j) ∨
    (h ≤ j ∧ j < n + h ∧ mirrorIndex n ((j : Int) - h) = j - h) ∨
    (n + h ≤ j ∧ j ≤ 2 * n - 2 + h ∧ mirrorIndex n ((j : Int) - h) = 2 * n - 2 + h - j) ∨
    (n = 2 ∧ h = 1 ∧ j = 4 ∧ mirrorIndex n ((j : Int) - h) = 1) := by
  obtain hlow | hin | hright | hlast :
      j < h ∨ (h ≤ j ∧ j < n + h) ∨ (n + h ≤ j ∧ j ≤ 2 * n - 2 + h) ∨ (n = 2 ∧ h = 1 ∧ j = 4) := by
    omega
  · exact .inl ⟨hlow, (mirrorIndex_of_small (by omega) (by omega)).trans (by omega)⟩
  · exact .inr (.inl ⟨hin.1, hin.2,
      (mirrorIndex_of_small (by omega) (by omega)).trans (by omega)⟩)
  · exact .inr (.inr (.inl ⟨hright.1, hright.2,
      (mirrorIndex_of_second (by omega) (by omega)).trans (by omega)⟩))
  · obtain ⟨rfl, rfl, rfl⟩ := hlast
    exact .inr (.inr (.inr ⟨rfl, rfl, rfl, by decide⟩))

/-- Entry `j` of the extension is the element the mirror takes `j - h` to
(41_transform_direct.md R101). -/
theorem elem_symExtend (mode : ExtendMode) (x : List F64) {j : Nat} (hh : 1 ≤ h) (hn : n % 2 = 0)
    (hhn : 2 * h ≤ n) (hj : j ≤ n + 2 * h) :
    elem (symExtend mode x n h) j = extendSource mode x n (mirrorIndex n ((j : Int) - h)) := by
  have hcopy : ∀ i < n, elem (extendCopy mode x n h (List.replicate (n + 2 * h + 1) 0)) (h + i) =
      extendSource mode x n i :=
    fun i hi => elem_extendCopy mode hn (by rw [List.length_replicate]; omega) hi
  have hleft := elem_extendLeft (h := h)
    (t := extendCopy mode x n h (List.replicate (n + 2 * h + 1) 0))
    (by rw [extendCopy_length, List.length_replicate]; omega)
  unfold symExtend
  rw [elem_extendRight (by omega) (by omega)
    (by rw [extendLeft_length, extendCopy_length, List.length_replicate]; omega) hj, hleft, hleft]
  obtain ⟨hlow, hm⟩ | ⟨hge, hin, hm⟩ | ⟨hright, htop, hm⟩ | ⟨rfl, rfl, rfl, hm⟩ :=
    mirrorIndex_window hh hn hhn hj <;> rw [hm]
  · rw [if_neg (by omega), if_pos hlow, ← hcopy _ (by omega)]
    congr 1
    omega
  · rw [if_neg (by omega), if_neg (by omega), ← hcopy _ (by omega)]
    congr 1
    omega
  · rw [if_pos (by omega), if_neg (by omega), ← hcopy _ (by omega)]
    congr 1
    omega
  · exact hcopy 1 (by omega)

/-- Two reflections take any entry of the window to its place in the signal
(41_transform_direct.md R101). -/
theorem foldStep_twice {j : Nat} (hh : 1 ≤ h) (hn : n % 2 = 0) (hhn : 2 * h ≤ n)
    (hj : j ≤ n + 2 * h) :
    (foldStep n)^[2] ((j : Int) - h) = (mirrorIndex n ((j : Int) - h) : Int) := by
  have hfold : ∀ k : Int, foldStep n k =
      if k < 0 then -k else if k > (n : Int) - 1 then 2 * ((n : Int) - 1) - k else k := fun _ => rfl
  show foldStep n (foldStep n ((j : Int) - h)) = _
  rw [hfold ((j : Int) - h), hfold]
  obtain ⟨hlow, hm⟩ | ⟨hge, hin, hm⟩ | ⟨hright, htop, hm⟩ | ⟨rfl, rfl, rfl, hm⟩ :=
    mirrorIndex_window hh hn hhn hj <;> rw [hm] <;> split_ifs <;> omega

/-! ### The sums over the taps -/

theorem tapSum_congr {epoch k size : Nat} {c t t' : Nat → F64} (h : ∀ d < size, t d = t' d) :
    tapSum epoch k size c t = tapSum epoch k size c t' := by
  unfold tapSum
  refine List.foldl_ext _ _ _ fun acc d hd => ?_
  rw [h d (List.mem_range.mp hd)]

theorem f64Zero_false : f64Zero false = 0x0000000000000000 := by decide

/-! ### Lifting -/

/-- The mirrored neighbours of an element (42_transform_lifting.md R111). -/
theorem liftUpdate_eq (epoch stage n : Nat) (c : F64) (s : List F64) {i : Nat} (hi : i < n) :
    liftUpdate epoch stage n c s i =
      f64Add (drawnNaN epoch (liftSite stage n i + 2)) (elem s i)
        (f64Mul (drawnNaN epoch (liftSite stage n i + 1)) c
          (f64Add (drawnNaN epoch (liftSite stage n i))
            (elem s (if i = 0 then 1 else i - 1))
            (elem s (if i = n - 1 then n - 2 else i + 1)))) := by
  have hleft : (if 1 ≤ i then elem s (i - 1) else elem s (i + 1)) =
      elem s (if i = 0 then 1 else i - 1) := by
    split
    · rw [if_neg (by omega)]
    · next h0 =>
      obtain rfl : i = 0 := by omega
      rfl
  have hright : (if i + 1 < n then elem s (i + 1) else elem s (i - 1)) =
      elem s (if i = n - 1 then n - 2 else i + 1) := by
    split
    · rw [if_neg (by omega)]
    · rw [if_pos (by omega)]
      congr 1
      omega
  rw [liftUpdate]
  simp only [hleft, hright]

/-- A turn of a lifting pass writes at most its own element. -/
theorem elem_liftTurn_ne {epoch stage p i a : Nat} {c : F64} (h : i ≠ a) :
    elem (if i % 2 = p then t.set i (liftUpdate epoch stage n c t i) else t) a = elem t a := by
  split
  · exact elem_set_ne h _
  · rfl

/-- In a pass each element of parity p becomes its update from the values before the pass, the
others stay (42_transform_lifting.md R111). -/
theorem elem_liftPass (epoch stage p : Nat) (c : F64) (hn : 2 ≤ n) (heven : n % 2 = 0)
    (hs : s.length = n) {i : Nat} (hi : i < n) :
    elem (liftPass epoch stage n p c s) i =
      if i % 2 = p then liftUpdate epoch stage n c s i else elem s i := by
  have hlen : ∀ k, ((List.range k).foldl (fun s i =>
      if i % 2 = p then s.set i (liftUpdate epoch stage n c s i) else s) s).length = n := fun k =>
    (foldl_set_length _ (fun t i => by split <;> simp) _ _).trans hs
  have hkept : ∀ a, i ≤ a ∨ a % 2 ≠ p → elem ((List.range i).foldl (fun s i =>
      if i % 2 = p then s.set i (liftUpdate epoch stage n c s i) else s) s) a = elem s a := by
    intro a ha
    refine elem_foldl_of_kept fun j hj t => ?_
    by_cases hja : j = a
    · rw [if_neg (by omega)]
    · exact elem_liftTurn_ne hja
  unfold liftPass
  rw [elem_foldl_of_last hi fun j hij _ t => elem_liftTurn_ne (by omega)]
  split
  · next hp =>
    rw [elem_set_self (by rw [hlen]; exact hi), liftUpdate_eq _ _ _ _ _ hi,
      liftUpdate_eq _ _ _ _ _ hi, hkept i (.inl le_rfl), hkept, hkept]
    · split <;> omega
    · split <;> omega
  · exact hkept i (.inl le_rfl)

/-- The forward transform's last step, first half: the even elements times ZETA
(42_transform_lifting.md R112). -/
theorem elem_liftPack_scale_left (epoch : Nat) {k : Nat} (hk : k < n / 2) :
    elem (liftPack n (liftScale epoch n s)) k =
      f64Mul (drawnNaN epoch (liftSite 4 n (2 * k))) (elem s (2 * k)) liftZeta := by
  rw [liftPack, elem_halves_left _ _ hk, liftScale, elem_map_range _ (by omega), if_pos (by omega)]

/-- The forward transform's last step, second half: the odd elements over ZETA
(42_transform_lifting.md R112). -/
theorem elem_liftPack_scale_right (epoch : Nat) {k : Nat} (hk : k < n / 2) :
    elem (liftPack n (liftScale epoch n s)) (n / 2 + k) =
      f64Div (drawnNaN epoch (liftSite 4 n (2 * k + 1))) (elem s (2 * k + 1)) liftZeta := by
  rw [liftPack, elem_halves_right _ _ hk, liftScale, elem_map_range _ (by omega),
    if_neg (by omega)]

/-- The inverse's first step: the halves interleaved, divided and multiplied by ZETA
(42_transform_lifting.md R113). -/
theorem liftUnscale_unpack_eq {epoch : Nat} (heven : n % 2 = 0) (hs : s.length = n)
    (h : ∀ k < n / 2,
      elem s (2 * k) = f64Div (drawnNaN epoch (liftSite 4 n (2 * k))) (elem x k) liftZeta ∧
      elem s (2 * k + 1) =
        f64Mul (drawnNaN epoch (liftSite 4 n (2 * k + 1))) (elem x (n / 2 + k)) liftZeta) :
    liftUnscale epoch n (liftUnpack n x) = s := by
  have hlen : (liftUnscale epoch n (liftUnpack n x)).length = n := by simp [liftUnscale]
  refine list_ext_elem (hlen.trans hs.symm) fun i hi => ?_
  rw [hlen] at hi
  obtain ⟨hdiv, hmul⟩ := h (i / 2) (by omega)
  rw [liftUnscale, elem_map_range _ hi, liftUnpack, elem_map_range _ hi]
  obtain heq | heq : i = 2 * (i / 2) ∨ i = 2 * (i / 2) + 1 := by omega
  · rw [if_pos (by omega), if_pos (by omega), heq, hdiv, ← heq]
  · rw [if_neg (by omega), if_neg (by omega), heq, hmul, ← heq]

end Sys2Proof.Machine
end

section
/-! CERTIFICATES. The statements of 41_transform_direct.md section 2 and 3 and of
42_transform_lifting.md settled: SymExtend, Direct and Lifting. -/

namespace Sys2Proof.Machine

/-- Settles O39: the window's entries by the mirror, which two reflections give. -/
theorem symExtendMirrorsTheSignal : Obligations.SymExtendMirrorsTheSignal := by
  intro mode x n h j hh hn hhn _ hj
  have hwindow := mirrorIndex_window hh hn hhn hj
  exact ⟨symExtend_length mode x n h, by omega, ⟨2, foldStep_twice hh hn hhn hj⟩,
    elem_symExtend mode x hh hn hhn hj, by omega⟩

/-- Settles O40: each value is a sum over taps of extended entries, which are mirrored samples. -/
theorem directForwardIsMirroredConvolution : Obligations.DirectForwardIsMirroredConvolution := by
  intro epoch bank size n i x htwo heven hn hsize _ hi
  have hentry : ∀ j ≤ n + 2 * (size / 2), elem (symExtend .plain x n (size / 2)) j =
      elem x (mirrorIndex n ((j : Int) - ((size / 2 : Nat) : Int))) := fun j hj =>
    elem_symExtend .plain x (by omega) hn (by omega) hj
  refine ⟨transformValues_length .forward .direct epoch bank size x hn, ?_, ?_⟩
  · rw [directForward, elem_halves_left _ _ hi,
      tapSum_congr fun d hd => hentry (2 * i + d) (by omega), tapSum, f64Zero_false]
  · rw [directForward, elem_halves_right _ _ hi,
      tapSum_congr fun d hd => hentry (2 * i + d + 1) (by omega), tapSum, f64Zero_false]

/-- Settles O41: as for the forward transform, over the interleaved halves. -/
theorem directInverseIsMirroredConvolution : Obligations.DirectInverseIsMirroredConvolution := by
  intro epoch bank size n i x htwo heven hn hsize _ hi
  refine ⟨transformValues_length .inverse .direct epoch bank size x hn, ?_⟩
  rw [directInverse, elem_map_range _ hi,
    tapSum_congr fun d hd =>
      elem_symExtend .interleaved x (h := size / 2) (j := i + d) (by omega) hn (by omega)
        (by omega),
    tapSum, f64Zero_false]

/-- With the derived bank the two strategies agree on 1.0 to 10.0 (42_transform_lifting.md R114). -/
theorem strategiesAgree_crossSignal :
    strategiesAgree (10 ^ 15) cdf97Bank 10 crossSignal 10 = true := by
  rw [strategiesAgree, Bool.and_eq_true]
  exact ⟨test_cross_strategy, by decide +kernel⟩

/-- With the derived bank the two strategies agree on an impulse (42_transform_lifting.md R114). -/
theorem strategiesAgree_unitImpulse :
    strategiesAgree (10 ^ 15) cdf97Bank 10 (unitImpulse 10 5) 10 = true := by
  decide +kernel

/-- Settles O42: the pass element by element, the stages around the passes, and the comparisons of
the two strategies on the two signals. -/
theorem liftingFollowsItsPassesAndAgreesWithDirect :
    Obligations.LiftingFollowsItsPassesAndAgreesWithDirect := by
  refine ⟨fun epoch stage n p i c s hn heven _ hs hi => ⟨?_, ?_⟩,
    fun epoch n k x s hn heven _ hk hs => ⟨?_, ?_, ?_⟩,
    fun epoch n x s _ heven _ hs hstages => ?_,
    ⟨strategiesAgree_crossSignal, ?_⟩, strategiesAgree_unitImpulse⟩
  · rw [liftPass_length, hs]
  · rw [elem_liftPass epoch stage p c hn heven hs hi, liftUpdate_eq _ _ _ _ _ hi]
  · exact transformValues_length .forward .lifting epoch cdf97Bank 0 x heven
  · rw [hs]
    exact elem_liftPack_scale_left epoch hk
  · rw [hs]
    exact elem_liftPack_scale_right epoch hk
  · rw [liftInverse, liftUnscale_unpack_eq heven hs hstages]
    rfl
  · rw [test_direct_cdf97, test_lifting_cdf97]
    decide

end Sys2Proof.Machine
end

section
/-! SUPPORT. A binary64 encoding as its sign and its low 63 bits: the class, the magnitude, and the
classes of what the operations give. -/

namespace Sys2Proof.Machine

variable {x : F64} {neg : Bool} {low : Nat}

/-! ### Sign and low bits -/

/-- The 63 bits of an encoding below its sign. -/
def f64Low (x : F64) : Nat := x.toNat % 2 ^ 63

theorem f64Low_lt (x : F64) : f64Low x < 2 ^ 63 := Nat.mod_lt _ (by decide)

theorem toNat_f64Pack (neg : Bool) (hlow : low < 2 ^ 63) :
    (f64Pack neg low).toNat = 2 ^ 63 * neg.toNat + low := by
  rw [f64Pack, toNat_append_add, BitVec.toNat_ofBool, BitVec.toNat_ofNat, Nat.mod_eq_of_lt hlow]

theorem f64Low_pack (neg : Bool) (hlow : low < 2 ^ 63) : f64Low (f64Pack neg low) = low := by
  rw [f64Low, toNat_f64Pack neg hlow]
  omega

theorem f64Sign_eq (x : F64) : f64Sign x = decide (2 ^ 63 ≤ x.toNat) := by
  have hlt := x.isLt
  rw [f64Sign, ← BitVec.testBit_toNat, Nat.testBit_eq_decide_div_mod_eq]
  exact decide_eq_decide.mpr (by omega)

theorem f64Sign_pack (neg : Bool) (hlow : low < 2 ^ 63) : f64Sign (f64Pack neg low) = neg := by
  rw [f64Sign_eq, toNat_f64Pack neg hlow]
  cases neg with
  | false => exact decide_eq_false (by rw [Bool.toNat_false]; omega)
  | true => exact decide_eq_true (by rw [Bool.toNat_true]; omega)

/-- An encoding is its sign above its low bits. -/
theorem f64Pack_sign_low (x : F64) : f64Pack (f64Sign x) (f64Low x) = x := by
  apply BitVec.eq_of_toNat_eq
  have hlt := x.isLt
  rw [toNat_f64Pack _ (f64Low_lt x), f64Sign_eq, f64Low]
  by_cases h : 2 ^ 63 ≤ x.toNat
  · rw [decide_eq_true h, Bool.toNat_true]
    omega
  · rw [decide_eq_false h, Bool.toNat_false]
    omega

theorem f64Exp_eq (x : F64) : f64Exp x = f64Low x / 2 ^ 52 := by
  rw [f64Exp, BitVec.extractLsb'_toNat, Nat.shiftRight_eq_div_pow, f64Low]
  omega

theorem f64Frac_eq (x : F64) : f64Frac x = f64Low x % 2 ^ 52 := by
  rw [f64Frac, BitVec.extractLsb'_toNat, Nat.shiftRight_zero, f64Low]
  omega

theorem f64Finite_iff : f64Finite x = true ↔ f64Low x < 2047 * 2 ^ 52 := by
  have hlt := f64Low_lt x
  rw [f64Finite, decide_eq_true_iff, f64Exp_eq]
  omega

/-! ### Classes -/

theorem f64Class_of_finite (h : f64Finite x = true) :
    f64Class x = .finite (f64Sign x) (f64Mag x) := by
  rw [f64Finite, decide_eq_true_iff] at h
  rw [f64Class, if_neg h]

theorem f64Class_inf (neg : Bool) : f64Class (f64Inf neg) = .inf neg := by
  have hlow : 2047 * 2 ^ 52 < 2 ^ 63 := by decide
  rw [f64Class, f64Inf, f64Exp_eq, f64Frac_eq, f64Low_pack neg hlow, f64Sign_pack neg hlow]
  rfl

theorem f64Finite_pack (neg : Bool) (h : low < 2047 * 2 ^ 52) :
    f64Finite (f64Pack neg low) = true := by
  rw [f64Finite_iff, f64Low_pack neg (by omega)]
  exact h

theorem f64Finite_inf (neg : Bool) : f64Finite (f64Inf neg) = false := by
  rw [← Bool.not_eq_true, f64Finite_iff, f64Inf, f64Low_pack neg (by decide)]
  omega

theorem f64Class_zero (neg : Bool) : f64Class (f64Zero neg) = .finite neg 0 := by
  cases neg <;> decide

/-- The quiet NaN of a draw is a NaN with the quiet bit set (00_scope.md R12). -/
theorem f64QuietNaN_low (draw : BitVec 52) :
    f64Low (f64QuietNaN draw) = 2047 * 2 ^ 52 + 2 ^ 51 + draw.toNat % 2 ^ 51 :=
  f64Low_pack _ (by omega)

theorem f64Class_quietNaN (draw : BitVec 52) : f64Class (f64QuietNaN draw) = .nan := by
  rw [f64Class, f64Exp_eq, f64Frac_eq, f64QuietNaN_low, if_pos (by omega), if_neg (by omega)]

theorem f64QuietNaN_quiet (draw : BitVec 52) : (f64QuietNaN draw).getLsbD 51 = true := by
  have hlow := f64QuietNaN_low draw
  rw [f64Low] at hlow
  rw [← BitVec.testBit_toNat, Nat.testBit_eq_decide_div_mod_eq]
  exact decide_eq_true (by omega)

/-- An infinity or a finite encoding is no NaN, and every rounded result is one of them. -/
theorem f64Round_ne_nan (neg : Bool) (num den : Nat) : f64Class (f64Round neg num den) ≠ .nan := by
  rw [f64Round]
  split
  · rw [f64Class_inf]
    nofun
  · rw [f64Class_of_finite (f64Finite_pack neg (by omega))]
    nofun

/-! ### Negation -/

theorem f64Neg_pack (neg : Bool) (low : Nat) : f64Neg (f64Pack neg low) = f64Pack (!neg) low := by
  have hsign : BitVec.ofBool neg ^^^ BitVec.ofBool true = BitVec.ofBool (!neg) := by
    cases neg <;> rfl
  rw [f64Neg, f64Pack, f64Pack, BitVec.xor_append, hsign, BitVec.xor_zero]
  rfl

theorem f64Neg_eq (x : F64) : f64Neg x = f64Pack (!f64Sign x) (f64Low x) := by
  rw [← f64Neg_pack, f64Pack_sign_low]

theorem f64Sign_neg (x : F64) : f64Sign (f64Neg x) = !f64Sign x := by
  rw [f64Neg_eq, f64Sign_pack _ (f64Low_lt x)]

theorem f64Low_neg (x : F64) : f64Low (f64Neg x) = f64Low x := by
  rw [f64Neg_eq, f64Low_pack _ (f64Low_lt x)]

theorem f64Finite_neg (h : f64Finite x = true) : f64Finite (f64Neg x) = true := by
  rw [f64Finite_iff, f64Low_neg]
  exact f64Finite_iff.mp h

/-- The negation of a NaN is a NaN, and so of an infinity. -/
theorem f64Class_neg_nan (h : f64Class x = .nan) : f64Class (f64Neg x) = .nan := by
  rw [f64Class, f64Exp_eq, f64Frac_eq] at h ⊢
  rw [f64Low_neg]
  split at h
  · split at h
    · cases h
    · simp_all
  · cases h

theorem f64Neg_inf (neg : Bool) : f64Neg (f64Inf neg) = f64Inf (!neg) := f64Neg_pack _ _

/-! ### NaN results -/

section
variable {nan a b : F64}

theorem f64Add_of_nan (h : f64Class a = .nan ∨ f64Class b = .nan) : f64Add nan a b = nan := by
  rw [f64Add]
  obtain ha | hb := h
  · rw [ha]
  · rw [hb]
    cases f64Class a <;> rfl

theorem f64Mul_of_nan (h : f64Class a = .nan ∨ f64Class b = .nan) : f64Mul nan a b = nan := by
  rw [f64Mul]
  obtain ha | hb := h
  · rw [ha]
  · rw [hb]
    cases f64Class a <;> rfl

theorem f64Div_of_nan (h : f64Class a = .nan ∨ f64Class b = .nan) : f64Div nan a b = nan := by
  rw [f64Div]
  obtain ha | hb := h
  · rw [ha]
  · rw [hb]
    cases f64Class a <;> rfl

theorem f64Zero_ne_nan (neg : Bool) : f64Class (f64Zero neg) ≠ .nan := by
  rw [f64Class_zero]
  nofun

theorem f64Inf_ne_nan (neg : Bool) : f64Class (f64Inf neg) ≠ .nan := by
  rw [f64Class_inf]
  nofun

/-- A sum that is a NaN is the NaN given (log entry 8). -/
theorem f64Add_nan_result (h : f64Class (f64Add nan a b) = .nan) : f64Add nan a b = nan := by
  cases ha : f64Class a with
  | nan => exact f64Add_of_nan (.inl ha)
  | inf na =>
    cases hb : f64Class b with
    | nan => exact f64Add_of_nan (.inr hb)
    | inf nb =>
      simp only [f64Add, ha, hb] at h ⊢
      split at h
      · exact absurd h (f64Inf_ne_nan _)
      · exact if_neg ‹_›
    | finite nb mb => simp only [f64Add, ha, hb] at h; exact absurd h (f64Inf_ne_nan _)
  | finite na ma =>
    cases hb : f64Class b with
    | nan => exact f64Add_of_nan (.inr hb)
    | inf nb => simp only [f64Add, ha, hb] at h; exact absurd h (f64Inf_ne_nan _)
    | finite nb mb =>
      simp only [f64Add, ha, hb] at h
      split at h
      · exact absurd h (f64Zero_ne_nan _)
      · exact absurd h (f64Round_ne_nan _ _ _)

theorem f64Mul_nan_result (h : f64Class (f64Mul nan a b) = .nan) : f64Mul nan a b = nan := by
  cases ha : f64Class a with
  | nan => exact f64Mul_of_nan (.inl ha)
  | inf na =>
    cases hb : f64Class b with
    | nan => exact f64Mul_of_nan (.inr hb)
    | inf nb => simp only [f64Mul, ha, hb] at h; exact absurd h (f64Inf_ne_nan _)
    | finite nb mb =>
      simp only [f64Mul, ha, hb] at h ⊢
      split at h
      · exact if_pos ‹_›
      · exact absurd h (f64Inf_ne_nan _)
  | finite na ma =>
    cases hb : f64Class b with
    | nan => exact f64Mul_of_nan (.inr hb)
    | inf nb =>
      simp only [f64Mul, ha, hb] at h ⊢
      split at h
      · exact if_pos ‹_›
      · exact absurd h (f64Inf_ne_nan _)
    | finite nb mb => simp only [f64Mul, ha, hb] at h; exact absurd h (f64Round_ne_nan _ _ _)

theorem f64Div_nan_result (h : f64Class (f64Div nan a b) = .nan) : f64Div nan a b = nan := by
  cases ha : f64Class a with
  | nan => exact f64Div_of_nan (.inl ha)
  | inf na =>
    cases hb : f64Class b with
    | nan => exact f64Div_of_nan (.inr hb)
    | inf nb => simp only [f64Div, ha, hb]
    | finite nb mb => simp only [f64Div, ha, hb] at h; exact absurd h (f64Inf_ne_nan _)
  | finite na ma =>
    cases hb : f64Class b with
    | nan => exact f64Div_of_nan (.inr hb)
    | inf nb => simp only [f64Div, ha, hb] at h; exact absurd h (f64Zero_ne_nan _)
    | finite nb mb =>
      simp only [f64Div, ha, hb] at h ⊢
      split at h
      · next hmb =>
        split at h
        · next hma => rw [if_pos hmb, if_pos hma]
        · exact absurd h (f64Inf_ne_nan _)
      · exact absurd h (f64Round_ne_nan _ _ _)

end

end Sys2Proof.Machine
end

section
/-! CERTIFICATES. The statement of 00_scope.md R12 on NaN results settled. -/

namespace Sys2Proof.Machine

/-- Settles O45: the drawn NaN is quiet, and each operation by the classes of its operands. -/
theorem naNsAreTheDrawnQuietNaN : Obligations.NaNsAreTheDrawnQuietNaN := by
  refine ⟨fun epoch site => ⟨f64Class_quietNaN _, f64QuietNaN_quiet _⟩,
    fun nan a b => ⟨f64Add_nan_result, f64Add_nan_result, f64Mul_nan_result, f64Div_nan_result⟩,
    fun nan a b h => ⟨f64Add_of_nan h, f64Add_of_nan (h.imp_right f64Class_neg_nan),
      f64Mul_of_nan h, f64Div_of_nan h⟩, fun nan n n' => ⟨?_, ?_, ?_, ?_, ?_, ?_⟩⟩
  · simp [f64Mul, f64Class_zero, f64Class_inf]
  · simp [f64Mul, f64Class_zero, f64Class_inf]
  · simp [f64Add, f64Class_inf]
  · simp [f64Sub, f64Neg_inf, f64Add, f64Class_inf]
  · simp [f64Div, f64Class_zero]
  · simp [f64Div, f64Class_inf]

end Sys2Proof.Machine
end

section
/-! SUPPORT. Rounding: the magnitudes of the encodings in order, the two neighbours of an exact
value, and the one that roundTiesToEven takes. -/

namespace Sys2Proof.Machine

variable {num den low : Nat}

/-! ### The magnitudes in order -/

/-- The magnitude of a finite encoding by its low bits: a subnormal is its fraction, a normal has
the hidden bit and is scaled (IEEE 754, log entry 11). -/
def lowMag (low : Nat) : Nat :=
  if low / 2 ^ 52 = 0 then low % 2 ^ 52 else (2 ^ 52 + low % 2 ^ 52) * 2 ^ (low / 2 ^ 52 - 1)

theorem f64Mag_eq (x : F64) : f64Mag x = lowMag (f64Low x) := by
  rw [f64Mag, f64Exp_eq, f64Frac_eq, lowMag]

/-- Adding `q` steps of weight `2^s` to the low bits of exponent `s`: the next binade begins where
this one ends, so `q = 2^53` is allowed. -/
theorem lowMag_grid {s q : Nat} (hq : q ≤ 2 ^ 53) (hs : s = 0 ∨ 2 ^ 52 ≤ q) :
    lowMag (s * 2 ^ 52 + q) = q * 2 ^ s := by
  obtain hsub | hnormal | rfl : q < 2 ^ 52 ∨ (2 ^ 52 ≤ q ∧ q < 2 ^ 53) ∨ q = 2 ^ 53 := by omega
  · obtain rfl : s = 0 := by omega
    have hexp : (0 * 2 ^ 52 + q) / 2 ^ 52 = 0 := by omega
    rw [lowMag, if_pos hexp]
    omega
  · have hexp : (s * 2 ^ 52 + q) / 2 ^ 52 = s + 1 := by omega
    have hfrac : 2 ^ 52 + (s * 2 ^ 52 + q) % 2 ^ 52 = q := by omega
    rw [lowMag, hexp, if_neg (Nat.succ_ne_zero s), hfrac, Nat.add_sub_cancel]
  · have hexp : (s * 2 ^ 52 + 2 ^ 53) / 2 ^ 52 = s + 2 := by omega
    have hfrac : 2 ^ 52 + (s * 2 ^ 52 + 2 ^ 53) % 2 ^ 52 = 2 ^ 52 := by omega
    rw [lowMag, hexp, if_neg (Nat.succ_ne_zero _), hfrac]
    show 2 ^ 52 * 2 ^ (s + 1) = 2 ^ 53 * 2 ^ s
    rw [pow_succ' 2 s, ← Nat.mul_assoc]
    rfl

/-- The magnitudes rise with the low bits. -/
theorem lowMag_strictMono : StrictMono lowMag := by
  refine strictMono_nat_of_lt_succ fun low => ?_
  obtain ⟨s, q, hlow, hq, hs⟩ :
      ∃ s q, low = s * 2 ^ 52 + q ∧ q < 2 ^ 53 ∧ (s = 0 ∨ 2 ^ 52 ≤ q) :=
    ⟨low / 2 ^ 52 - 1, low - (low / 2 ^ 52 - 1) * 2 ^ 52, by omega, by omega, by omega⟩
  rw [hlow, Nat.add_assoc, lowMag_grid hq.le hs, lowMag_grid (by omega) (by omega)]
  exact Nat.mul_lt_mul_of_pos_right (Nat.lt_succ_self q) (Nat.two_pow_pos s)

/-! ### The grid of an exact value -/

/-- At the shift chosen, the quotient has at most 53 bits, and 53 of them unless the value is below
the normal range. -/
theorem roundShift_spec (num den : Nat) :
    num / (den * 2 ^ roundShift num den) < 2 ^ 53 ∧
      (roundShift num den = 0 ∨ 2 ^ 52 ≤ num / (den * 2 ^ roundShift num den)) := by
  rw [← Nat.div_div_eq_div_mul]
  have hshift : roundShift num den = Nat.log2 (num / den) - 52 := rfl
  generalize roundShift num den = s at *
  constructor
  · refine Nat.div_lt_of_lt_mul ?_
    rw [← pow_add]
    calc num / den < 2 ^ (Nat.log2 (num / den) + 1) := Nat.lt_log2_self
      _ ≤ 2 ^ (s + 53) := Nat.pow_le_pow_right (by decide) (by omega)
  · by_cases h0 : s = 0
    · exact .inl h0
    · refine .inr ((Nat.le_div_iff_mul_le (Nat.two_pow_pos s)).mpr ?_)
      have hne : num / den ≠ 0 := by
        intro hzero
        rw [hzero, Nat.log2_zero] at hshift
        omega
      have hlog : 52 + s = Nat.log2 (num / den) := by omega
      rw [← pow_add, hlog]
      exact Nat.log2_self_le hne

/-- The integer nearest to a quotient: the floor below halfway and on an even tie, else one more. -/
theorem roundDivEven_cases (num den : Nat) :
    (roundDivEven num den = num / den ∧
      (2 * (num % den) < den ∨ 2 * (num % den) = den ∧ num / den % 2 = 0)) ∨
    (roundDivEven num den = num / den + 1 ∧
      (den < 2 * (num % den) ∨ 2 * (num % den) = den ∧ num / den % 2 = 1)) := by
  rw [roundDivEven]
  split
  · next h => exact .inr ⟨rfl, h⟩
  · next h => exact .inl ⟨rfl, by omega⟩

/-- The low bits of the rounded value, before the overflow to infinity. -/
def roundLow (num den : Nat) : Nat :=
  roundShift num den * 2 ^ 52 + roundDivEven num (den * 2 ^ roundShift num den)

theorem f64Round_eq (neg : Bool) (num den : Nat) :
    f64Round neg num den =
      if 2047 * 2 ^ 52 ≤ roundLow num den then f64Inf neg else f64Pack neg (roundLow num den) := rfl

/-- Two encodings next to each other around `num / den`, `floor` and `floor + gap` in units of
1 / den, with `r` the exact value's distance from the lower one: the nearer of them is as near as
any other, and the only one unless `r` is half the gap. -/
theorem nearest_of_neighbours {v m floor r gap : Int} (hr : 0 ≤ r ∧ r < gap)
    (hv : (v = floor ∧ 2 * r ≤ gap ∧ (m < floor ∨ floor + gap ≤ m)) ∨
      (v = floor + gap ∧ gap ≤ 2 * r ∧ (m ≤ floor ∨ floor + gap < m))) :
    (floor + r - v).natAbs ≤ (floor + r - m).natAbs ∧
      ((floor + r - v).natAbs = (floor + r - m).natAbs → 2 * r = gap) := by
  omega

/-- The rounded value is the nearer of the exact value's two neighbours, and on a tie the one whose
last bit is 0; no other encoding is as near (IEEE 754, log entry 11). -/
theorem roundLow_nearest (hden : 0 < den) (hlow : low ≠ roundLow num den) :
    ((num : Int) - den * lowMag (roundLow num den)).natAbs ≤
        ((num : Int) - den * lowMag low).natAbs ∧
      (((num : Int) - den * lowMag (roundLow num den)).natAbs =
          ((num : Int) - den * lowMag low).natAbs →
        roundLow num den % 2 = 0) := by
  obtain ⟨hquot, hshift⟩ := roundShift_spec num den
  have hround := roundDivEven_cases num (den * 2 ^ roundShift num den)
  have hdivmod := Nat.div_add_mod num (den * 2 ^ roundShift num den)
  have hlt := Nat.mod_lt num (Nat.mul_pos hden (Nat.two_pow_pos (roundShift num den)))
  rw [roundLow] at *
  generalize roundShift num den = s at *
  generalize num / (den * 2 ^ s) = k at *
  generalize num % (den * 2 ^ s) = r at *
  generalize roundDivEven num (den * 2 ^ s) = q at *
  have hfloor : den * lowMag (s * 2 ^ 52 + k) = den * 2 ^ s * k := by
    rw [lowMag_grid (by omega) hshift]
    ring
  have hceil : den * lowMag (s * 2 ^ 52 + (k + 1)) = den * 2 ^ s * k + den * 2 ^ s := by
    rw [lowMag_grid (by omega) (by omega)]
    ring
  have hmono : StrictMono fun l => den * lowMag l := fun a b hab =>
    Nat.mul_lt_mul_of_pos_left (lowMag_strictMono hab) hden
  have hbelow := hmono.lt_iff_lt (a := low) (b := s * 2 ^ 52 + k)
  have hbelow' := hmono.le_iff_le (a := low) (b := s * 2 ^ 52 + k)
  have habove := hmono.lt_iff_lt (a := s * 2 ^ 52 + (k + 1)) (b := low)
  have habove' := hmono.le_iff_le (a := s * 2 ^ 52 + (k + 1)) (b := low)
  simp only [hfloor, hceil] at hbelow hbelow' habove habove'
  have hv : den * lowMag (s * 2 ^ 52 + q) = den * 2 ^ s * k ∧ q = k ∨
      den * lowMag (s * 2 ^ 52 + q) = den * 2 ^ s * k + den * 2 ^ s ∧ q = k + 1 := by
    obtain ⟨rfl, -⟩ | ⟨rfl, -⟩ := hround
    · exact .inl ⟨hfloor, rfl⟩
    · exact .inr ⟨hceil, rfl⟩
  have hcast : ∀ l, (den : Int) * lowMag l = ((den * lowMag l : Nat) : Int) := fun l =>
    (Nat.cast_mul _ _).symm
  rw [hcast, hcast, ← hdivmod, Nat.cast_add]
  generalize den * lowMag (s * 2 ^ 52 + q) = v at *
  generalize den * lowMag low = m at *
  generalize den * 2 ^ s * k = floor at *
  generalize den * 2 ^ s = gap at *
  obtain ⟨hle, htie⟩ := nearest_of_neighbours (v := v) (m := m) (floor := floor) (r := r)
    (gap := gap) (by omega) (by omega)
  exact ⟨hle, fun heq => by have := htie heq; omega⟩

/-! ### Overflow -/

/-- The result overflows exactly from the halfway point above the largest finite value on
(IEEE 754, log entry 11). -/
theorem roundLow_overflow_iff (hden : 0 < den) :
    2047 * 2 ^ 52 ≤ roundLow num den ↔ den * ((2 ^ 54 - 1) * 2 ^ 2044) ≤ num := by
  obtain ⟨hquot, hshift⟩ := roundShift_spec num den
  have hround := roundDivEven_cases num (den * 2 ^ roundShift num den)
  have hdivmod := Nat.div_add_mod num (den * 2 ^ roundShift num den)
  have hlt := Nat.mod_lt num (Nat.mul_pos hden (Nat.two_pow_pos (roundShift num den)))
  have hthreshold : den * ((2 ^ 54 - 1) * 2 ^ 2044) = (2 ^ 54 - 1) * (den * 2 ^ 2044) :=
    mul_left_comm den _ _
  have hdouble : ∀ e, den * 2 ^ (e + 1) = 2 * (den * 2 ^ e) := fun e => by
    rw [pow_succ', Nat.mul_left_comm]
  have htwo := hdouble 2044
  have hfour := hdouble 2045
  have hmono : ∀ e e', e ≤ e' → den * 2 ^ e ≤ den * 2 ^ e' := fun e e' h =>
    Nat.mul_le_mul_left _ (Nat.pow_le_pow_right (by decide) h)
  have hsmall := hmono (roundShift num den) 2044
  have hlarge := hmono 2046 (roundShift num den)
  have hequal : roundShift num den = 2045 → den * 2 ^ roundShift num den = den * 2 ^ 2045 :=
    fun h => by rw [h]
  have hpos : ∀ e, 0 < den * 2 ^ e := fun e => Nat.mul_pos hden (Nat.two_pow_pos e)
  have hhalf := hpos 2044
  rw [roundLow, hthreshold]
  clear hdouble hmono hpos hthreshold
  generalize roundShift num den = s at *
  generalize num / (den * 2 ^ s) = k at *
  generalize num % (den * 2 ^ s) = r at *
  generalize roundDivEven num (den * 2 ^ s) = q at *
  generalize den * 2 ^ 2046 = quadruple at *
  generalize den * 2 ^ 2045 = double at *
  generalize den * 2 ^ 2044 = half at *
  generalize den * 2 ^ s = gap at *
  obtain hs | hs | hs : s ≤ 2044 ∨ s = 2045 ∨ 2046 ≤ s := by omega
  · have hgap := hsmall hs
    have hfloor : gap * k ≤ gap * (2 ^ 53 - 1) := Nat.mul_le_mul_left _ (by omega)
    exact iff_of_false (by omega) (by omega)
  · have hgap := hequal hs
    by_cases htop : k = 2 ^ 53 - 1
    · subst htop
      omega
    · have hfloor : gap * k ≤ gap * (2 ^ 53 - 2) := Nat.mul_le_mul_left _ (by omega)
      exact iff_of_false (by omega) (by omega)
  · have hgap := hlarge hs
    have hk : 2 ^ 52 ≤ k := by omega
    have hfloor : 2 ^ 52 * gap ≤ gap * k := by
      rw [Nat.mul_comm]
      exact Nat.mul_le_mul_left _ hk
    exact iff_of_true (by omega) (by omega)

/-! ### The rounded encoding -/

variable {neg : Bool}

theorem f64Sign_inf (neg : Bool) : f64Sign (f64Inf neg) = neg := f64Sign_pack neg (by decide)

theorem f64Sign_round (neg : Bool) (num den : Nat) : f64Sign (f64Round neg num den) = neg := by
  rw [f64Round_eq]
  split
  · exact f64Sign_inf neg
  · exact f64Sign_pack neg (by omega)

/-- A rounded result is finite exactly below the overflow threshold. -/
theorem f64Finite_round_iff (neg : Bool) (hden : 0 < den) :
    f64Finite (f64Round neg num den) = true ↔ num < den * ((2 ^ 54 - 1) * 2 ^ 2044) := by
  rw [f64Round_eq, ← not_le, ← roundLow_overflow_iff hden]
  split
  · next h => exact iff_of_false (by rw [f64Finite_inf]; decide) (not_not_intro h)
  · next h => exact iff_of_true (f64Finite_pack neg (by omega)) h

theorem f64Round_eq_inf_iff (neg : Bool) (hden : 0 < den) :
    f64Round neg num den = f64Inf neg ↔ den * ((2 ^ 54 - 1) * 2 ^ 2044) ≤ num := by
  constructor
  · intro h
    by_contra hlt
    have hfinite := (f64Finite_round_iff neg hden).mpr (not_le.mp hlt)
    rw [h, f64Finite_inf] at hfinite
    cases hfinite
  · intro h
    rw [f64Round_eq, if_pos ((roundLow_overflow_iff hden).mpr h)]

/-- A finite result is the encoding of the rounded low bits. -/
theorem f64Low_round (neg : Bool) (hfinite : f64Finite (f64Round neg num den) = true) :
    f64Low (f64Round neg num den) = roundLow num den := by
  rw [f64Round_eq] at hfinite ⊢
  split at hfinite
  · rw [f64Finite_inf] at hfinite
    cases hfinite
  · next h => rw [if_neg h, f64Low_pack neg (by omega)]

theorem getLsbD_zero_eq (x : F64) : x.getLsbD 0 = decide (f64Low x % 2 = 1) := by
  rw [← BitVec.testBit_toNat, Nat.testBit_eq_decide_div_mod_eq, f64Low]
  exact decide_eq_decide.mpr (by omega)

end Sys2Proof.Machine
end

section
/-! CERTIFICATES. The statement of 00_scope.md R12 on rounding settled. -/

namespace Sys2Proof.Machine

/-- Settles O43: the overflow threshold, and the nearer neighbour against any other encoding of the
sign. -/
theorem roundingIsNearestEven : Obligations.RoundingIsNearestEven := by
  refine fun neg num den hden => ⟨f64Sign_round neg num den, f64Round_eq_inf_iff neg hden,
    f64Finite_round_iff neg hden, fun hfinite y _ hne hsign => ?_⟩
  have hlow := f64Low_round neg hfinite
  have hother : f64Low y ≠ roundLow num den := by
    intro heq
    apply hne
    rw [← f64Pack_sign_low y, ← f64Pack_sign_low (f64Round neg num den), hsign, heq, hlow,
      f64Sign_round]
  obtain ⟨hnear, htie⟩ := roundLow_nearest hden hother
  rw [f64Mag_eq, f64Mag_eq, hlow, getLsbD_zero_eq, hlow]
  exact ⟨hnear, fun heq => decide_eq_false (by have := htie heq; omega)⟩

end Sys2Proof.Machine
end

section
/-! SUPPORT. The four operations as one rounding of the exact result: signed magnitudes, and the
nearest value among those of both signs. -/

namespace Sys2Proof.Machine

variable {neg e : Bool} {n d : Nat} {nan a b : F64}

/-! ### Signed magnitudes -/

theorem natAbs_signedMag (neg : Bool) (n : Nat) : (signedMag neg n).natAbs = n := by
  cases neg <;> simp [signedMag]

theorem signedMag_mul (x y : Bool) (m n : Nat) :
    signedMag x m * signedMag y n = signedMag (x ^^ y) (m * n) := by
  cases x <;> cases y <;> simp [signedMag]

theorem signedMag_false (n : Nat) : signedMag false n = n := rfl

theorem signedMag_not (neg : Bool) (n : Nat) : signedMag (!neg) n = -signedMag neg n := by
  cases neg <;> simp [signedMag]

/-- An integer is its sign and its magnitude; at zero any sign will do. -/
theorem signedMag_natAbs {z : Int} (h : z ≠ 0 → neg = decide (z < 0)) :
    signedMag neg z.natAbs = z := by
  by_cases hz : z = 0
  · rw [hz]
    cases neg <;> rfl
  · rw [h hz]
    by_cases hneg : z < 0
    · simp only [signedMag, hneg, decide_true, if_true]
      omega
    · simp only [signedMag, hneg, decide_false, Bool.false_eq_true, if_false]
      omega

/-- The distance of a value from an exact quotient, by whether the signs are the same. -/
theorem natAbs_sub_signedMag (neg e sign : Bool) (n d m : Nat) :
    (signedMag (neg ^^ e) n - signedMag e d * signedMag sign m).natAbs =
      if sign = neg then ((n : Int) - d * m).natAbs else n + d * m := by
  rw [signedMag_mul, ← Nat.cast_mul]
  generalize d * m = p
  cases neg <;> cases e <;> cases sign <;> simp [signedMag] <;> omega

/-! ### One rounding -/

theorem f64Value_of_sign {x : F64} (h : f64Sign x = neg) :
    f64Value x = signedMag neg (f64Mag x) := by
  rw [f64Value, h]

theorem f64Mag_zero (neg : Bool) : f64Mag (f64Zero neg) = 0 := by
  rw [f64Mag_eq, f64Zero, f64Low_pack neg (by decide)]
  rfl

theorem f64Sign_zero (neg : Bool) : f64Sign (f64Zero neg) = neg := f64Sign_pack neg (by decide)

theorem f64Finite_zero (neg : Bool) : f64Finite (f64Zero neg) = true :=
  f64Finite_pack neg (by decide)

/-- The zero of a sign is zero rounded. -/
theorem f64Zero_eq_round (neg : Bool) : f64Zero neg = f64Round neg 0 1 := by
  cases neg <;> decide

/-- The rounded value of the sign is at least as near as any value of either sign: a value of the
other sign is no nearer than zero (IEEE 754, log entry 11). -/
theorem f64Round_nearest (hd : 0 < d) (hfinite : f64Finite (f64Round neg n d) = true) {y : F64}
    (hy : f64Finite y = true) :
    (signedMag (neg ^^ e) n - signedMag e d * f64Value (f64Round neg n d)).natAbs ≤
        (signedMag (neg ^^ e) n - signedMag e d * f64Value y).natAbs ∧
      (f64Value y ≠ f64Value (f64Round neg n d) →
        (signedMag (neg ^^ e) n - signedMag e d * f64Value (f64Round neg n d)).natAbs =
          (signedMag (neg ^^ e) n - signedMag e d * f64Value y).natAbs →
        (f64Round neg n d).getLsbD 0 = false) := by
  obtain ⟨hsign, -, -, hnearest⟩ := roundingIsNearestEven neg n d hd
  have hnear := hnearest hfinite
  rw [f64Value_of_sign hsign, f64Value, natAbs_sub_signedMag, natAbs_sub_signedMag, if_pos rfl]
  generalize f64Round neg n d = r at *
  by_cases hsame : f64Sign y = neg
  · rw [if_pos hsame]
    by_cases heq : y = r
    · rw [heq, hsign]
      exact ⟨le_rfl, fun hne => absurd rfl hne⟩
    · obtain ⟨hle, htie⟩ := hnear y hy heq hsame
      exact ⟨hle, fun _ => htie⟩
  · rw [if_neg hsame]
    by_cases hzero : f64Zero neg = r
    · have hmag : f64Mag r = 0 := by rw [← hzero, f64Mag_zero]
      rw [hmag]
      refine ⟨by simp, fun hne heq => absurd ?_ hne⟩
      have hprod : d * f64Mag y = 0 := by simpa using heq
      have hy0 : f64Mag y = 0 := (Nat.mul_eq_zero.mp hprod).resolve_left hd.ne'
      rw [hy0]
      cases neg <;> cases f64Sign y <;> rfl
    · obtain ⟨hle, htie⟩ := hnear _ (f64Finite_zero neg) hzero (f64Sign_zero neg)
      rw [f64Mag_zero] at hle htie
      simp only [Nat.cast_zero, mul_zero, sub_zero, Int.natAbs_natCast] at hle htie
      exact ⟨by omega, fun _ heq => htie (by omega)⟩

/-- A value rounded from an exact quotient is correctly rounded, whatever the divisor's sign. -/
theorem correctlyRounded_round (hd : 0 < d) :
    correctlyRounded (signedMag (neg ^^ e) n) (signedMag e d) neg (f64Round neg n d) := by
  rw [correctlyRounded, natAbs_signedMag, natAbs_signedMag]
  refine ⟨f64Round_eq_inf_iff neg hd, fun hlt => ?_⟩
  have hfinite := (f64Finite_round_iff neg hd).mpr hlt
  exact ⟨hfinite, f64Sign_round neg n d, fun y hy => f64Round_nearest hd hfinite hy⟩

/-- An exact integer rounded is correctly rounded; the sign of zero is free. -/
theorem correctlyRounded_int {z : Int} (h : z ≠ 0 → neg = decide (z < 0)) :
    correctlyRounded z 1 neg (f64Round neg z.natAbs 1) := by
  have hround := correctlyRounded_round (neg := neg) (e := false) (n := z.natAbs) one_pos
  rwa [Bool.xor_false, signedMag_natAbs h] at hround

/-! ### The operations on finite values -/

/-- The sum of finite values: the exact sum rounded, with the sign of an exact zero
(IEEE 754, log entry 11). -/
theorem f64Add_of_finite (ha : f64Finite a = true) (hb : f64Finite b = true) :
    f64Add nan a b =
      f64Round (if f64Value a + f64Value b = 0 then f64Sign a && f64Sign b
        else decide (f64Value a + f64Value b < 0)) (f64Value a + f64Value b).natAbs 1 := by
  rw [f64Add, f64Class_of_finite ha, f64Class_of_finite hb]
  show (if f64Value a + f64Value b = 0 then f64Zero (f64Sign a && f64Sign b)
    else f64Round (decide (f64Value a + f64Value b < 0)) (f64Value a + f64Value b).natAbs 1) = _
  split
  · next h => rw [h, f64Zero_eq_round]; rfl
  · rfl

theorem f64Mul_of_finite (ha : f64Finite a = true) (hb : f64Finite b = true) :
    f64Mul nan a b = f64Round (f64Sign a ^^ f64Sign b) (f64Mag a * f64Mag b) (2 ^ 1074) := by
  rw [f64Mul, f64Class_of_finite ha, f64Class_of_finite hb]

theorem f64Div_of_finite (ha : f64Finite a = true) (hb : f64Finite b = true)
    (hne : f64Mag b ≠ 0) :
    f64Div nan a b = f64Round (f64Sign a ^^ f64Sign b) (f64Mag a * 2 ^ 1074) (f64Mag b) := by
  rw [f64Div, f64Class_of_finite ha, f64Class_of_finite hb]
  exact if_neg hne

theorem f64Value_eq_zero_iff {x : F64} : f64Value x = 0 ↔ f64Mag x = 0 := by
  rw [← Int.natAbs_eq_zero, f64Value, natAbs_signedMag]

theorem f64Value_neg (x : F64) : f64Value (f64Neg x) = -f64Value x := by
  rw [f64Value, f64Value, f64Sign_neg, f64Mag_eq, f64Low_neg, ← f64Mag_eq, signedMag_not]

theorem f64Add_correct (nan : F64) (ha : f64Finite a = true) (hb : f64Finite b = true) :
    correctlyRounded (f64Value a + f64Value b) 1
      (if f64Value a + f64Value b = 0 then f64Sign a && f64Sign b
        else decide (f64Value a + f64Value b < 0)) (f64Add nan a b) := by
  rw [f64Add_of_finite ha hb]
  exact correctlyRounded_int fun hne => if_neg hne

theorem f64Sub_correct (nan : F64) (ha : f64Finite a = true) (hb : f64Finite b = true) :
    correctlyRounded (f64Value a - f64Value b) 1
      (if f64Value a - f64Value b = 0 then f64Sign a && !f64Sign b
        else decide (f64Value a - f64Value b < 0)) (f64Sub nan a b) := by
  have hadd := f64Add_correct nan ha (f64Finite_neg hb)
  rwa [f64Value_neg, f64Sign_neg, ← sub_eq_add_neg] at hadd

theorem f64Mul_correct (nan : F64) (ha : f64Finite a = true) (hb : f64Finite b = true) :
    correctlyRounded (f64Value a * f64Value b) (2 ^ 1074) (f64Sign a ^^ f64Sign b)
      (f64Mul nan a b) := by
  have hpos : ∀ k, 0 < 2 ^ k := Nat.two_pow_pos
  have hround := correctlyRounded_round (neg := f64Sign a ^^ f64Sign b) (e := false)
    (n := f64Mag a * f64Mag b) (hpos 1074)
  rw [Bool.xor_false, ← signedMag_mul, signedMag_false, Nat.cast_pow] at hround
  rw [f64Mul_of_finite ha hb]
  exact hround

theorem f64Div_correct (nan : F64) (ha : f64Finite a = true) (hb : f64Finite b = true)
    (hne : f64Value b ≠ 0) :
    correctlyRounded (f64Value a * 2 ^ 1074) (f64Value b) (f64Sign a ^^ f64Sign b)
      (f64Div nan a b) := by
  have hmag := mt f64Value_eq_zero_iff.mpr hne
  have hround := correctlyRounded_round (neg := f64Sign a ^^ f64Sign b) (e := f64Sign b)
    (n := f64Mag a * 2 ^ 1074) (Nat.pos_of_ne_zero hmag)
  rw [Bool.xor_assoc, Bool.xor_self, Bool.xor_false, ← Bool.xor_false (f64Sign a),
    ← signedMag_mul, signedMag_false, Nat.cast_pow, Bool.xor_false] at hround
  rw [f64Div_of_finite ha hb hmag]
  exact hround

/-- A non-zero value over zero is an infinity (IEEE 754, log entry 11). -/
theorem f64Div_zero (nan : F64) (ha : f64Finite a = true) (hb : f64Finite b = true)
    (hne : f64Value a ≠ 0) (hzero : f64Value b = 0) :
    f64Div nan a b = f64Inf (f64Sign a ^^ f64Sign b) := by
  rw [f64Div, f64Class_of_finite ha, f64Class_of_finite hb, f64Value_eq_zero_iff.mp hzero]
  exact (if_pos rfl).trans (if_neg (mt f64Value_eq_zero_iff.mpr hne))

end Sys2Proof.Machine
end

section
/-! CERTIFICATES. The statement of 00_scope.md R12 on the four operations settled. -/

namespace Sys2Proof.Machine

/-- Settles O44: each operation is one rounding of its exact result, and the infinities by class. -/
theorem arithmeticIsCorrectlyRounded : Obligations.ArithmeticIsCorrectlyRounded := by
  refine ⟨fun nan a b ha hb => ⟨f64Add_correct nan ha hb, f64Sub_correct nan ha hb,
    f64Mul_correct nan ha hb, f64Div_correct nan ha hb, f64Div_zero nan ha hb⟩,
    fun nan x n n' hx => ?_⟩
  have hclass := f64Class_of_finite hx
  refine ⟨?_, ?_, ?_, fun hne => ?_, ?_, ?_, ?_⟩
  · simp only [f64Add, f64Class_inf, hclass]
  · simp only [f64Add, f64Class_inf, hclass]
  · simp only [f64Add, f64Class_inf, if_true]
  · have hmag := mt f64Value_eq_zero_iff.mpr hne
    simp only [f64Mul, f64Class_inf, hclass, if_neg hmag, and_self]
  · simp only [f64Mul, f64Class_inf]
  · simp only [f64Div, f64Class_inf, hclass]
  · simp only [f64Div, f64Class_inf, hclass]

end Sys2Proof.Machine
end
